-- ==== Sys2Proof/Word.lean ====
section
/-! DEFINITION. The word types of the block: bytes, packets, line levels (spec/00_scope.md R8, R9). -/

namespace Sys2Proof

/-- Eight bits: a bus byte, a register or strobe identifier, a channel, a command code (R60, R98). -/
abbrev Byte := BitVec 8

/-- The 24-bit serial of a remote (R29, R98). -/
abbrev Serial := BitVec 24

/-- The 24-bit frequency word (R97). -/
abbrev FreqWord := BitVec 24

/-- The 40-bit packet, bit 39 first on the air (R98). -/
abbrev Packet := BitVec 40

/-- The level of a line (R9). -/
inductive Level
  | low
  | high
deriving DecidableEq, Repr, Inhabited

/-- One segment of a waveform: a level held for a number of microseconds (R12, R100). -/
abbrev Segment := Level × Nat

end Sys2Proof
end

