-- ==== Sys2Proof/Syntax.lean ====
section
/-! DEFINITION. The instructions: the operations a host invokes (spec/30_encoding.md R108, R109) and
the encodings the block emits or accepts, one constructor per row of spec/opcode_table.json. -/

namespace Sys2Proof

/-- The members of STROBES the source names, and further members by number ("etc.", R7, R32).
Which further members exist is the configuration's (log entry 5). -/
inductive Strobe
  | reset
  | idle
  | receiveMode
  | transmitMode
  | calibrate
  | flush
  | noOp
  | other (n : Nat)
deriving DecidableEq, Repr, Inhabited

/-- The members of REGS the source names (R32): the frequency registers, the power table, the FIFO,
the chip identity register(s), and the configuration registers written at startup.
How many there are of the last two kinds is the configuration's (log entry 5). -/
inductive Reg
  | freqHi
  | freqMid
  | freqLo
  | paTable
  | fifo
  | identity (n : Nat)
  | config (n : Nat)
deriving DecidableEq, Repr, Inhabited

/-- A frequency in megahertz as an exact rational `num / den` (R143, R146; log entry 18). -/
structure Mhz where
  num : Int
  den : Nat
deriving DecidableEq, Repr, Inhabited

/-- One entry of STARTUP_OPS: a BUSDRV operation of R241.  The last two are the entries the rule gives
whole: `carrier` is `PFREQ 433.92`, and `powerTable` is `WBURST patable, PA_TABLE`, its bytes being the
parameter PA_TABLE. -/
inductive StartupOp
  | strobe (s : Strobe)
  | write (r : Reg) (b : Byte)
  | wburst (r : Reg) (bs : List Byte)
  | pfreq (mhz : Mhz)
  | carrier
  | powerTable
deriving DecidableEq, Repr, Inhabited

/-- The instructions, one constructor per row of the opcode table, in the table's order.
The rows from `fmtS` on are encodings; what running one means is log entry 1. -/
inductive Instr
  | init
  | exec (st : Strobe)
  | read (r : Reg)
  | write (r : Reg) (b : Byte)
  | wburst (r : Reg) (bs : List Byte)
  | pfreq (mhz : Mhz)
  | pulse (lvl : Level) (d : Nat)
  | txframe (p : Packet)
  | txburst (p : Packet)
  | txen
  | txdis
  | decreset
  | poll
  | edge (lvl : Level) (ts el : Nat)
  | setser (v : Serial)
  | setch (v : Byte)
  | send (c1 : Byte) (c2 : Option Byte)
  | sniff
  | startup
  | up
  | down
  | stop
  | fmtS (st : Strobe)
  | fmtHRead (r : Reg)
  | fmtHWrite (r : Reg)
  | fmtD (b : Byte)
  | fmtFreq (w : FreqWord)
  | fmtPacket (serial : Serial) (channel code : Byte)
  | codeUpPress
  | codeUpRelease
  | codeDownPress
  | codeDownRelease
  | codeStop
  | symHeader
  | symStart
  | symBit1
  | symBit0
  | winStartH (el : Nat)
  | winStartL (el : Nat)
  | winLong (el : Nat)
  | winShort (el : Nat)
deriving DecidableEq, Repr, Inhabited

/-- The rows of the opcode table without their operands. -/
inductive Op
  | init | exec | read | write | wburst | pfreq
  | pulse | txframe | txburst | txen | txdis
  | decreset | poll | edge
  | setser | setch | send | sniff | startup
  | up | down | stop
  | fmtS | fmtHRead | fmtHWrite | fmtD | fmtFreq | fmtPacket
  | codeUpPress | codeUpRelease | codeDownPress | codeDownRelease | codeStop
  | symHeader | symStart | symBit1 | symBit0
  | winStartH | winStartL | winLong | winShort
deriving DecidableEq, Repr, Inhabited

/-- Why the bytes of a host call stand for no call (log entry 2). -/
inductive DecodeError
  /-- The bytes end inside a call. -/
  | truncated
  /-- The first byte is no row's opcode. -/
  | unknownOpcode
  /-- A strobe name's tag is none of the eight. -/
  | badStrobe
  /-- A register name's tag is none of the seven. -/
  | badRegister
  /-- A level is neither 0 nor 1. -/
  | badLevel
  /-- The sign byte of a frequency is neither 0 nor 1. -/
  | badSign
  /-- The marker before an optional or repeated byte is neither 0 nor 1. -/
  | badMarker
  /-- PULSE with a duration of 0 (R171 asks for d ≥ 1). -/
  | zeroDuration
  /-- A frequency with denominator 0, which is no rational (R143). -/
  | zeroDenominator
deriving DecidableEq, Repr, Inhabited

end Sys2Proof
end

