-- ==== Sys2Proof/Config.lean ====
section
/-! DEFINITION. The configuration: the open parameters of spec/00_scope.md R7, fixed for the machine
and given no value by the spec, and the free values behind the inputs of spec/10_state.md R34. -/

namespace Sys2Proof

/-- A non-zero number, as the number below it. -/
structure NonZero where
  below : Nat
deriving DecidableEq, Repr, Inhabited

/-- The number itself. -/
def NonZero.val (n : NonZero) : Nat := n.below + 1

/-- The open parameters of R7, each under the name the rule gives it (log entries 4, 5, 27).
The addresses of `Reg.identity n` and `Reg.config n`, and the opcodes of `Strobe.other n`, are the
n-th entries of their lists, and a name whose number lies past its list is no member. -/
structure Config where
  /-- FLAG_READ_BURST (R92). -/
  flag_read_burst : Byte
  /-- FLAG_WRITE_BURST (R92). -/
  flag_write_burst : Byte
  /-- STROBE_OP of the seven strobes the source names (R32). -/
  op_reset : Byte
  op_idle : Byte
  op_receive_mode : Byte
  op_transmit_mode : Byte
  op_calibrate : Byte
  op_flush : Byte
  op_no_op : Byte
  /-- STROBE_OP of the further strobes. -/
  op_others : List Byte
  /-- REG_ADDR of the registers the source names one by one (R32). -/
  addr_freq_hi : Byte
  addr_freq_mid : Byte
  addr_freq_lo : Byte
  addr_pa_table : Byte
  addr_fifo : Byte
  /-- REG_ADDR of the chip identity register(s). -/
  addr_identity : List Byte
  /-- REG_ADDR of the configuration registers. -/
  addr_config : List Byte
  /-- SCLK_HZ, a positive rational as numerator and denominator; no rule depends on it (R94). -/
  sclk_hz : Nat × Nat
  /-- T_RESET_SELECT_US and T_RESET_SETTLE_US (R130). -/
  t_reset_select_us : Nat
  t_reset_settle_us : Nat
  /-- IDLE_SCLK and IDLE_SDO (R130). -/
  idle_sclk : Level
  idle_sdo : Level
  /-- DUMMY_TX (R136). -/
  dummy_tx : Byte
  /-- STARTUP_OPS and PA_TABLE (R241). -/
  startup_ops : List StartupOp
  pa_table : List Byte
  /-- CHIP_ID_CHECK: pairs of a register and the byte expected of it (R242). -/
  chip_id_check : List (Reg × Byte)
  /-- CODE_DOWN_PRESS, CODE_DOWN_RELEASE, CODE_STOP (R99). -/
  code_down_press : Byte
  code_down_release : Byte
  code_stop : Byte
  /-- POLL_PERIOD in microseconds; samples come at any spacing, so no rule reads it (R192). -/
  poll_period : Nat
  /-- TIME_BITS; time is an unbounded natural here, so no rule reads it (R272, D5). -/
  time_bits : Option Nat
  /-- The numeric failure status, some non-zero value (R243, D28). -/
  fail_status : NonZero
deriving DecidableEq, Repr, Inhabited

/-- One sample of the receive line: the microseconds since NOW was last known, and RXD (R34).
Carrying the time as a difference makes NOW monotonic by construction (R272; log entry 7). -/
structure Sample where
  dt : Nat
  lvl : Level
deriving DecidableEq, Repr, Inhabited

/-- The configuration of the machine after reset: the spec gives no value of it (log entry 4). -/
opaque Config.given : Config

/-- The free values behind RDY, once no listed sample is left (R34; log entry 6). -/
opaque Config.freeRdy : Nat → Level

/-- The free values behind SDI, eight levels at a time (R34, R133; log entry 6). -/
opaque Config.freeSdi : Nat → Byte

/-- The free values behind RXD and NOW (R34; log entry 6). -/
opaque Config.freeRx : Nat → Sample

/-- The free values behind the host's cancellation predicate (R34; log entry 6). -/
opaque Config.freeCancel : Nat → Bool

end Sys2Proof
end

