-- ==== Sys2Proof/Machine/Params.lean ====
section
/-! DEFINITION. The parameters whose value the source fixes (spec/00_scope.md R6). -/

namespace Sys2Proof.Machine

/-- Short pulse width, µs. -/
abbrev SHORT_US : Nat := 366

/-- Long pulse width, µs. -/
abbrev LONG_US : Nat := 733

/-- Tolerance unit, µs. -/
abbrev TOL_US : Nat := 120

/-- The header's low span is this many long pulses. -/
abbrev HDR_MULT : Nat := 12

/-- The start marker's high span is this many short pulses. -/
abbrev START_HI_MULT : Nat := 13

/-- The start marker's low span is this many long pulses. -/
abbrev START_LO_MULT : Nat := 2

/-- Budget of the start-marker low check, in tolerance units. -/
abbrev START_LO_BUDGET : Nat := 3

/-- Budget of the start-marker high check, in tolerance units. -/
abbrev START_HI_BUDGET : Nat := 5

/-- Budget of every single-pulse check, in tolerance units. -/
abbrev BIT_BUDGET : Nat := 1

/-- Bits per packet. -/
abbrev PACKET_BITS : Nat := 40

/-- Frames sent per command code. -/
abbrev REPEAT : Nat := 5

/-- The frequency word is round(mhz × FREQ_SCALE_NUM / FREQ_SCALE_DEN). -/
abbrev FREQ_SCALE_NUM : Nat := 65536

/-- See `FREQ_SCALE_NUM`. -/
abbrev FREQ_SCALE_DEN : Nat := 26

/-- Width of the frequency word. -/
abbrev FREQ_WORD_BITS : Nat := 24

/-- The carrier programmed at startup, 433.92 MHz. -/
abbrev CARRIER_MHZ : Mhz := ⟨43392, 100⟩

/-- Reset value of `channel`. -/
abbrev DEFAULT_CHANNEL : Byte := 0x05

/-- Command code "up pressed". -/
abbrev CODE_UP_PRESS : Byte := 0x11

/-- Command code "up released". -/
abbrev CODE_UP_RELEASE : Byte := 0x1E

end Sys2Proof.Machine
end

