-- ==== Sys2Proof/Machine/State.lean ====
section
/-! DEFINITION. The state of the block as plain data (spec/10_state.md): the four parts of R20, the
ghost histories of R33, and beside them what the model itself needs to run: the configuration, the
environment's coming samples, and the host's coming calls.  Field names are the spec's. -/

namespace Sys2Proof.Machine

/-! ## BUSDRV -/

/-- The select line (R22). -/
inductive Select
  | asserted
  | released
deriving DecidableEq, Repr, Inhabited

/-- Whether `sclk` and `sdo` are plain lines or the shifter's (R22). -/
inductive PinMode
  | gpio
  | busctl
deriving DecidableEq, Repr, Inhabited

/-- Where BUSDRV is in its transaction, and so what it does next (R23); a strobe's byte is shifted in HDR, as a
header byte is (DESIGN CHOICE, log entry 35). -/
inductive DrvPhase
  | idle
  | wait1
  | hdr
  | data (k : Nat)
  | wait2
deriving DecidableEq, Repr, Inhabited

/-- BUSDRV: data registers R21, lines R22, sequencer R23, flag R24. -/
structure Busdrv where
  sh_out : Byte
  sh_in : Byte
  sel : Select
  sclk : Level
  sdo : Level
  pin_mode : PinMode
  drv_phase : DrvPhase
  drv_init : Bool
deriving DecidableEq, Repr, Inhabited

/-! ## OOKENC -/

/-- Whether TXD is driven (R25). -/
inductive TxMode
  | hiz
  | driven
deriving DecidableEq, Repr, Inhabited

/-- The level of a tri-state line (R9, R25). -/
inductive TriLevel
  | low
  | high
  | z
deriving DecidableEq, Repr, Inhabited

/-- OOKENC (R25); `seg_idx` is NONE (`none`) or 0..82, `rep_cnt` 0..5 (R23). -/
structure Ookenc where
  tx_pkt : Packet
  tx_mode : TxMode
  tx_level : Level
  rep_cnt : Nat
  seg_idx : Option Nat
deriving DecidableEq, Repr, Inhabited

/-! ## OOKDEC -/

/-- The decode state, 83 values (R27). -/
inductive DState
  | invalid
  | startH
  | startL
  | bitH (i : Fin 40)
  | bitL (i : Fin 40)
deriving DecidableEq, Repr, Inhabited

/-- OOKDEC (R26).  `last_edge` is the model's own: the last event EDGE took since the decoder was
reset, by which an ill-formed hand-made event list is told (R193; log entry 12). -/
structure Ookdec where
  dstate : DState
  acc : Packet
  rx_ts : Nat
  prev_level : Level
  prev_ts : Nat
  last_edge : Option (Level × Nat)
deriving DecidableEq, Repr, Inhabited

/-! ## SESSION -/

/-- Where SESSION is (R23, R31). -/
inductive SessPhase
  | idle
  | sending
  | sniffing
  | halted
deriving DecidableEq, Repr, Inhabited

/-- The last mode strobe SESSION issued (R30). -/
inductive RadioMode
  | unknown
  | idle
  | rx
  | tx
deriving DecidableEq, Repr, Inhabited

/-- SESSION (R29, R30, R31); a `serial` of `none` is UNSET. -/
structure Session where
  serial : Option Serial
  channel : Byte
  sess_phase : SessPhase
  radio_mode : RadioMode
deriving DecidableEq, Repr, Inhabited

/-! ## Ghost histories -/

/-- An element of `bus_log` (R33). -/
inductive BusEvent
  /-- SEL(1). -/
  | selOn
  /-- SEL(0). -/
  | selOff
  /-- RDY: a completed ready wait. -/
  | rdy
  /-- TX(b): a byte out, the returned byte dropped. -/
  | tx (b : Byte)
  /-- RX(b): a byte in, kept. -/
  | rx (b : Byte)
  /-- RESETPULSE: INIT's pulse on the select line. -/
  | resetPulse
deriving DecidableEq, Repr, Inhabited

/-- An element of the model's own history `line_log`: one action of BUSDRV on its lines (R94, R130;
log entry 15). -/
inductive LineEvent
  | sel (v : Select)
  | sclk (v : Level)
  | sdo (v : Level)
  | pins (m : PinMode)
  | delay (d : Nat)
deriving DecidableEq, Repr, Inhabited

/-- The histories (R33), and the model's own `line_log` (log entry 15). -/
structure Ghost where
  bus_log : List BusEvent
  tx_log : List (TriLevel × Nat)
  rx_out : List (Packet × Nat)
  line_log : List LineEvent
deriving DecidableEq, Repr, Inhabited

/-! ## Inputs -/

/-- The coming samples of one input: those listed, oldest first, and after them free values, counted
by `drawn` (R34: any value at every sample; log entry 6). -/
structure Feed (α : Type) where
  script : List α
  drawn : Nat
deriving DecidableEq, Repr, Inhabited

/-- The inputs of R34 and the timebase reading NOW (R272; log entries 6, 7). -/
structure Env where
  now : Nat
  rdy : Feed Level
  sdi : Feed Byte
  rx : Feed Sample
  cancel : Feed Bool
deriving DecidableEq, Repr, Inhabited

/-! ## Conditions, faults, refusals -/

/-- The two error conditions (spec/60_exceptions.md R261), each a NEXT state. -/
inductive Condition
  /-- SEND without a serial (R262). -/
  | noSerialConfigured
  /-- STARTUP read an unexpected byte `v` from the identity register `r` (R264). -/
  | chipIdentityMismatch (r : Reg) (v : Byte)
deriving DecidableEq, Repr, Inhabited

/-- What a call returned to the host (R243; log entry 22). -/
inductive Ret
  /-- No call has returned since the last one began. -/
  | none
  /-- Success. -/
  | success
  /-- READ's byte (R136). -/
  | byte (v : Byte)
  /-- A decoder window's verdict on a span (R104). -/
  | verdict (b : Bool)
  /-- The call ended with a condition (R260). -/
  | raised (c : Condition)
deriving DecidableEq, Repr, Inhabited

/-- Nothing stops the block with a fault: conditions are next states (R260 to R264), a stuck wait and
an endless sniff are runs that go on (R266).  So there is no fault, which is safe (log entry 25). -/
inductive Fault
deriving DecidableEq, Repr

/-- The calls and configurations the spec gives no meaning.  Every one is safe: no claim about a next
state can be proved of a refused call. -/
inductive Refusal
  /-- An instruction exec has no meaning for yet (raised by exec's arms only). -/
  | notModelled (mnemonic : String)
  /-- The host's bytes stand for no call (raised by step). -/
  | undecodable (e : DecodeError)
  /-- The block is HALTED and accepts nothing (R264, 93 I32; raised by step and by every meaning). -/
  | halted
  /-- A call came while another had not returned (R271, R301; raised by every meaning). -/
  | callInProgress
  /-- A call came while `drv_phase` is not IDLE, a transaction being in flight (R147, R301, R271; raised by every
  meaning). -/
  | transactionInFlight
  /-- A BUSDRV operation before INIT (R300, D12). -/
  | driverNotInitialised
  /-- A second INIT (R300, D12). -/
  | alreadyInitialised
  /-- The configuration breaks R92 (D8) or a constraint of R7, R242 (raised by INIT and every BUSDRV operation). -/
  | configurationRefused
  /-- A register name that is no member of REGS (R62, D7). -/
  | notInRegs
  /-- A strobe name that is no member of STROBES (R62, D7). -/
  | notInStrobes
  /-- A negative frequency, or a word of more than 24 bits (R145, D6). -/
  | frequencyOutOfRange
  /-- A frequency with denominator 0, which is no rational (R143); no decoded call has one. -/
  | notARational
  /-- A segment while `tx_mode` is HIZ (R171). -/
  | lineNotDriven
  /-- PULSE of 0 µs (R171 asks for d ≥ 1); no decoded call has one. -/
  | pulseTooShort
  /-- A hand-made event list that does not alternate or goes back in time (R193, D15). -/
  | eventsIllFormed
deriving DecidableEq, Repr

/-! ## The call in flight -/

/-- A bus transaction, by the bytes it sends (R95): a strobe's byte; a read's header; a write's header and
data bytes. -/
inductive Txn
  | strobe (b : Byte)
  | read (h : Byte)
  | write (h : Byte) (bs : List Byte)
deriving DecidableEq, Repr

/-- What a call does next.  A call is a list of these, and what is left of the call in flight stands in State,
which is where SESSION is in its pseudocode: the four values of `sess_phase` cannot say it.  Where BUSDRV is in
a transaction `drv_phase` says (R23; log entry 8). -/
inductive Act
  /-- A bus transaction, taken action by action as `drv_phase` says (R23, R95, R131 to R133). -/
  | bus (x : Txn)
  /-- INIT's body (R130). -/
  | init
  /-- Compare the byte just read with the one expected of the identity register (R242; log entry 34). -/
  | check (r : Reg) (expected : Byte)
  /-- `radio_mode <- m` (R30). -/
  | radio (m : RadioMode)
  /-- `sess_phase <- p` (R233, R238). -/
  | phase (p : SessPhase)
  /-- TXEN's body (R177). -/
  | txen
  /-- TXDIS's body (R177). -/
  | txdis
  /-- A burst begins: no frame of it is complete (R25, R175). -/
  | burst
  /-- The loop of TXBURST, taken pass by pass as `rep_cnt` says (R23, R175). -/
  | frames (p : Packet)
  /-- DECRESET's body (R191). -/
  | decreset
  /-- The head of SNIFF's loop (R238, R239). -/
  | sniffLoop
  /-- Return success (R243). -/
  | finish
  /-- Return the byte just read (R136; log entry 34). -/
  | answer
  /-- The operation that would begin here is refused. -/
  | refuse (r : Refusal)
deriving DecidableEq, Repr

/-- The host's side: the bytes of its coming calls, what is left to do of the call in flight, and what
the last call returned (log entries 3, 8, 22). -/
structure HostSide where
  calls : List Byte
  pend : List Act
  ret : Ret
deriving DecidableEq, Repr

/-- The state of the block (R20), its histories (R33), its configuration (R7) and its surroundings. -/
structure State where
  cfg : Config
  drv : Busdrv
  enc : Ookenc
  dec : Ookdec
  ses : Session
  ghost : Ghost
  env : Env
  host : HostSide
deriving DecidableEq, Repr

/-- The block right after reset, the start of the process (R36, R291).  The values the spec calls
unspecified are log entry 9's; the model's own fields are those of log entries 3, 4, 6, 7, 8, 12, 22. -/
def State.reset : State where
  cfg := Config.given
  drv := ⟨0, 0, .released, .low, .low, .gpio, .idle, false⟩
  enc := ⟨0, .hiz, .low, 0, none⟩
  dec := ⟨.invalid, 0, 0, .low, 0, none⟩
  ses := ⟨none, DEFAULT_CHANNEL, .idle, .unknown⟩
  ghost := ⟨[], [], [], []⟩
  env := ⟨0, ⟨[], 0⟩, ⟨[], 0⟩, ⟨[], 0⟩, ⟨[], 0⟩⟩
  host := ⟨[], [], .none⟩

end Sys2Proof.Machine
end

