-- ==== Sys2Proof/Machine/Flags.lean ====
section
/-! DEFINITION. The truth values the block computes: the tolerance predicate (spec/00_scope.md R11),
the decoder's four acceptance windows (spec/30_encoding.md R104), and the edge test. -/

namespace Sys2Proof.Machine

/-- `match(d, t, b)`: |d − t| < b, the difference taken as max − min (R11, R13). -/
def matchUs (d t b : Nat) : Bool := max d t - min d t < b

/-- The start marker's high span (R196). -/
def inStartH (el : Nat) : Bool := matchUs el (START_HI_MULT * SHORT_US) (START_HI_BUDGET * TOL_US)

/-- The start marker's low span (R198). -/
def inStartL (el : Nat) : Bool := matchUs el (START_LO_MULT * LONG_US) (START_LO_BUDGET * TOL_US)

/-- A long pulse (R203, R205). -/
def inLong (el : Nat) : Bool := matchUs el LONG_US (BIT_BUDGET * TOL_US)

/-- A short pulse (R203, R205). -/
def inShort (el : Nat) : Bool := matchUs el SHORT_US (BIT_BUDGET * TOL_US)

/-- The low half expected after a bit is its complement: short after a 1, long after a 0 (R205). -/
def inComplement (bit : Bool) (el : Nat) : Bool := if bit then inShort el else inLong el

end Sys2Proof.Machine
end

