-- ==== Sys2Proof/Machine/Operands.lean ====
section
/-! DEFINITION. From names and numbers to what goes on the lines: register and strobe identifiers
(spec/30_encoding.md R91, R92), the frequency word (spec/40_bus_driver.md R143), the packet (R98) and
the frame waveform (R100, R101). -/

namespace Sys2Proof.Machine

/-! ## Identifiers and headers -/

/-- REG_ADDR(r); none for a name that is no member of REGS (R7, R62; log entry 5). -/
def regAddr (c : Config) : Reg → Option Byte
  | .freqHi => some c.addr_freq_hi
  | .freqMid => some c.addr_freq_mid
  | .freqLo => some c.addr_freq_lo
  | .paTable => some c.addr_pa_table
  | .fifo => some c.addr_fifo
  | .identity n => c.addr_identity[n]?
  | .config n => c.addr_config[n]?

/-- STROBE_OP(s), which is the strobe byte, format S (R91); none for a name that is no member of
STROBES (R62; log entry 5). -/
def strobeByte (c : Config) : Strobe → Option Byte
  | .reset => some c.op_reset
  | .idle => some c.op_idle
  | .receiveMode => some c.op_receive_mode
  | .transmitMode => some c.op_transmit_mode
  | .calibrate => some c.op_calibrate
  | .flush => some c.op_flush
  | .noOp => some c.op_no_op
  | .other n => c.op_others[n]?

/-- Format H for READ: the address or-ed with FLAG_READ_BURST (R92). -/
def readHeader (c : Config) (r : Reg) : Option Byte :=
  match regAddr c r with
  | some a => some (a ||| c.flag_read_burst)
  | none => none

/-- Format H for WRITE and WBURST: the address or-ed with FLAG_WRITE_BURST (R92). -/
def writeHeader (c : Config) (r : Reg) : Option Byte :=
  match regAddr c r with
  | some a => some (a ||| c.flag_write_burst)
  | none => none

/-- Every address of REGS. -/
def regAddrs (c : Config) : List Byte :=
  [c.addr_freq_hi, c.addr_freq_mid, c.addr_freq_lo, c.addr_pa_table, c.addr_fifo] ++ c.addr_identity ++
    c.addr_config

/-- The flags differ, and no address shares a bit with either: a configuration that breaks this is
refused (R92, D8).  R7's "in its top bits" names no bits, and the model asks nothing of where in a mask
they are, nor that a mask is not 0 (DESIGN CHOICE, log entry 5). -/
def flagsOk (c : Config) : Bool :=
  c.flag_read_burst != c.flag_write_burst &&
    (regAddrs c).all fun a => a &&& (c.flag_read_burst ||| c.flag_write_burst) == 0

/-- The constraints R7 and R242 put on the other parameters (log entry 5). -/
def parametersOk (c : Config) : Bool :=
  0 < c.sclk_hz.1 && 0 < c.sclk_hz.2 && !c.pa_table.isEmpty && !c.chip_id_check.isEmpty

/-- The configurations the model gives a meaning. -/
def configOk (c : Config) : Bool := flagsOk c && parametersOk c

/-- The mode a strobe puts the radio in, as `radio_mode` records it (R30). -/
def modeOf : Strobe → Option RadioMode
  | .idle => some .idle
  | .receiveMode => some .rx
  | .transmitMode => some .tx
  | _ => none

/-! ## The frequency word -/

/-- floor(mhz × 65536 / 26 + 1/2) for mhz = num / den, over exact rationals:
the quotient of 2·65536·num + 26·den by 2·26·den (R143; log entry 18). -/
def roundHalfUp (num den : Nat) : Nat :=
  (2 * FREQ_SCALE_NUM * num + FREQ_SCALE_DEN * den) / (2 * FREQ_SCALE_DEN * den)

/-- The frequency word, or why PFREQ is refused (R143, R145). -/
def freqWord (m : Mhz) : Except Refusal FreqWord :=
  if m.den = 0 then .error .notARational
  else if m.num < 0 then .error .frequencyOutOfRange
  else if roundHalfUp m.num.toNat m.den < 2 ^ FREQ_WORD_BITS then
    .ok (BitVec.ofNat 24 (roundHalfUp m.num.toNat m.den))
  else .error .frequencyOutOfRange

/-- The three data bytes of a frequency word (R97). -/
def freqHigh (w : FreqWord) : Byte := w.extractLsb' 16 8

/-- See `freqHigh`. -/
def freqMiddle (w : FreqWord) : Byte := w.extractLsb' 8 8

/-- See `freqHigh`. -/
def freqLow (w : FreqWord) : Byte := w.extractLsb' 0 8

/-! ## The packet and its waveform -/

/-- serial ++ channel ++ code (R98, R232). -/
def packet (serial : Serial) (channel code : Byte) : Packet := serial ++ channel ++ code

/-- The level of a bit on a line. -/
def levelOf (b : Bool) : Level := if b then .high else .low

/-- The header symbol (R100). -/
def header : List Segment := [(.low, HDR_MULT * LONG_US)]

/-- The start marker (R100). -/
def startMarker : List Segment := [(.high, START_HI_MULT * SHORT_US), (.low, START_LO_MULT * LONG_US)]

/-- The bit cells 1 and 0 (R100). -/
def bitCell (b : Bool) : List Segment :=
  if b then [(.high, LONG_US), (.low, SHORT_US)] else [(.high, SHORT_US), (.low, LONG_US)]

/-- The bit cells of a packet, bit 39 first (R101). -/
def packetCells (p : Packet) : List Segment :=
  (List.range PACKET_BITS).flatMap fun k => bitCell (p.getLsbD (PACKET_BITS - 1 - k))

/-- frame(p): header, start marker, forty bit cells, 83 segments (R101). -/
def frame (p : Packet) : List Segment := header ++ startMarker ++ packetCells p

/-- Where the bit cells begin among a frame's segments (R101). -/
def firstCell : Nat := 3

end Sys2Proof.Machine
end

