-- ==== Sys2Proof/Machine/Ops.lean ====
section
/-! DEFINITION. The shared operations: raising a condition (spec/60_exceptions.md R260), drawing an
input (spec/10_state.md R34), the lines and primitives of BUSDRV (spec/40_bus_driver.md R130 to R133). -/

namespace Sys2Proof.Machine

/-! ## Conditions and returns -/

/-- Whether a condition is fatal (R261). -/
def fatal : Condition → Bool
  | .noSerialConfigured => false
  | .chipIdentityMismatch _ _ => true

/-- `raise`: the call ends here with its failure; a fatal condition halts the block for ever.  State
written before stays written (R260).  Nothing is saved and there is no return operation: the host
simply issues its next call, or, after a fatal condition, none (R269, R270). -/
def raise (c : Condition) (s : State) : State :=
  { s with
    host.ret := .raised c
    host.pend := []
    ses.sess_phase := if fatal c then .halted else s.ses.sess_phase }

/-- The numeric status the host is given: zero for success, the parameter's non-zero value for failure, none
while no call has returned (R243, D28; log entry 22). -/
def statusOf (c : Config) : Ret → Option Nat
  | .none => none
  | .success => some 0
  | .byte _ => some 0
  | .verdict _ => some 0
  | .raised _ => some c.fail_status.val

/-- A call returns to the host (R243). -/
def returnWith (r : Ret) (s : State) : State := { s with host.ret := r }

/-! ## Inputs -/

/-- The next sample of an input, and the samples after it. -/
def Feed.draw {α : Type} (free : Nat → α) (f : Feed α) : α × Feed α :=
  match f.script with
  | x :: xs => (x, { f with script := xs })
  | [] => (free f.drawn, { f with drawn := f.drawn + 1 })

/-- The sample an input will give after `k` others. -/
def Feed.ahead {α : Type} (free : Nat → α) (f : Feed α) (k : Nat) : α :=
  match f.script[k]? with
  | some x => x
  | none => free (f.drawn + (k - f.script.length))

/-- One sample of RDY (R132). -/
def drawRdy (s : State) : Level × State :=
  ((s.env.rdy.draw Config.freeRdy).1, { s with env.rdy := (s.env.rdy.draw Config.freeRdy).2 })

/-- The eight levels of SDI during one byte, most significant first (R133). -/
def drawSdi (s : State) : Byte × State :=
  ((s.env.sdi.draw Config.freeSdi).1, { s with env.sdi := (s.env.sdi.draw Config.freeSdi).2 })

/-- One reading of the cancellation predicate (R239). -/
def drawCancel (s : State) : Bool × State :=
  ((s.env.cancel.draw Config.freeCancel).1, { s with env.cancel := (s.env.cancel.draw Config.freeCancel).2 })

/-- One sample of RXD and NOW; NOW moves on by the time that passed (R192, R272). -/
def drawRx (s : State) : Level × State :=
  ((s.env.rx.draw Config.freeRx).1.lvl,
    { s with
      env.rx := (s.env.rx.draw Config.freeRx).2
      env.now := s.env.now + (s.env.rx.draw Config.freeRx).1.dt })

/-! ## Lines and histories of BUSDRV -/

/-- Append to `bus_log` (R33). -/
def logBus (e : BusEvent) (s : State) : State := { s with ghost.bus_log := s.ghost.bus_log ++ [e] }

/-- Append to `line_log` (log entry 15). -/
def logLine (e : LineEvent) (s : State) : State := { s with ghost.line_log := s.ghost.line_log ++ [e] }

/-- Drive the select line. -/
def setSel (v : Select) (s : State) : State := logLine (.sel v) { s with drv.sel := v }

/-- Drive the clock line. -/
def setSclk (v : Level) (s : State) : State := logLine (.sclk v) { s with drv.sclk := v }

/-- Drive the data-out line. -/
def setSdo (v : Level) (s : State) : State := logLine (.sdo v) { s with drv.sdo := v }

/-- Hand the lines to GPIO or to the bus controller. -/
def setPins (m : PinMode) (s : State) : State := logLine (.pins m) { s with drv.pin_mode := m }

/-- `drv_phase <- p`. -/
def setPhase (p : DrvPhase) (s : State) : State := { s with drv.drv_phase := p }

/-- `delay(d)` of BUSDRV: d microseconds pass with no change of any output (R10). -/
def delay (d : Nat) (s : State) : State := logLine (.delay d) { s with env.now := s.env.now + d }

/-- `sel_assert()` (R131). -/
def selAssert (s : State) : State := logBus .selOn (setSel .asserted s)

/-- `sel_release()` (R131). -/
def selRelease (s : State) : State := logBus .selOff (setSel .released s)

/-- One clock of R94, bit k: `sdo` is set up, the leading (falling) edge samples SDI into `sh_in`, the
trailing edge returns the clock to its idle level. -/
def shiftBit (inb : Byte) (k : Nat) (s : State) : State :=
  let s := setSdo (levelOf (s.drv.sh_out.getLsbD k)) s
  let s := setSclk .low s
  let s := { s with drv.sh_in := s.drv.sh_in <<< 1 ||| BitVec.setWidth 8 (BitVec.ofBool (inb.getLsbD k)) }
  setSclk .high s

/-- `xfer(b)`: eight clocks, bit 7 first; the byte shifted in is then in `sh_in` (R63, R94, R133).  That
`sh_out` holds the whole byte throughout and after is the model's choice: R21 says no rule reads it between
transactions (DESIGN CHOICE, log entry 31), and that `sh_in` keeps the byte until the next `xfer` is another
(DESIGN CHOICE, log entry 34). -/
def xfer (b : Byte) (s : State) : State :=
  let inb := (drawSdi s).1
  let s := (drawSdi s).2
  [7, 6, 5, 4, 3, 2, 1, 0].foldl (fun s k => shiftBit inb k s) { s with drv.sh_out := b }

/-- TX(b): `xfer(b)` with the returned byte dropped (R133, R149). -/
def txByte (b : Byte) (s : State) : State := logBus (.tx b) (xfer b s)

/-- RX(v): `xfer(DUMMY_TX)` with the returned byte kept (R133, R136). -/
def rxByte (s : State) : State :=
  let s := xfer s.cfg.dummy_tx s
  logBus (.rx s.drv.sh_in) s

/-- INIT's body (R130): known idle levels, the select pulse, the bus-controller mode. -/
def initPulse (s : State) : State :=
  let c := s.cfg
  let s := setPins .gpio s
  let s := setSdo c.idle_sdo (setSclk c.idle_sclk (setSel .released s))
  let s := delay c.t_reset_select_us (setSel .asserted s)
  let s := delay c.t_reset_settle_us (setSel .released s)
  let s := setSclk .high (setPins .busctl s)
  logBus .resetPulse { s with drv.drv_init := true }

/-- The entry check of every BUSDRV operation but INIT: INIT has been done, no transaction is in
flight, and the configuration has a meaning (R147, R300, R301, R92). -/
def busEntry (s : State) : Option Refusal :=
  if !s.drv.drv_init then some .driverNotInitialised
  else if s.drv.drv_phase ≠ .idle then some .transactionInFlight
  else if !configOk s.cfg then some .configurationRefused
  else none

/-- The entry check of INIT (R130, R300, R92). -/
def initEntry (s : State) : Option Refusal :=
  if s.drv.drv_init then some .alreadyInitialised
  else if !configOk s.cfg then some .configurationRefused
  else none

end Sys2Proof.Machine
end

