-- ==== Sys2Proof/Machine/Decoder.lean ====
section
/-! DEFINITION. The operations of OOKDEC (spec/42_ook_decoder.md): arming, the edge detector, and the
transition function with one arm per rule.  The order of the start-marker checks is the one
spec/90_conflicts.md C1 and C2 settle. -/

namespace Sys2Proof.Machine

/-- `dstate <- d`. -/
def setDState (d : DState) (s : State) : State := { s with dec.dstate := d }

/-- `enter_bit0(ts)` (R200). -/
def enterBit0 (ts : Nat) (s : State) : State :=
  { s with dec.dstate := .bitH 0, dec.rx_ts := ts, dec.acc := 0 }

/-- `acc <- (acc << 1)[39:0] | bit` (R203). -/
def shiftIn (acc : Packet) (bit : Bool) : Packet := acc <<< 1 ||| BitVec.setWidth 40 (BitVec.ofBool bit)

/-- `emit(acc, rx_ts)` (R207). -/
def emit (s : State) : State := { s with ghost.rx_out := s.ghost.rx_out ++ [(s.dec.acc, s.dec.rx_ts)] }

/-- `BIT_H[i]`, falling edge: the high half is classified (R203). -/
def classify (i : Fin 40) (el : Nat) (s : State) : State :=
  if inLong el then { s with dec.acc := shiftIn s.dec.acc true, dec.dstate := .bitL i }
  else if inShort el then { s with dec.acc := shiftIn s.dec.acc false, dec.dstate := .bitL i }
  else setDState .invalid s

/-- `BIT_L[i]`, rising edge: the low half is checked against the complement of the bit just read, and
the packet is complete after bit 39 (R28, R205, D16). -/
def complement (i : Fin 40) (el : Nat) (s : State) : State :=
  if inComplement (s.dec.acc.getLsbD 0) el then
    if h : i.val < 39 then setDState (.bitH ⟨i.val + 1, by omega⟩) s
    else setDState .invalid (emit s)
  else setDState .invalid s

/-- The arms of the transition function (R194 to R208). -/
def transition (lvl : Level) (ts el : Nat) (s : State) : State :=
  match s.dec.dstate, lvl with
  | .invalid, .high => setDState .startH s
  | .invalid, .low => s
  | .startH, .low => if inStartH el then setDState .startL s else setDState .invalid s
  | .startH, .high => setDState .invalid s
  | .startL, .high => if inStartL el then enterBit0 ts s else setDState .invalid s
  | .startL, .low => setDState .invalid s
  | .bitH i, .low => classify i el s
  | .bitH _, .high => setDState .invalid s
  | .bitL i, .high => complement i el s
  | .bitL _, .low => setDState .invalid s

/-- EDGE: one event is taken whole (R194), and remembered as the last one (log entry 12). -/
def takeEdge (lvl : Level) (ts el : Nat) (s : State) : State :=
  transition lvl ts el { s with dec.last_edge := some (lvl, ts) }

/-- An event may follow the last one: levels alternate and time does not go back (R193). -/
def edgeFollows (last : Option (Level × Nat)) (lvl : Level) (ts : Nat) : Bool :=
  match last with
  | none => true
  | some (l, t) => l ≠ lvl && t ≤ ts

/-- DECRESET's body: the decoder starts over from a sample of the line (R191, D17). -/
def arm (s : State) : State :=
  let lvl := (drawRx s).1
  let s := (drawRx s).2
  { s with
    dec.dstate := .invalid
    dec.prev_level := lvl
    dec.prev_ts := s.env.now
    dec.last_edge := none }

/-- POLL's body: one sample, and an edge event if the level changed (R192). -/
def pollLine (s : State) : State :=
  let lvl := (drawRx s).1
  let s := (drawRx s).2
  if lvl ≠ s.dec.prev_level then
    takeEdge lvl s.env.now (s.env.now - s.dec.prev_ts)
      { s with dec.prev_level := lvl, dec.prev_ts := s.env.now }
  else s

end Sys2Proof.Machine
end

