-- ==== Sys2Proof/Machine/Encoder.lean ====
section
/-! DEFINITION. The operations of OOKENC (spec/41_ook_encoder.md): driving segments, a frame, a burst,
and turning the line on and off. -/

namespace Sys2Proof.Machine

/-- A driven level as `tx_log` records it. -/
def triOf : Level → TriLevel
  | .low => .low
  | .high => .high

/-- Append to `tx_log` (R33). -/
def logTx (l : TriLevel) (d : Nat) (s : State) : State := { s with ghost.tx_log := s.ghost.tx_log ++ [(l, d)] }

/-- TXD as seen from outside: Z while the line is not driven (R170). -/
def txd (e : Ookenc) : TriLevel :=
  match e.tx_mode with
  | .hiz => .z
  | .driven => triOf e.tx_level

/-- `drive(lvl, d)`: the level is set and held for exactly d microseconds (R171, D34). -/
def drive (g : Segment) (s : State) : State :=
  logTx (triOf g.1) g.2 { s with enc.tx_level := g.1, env.now := s.env.now + g.2 }

/-- Segments one after the other, no gap (R171). -/
def driveAll (gs : List Segment) (s : State) : State := gs.foldl (fun s g => drive g s) s

/-- Segments of a frame from index `k` on, `seg_idx` saying which is driven (R23, R173). -/
def driveFrom : Nat → List Segment → State → State
  | _, [], s => { s with enc.seg_idx := none }
  | k, g :: gs, s => driveFrom (k + 1) gs (drive g { s with enc.seg_idx := some k })

/-- TXFRAME's body (R173). -/
def sendFrame (p : Packet) (s : State) : State := driveFrom 0 (frame p) { s with enc.tx_pkt := p }

/-- The bit cells of a packet alone, which are segments 3 to 82 of its frame (R98, R101). -/
def sendCells (p : Packet) (s : State) : State :=
  driveFrom firstCell (packetCells p) { s with enc.tx_pkt := p }

/-- One pass of TXBURST's loop, after which one more frame is complete (R25, R175). -/
def burstFrame (p : Packet) (s : State) : State :=
  let s := sendFrame p s
  { s with enc.rep_cnt := s.enc.rep_cnt + 1 }

/-- TXEN's body (R177, D22). -/
def lineOn (s : State) : State := logTx .low 0 { s with enc.tx_mode := .driven, enc.tx_level := .low }

/-- TXDIS's body (R177). -/
def lineOff (s : State) : State := logTx .z 0 { s with enc.tx_mode := .hiz }

end Sys2Proof.Machine
end

