-- ==== Sys2Proof/Machine/Sequencer.lean ====
section
/-! DEFINITION. The actions of the parts, one at a time, each picked by a sequencer register
(spec/10_state.md R23); a call as a whole, which is its actions one after the other until it returns, until a
ready wait is not met (spec/40_bus_driver.md R132) or until one iteration of SNIFF's loop is over
(spec/43_session.md R239); and the lists of what the calls do (log entry 8). -/

namespace Sys2Proof.Machine

/-- What one action leads to. -/
inductive Progress
  /-- The entry of the list is done and the next one follows. -/
  | go (s : State)
  /-- The entry is not done, and its next action follows. -/
  | more (s : State)
  /-- The entry has to be taken again: RDY was HIGH, or the loop goes round. -/
  | again (s : State)
  /-- The call ends here with a condition (R260). -/
  | ended (s : State)
  /-- The call has no meaning. -/
  | refuse (r : Refusal)

/-! ## BUSDRV's actions -/

/-- `wait_ready()`: taken when RDY is sampled LOW, and only then; `met` is what moves `drv_phase` on (R132,
D13). -/
def waitReady (met : State → Progress) (s : State) : Progress :=
  match (drawRdy s).1 with
  | .low => met (logBus .rdy (drawRdy s).2)
  | .high => .again (drawRdy s).2

/-- The byte a transaction begins with: the strobe byte, or the header (R90). -/
def Txn.firstByte : Txn → Byte
  | .strobe b => b
  | .read h => h
  | .write h _ => h

/-- How many data bytes follow it (R95). -/
def Txn.dataBytes : Txn → Nat
  | .strobe _ => 0
  | .read _ => 1
  | .write _ bs => bs.length

/-- Data byte `k` goes out, or comes in (R95, R136, R138, R140). -/
def dataByte (x : Txn) (k : Nat) (s : State) : State :=
  match x with
  | .strobe _ => s
  | .read _ => rxByte s
  | .write _ bs =>
    match bs[k]? with
    | some b => txByte b s
    | none => s

/-- The end of a transaction: `sel_release()`, and IDLE (R131, R147). -/
def closeBus (s : State) : State := setPhase .idle (selRelease s)

/-- Data byte `k` is next, or, when there is none, the transaction ends: R23 has no place between the last byte
and SEL(0), so that both are one action (DESIGN CHOICE, log entry 32). -/
def toData (x : Txn) (k : Nat) (s : State) : Progress :=
  if k < x.dataBytes then .more (setPhase (.data k) s) else .go (closeBus s)

/-- What follows the first byte: a strobe's second wait, or the data (R95). -/
def afterFirst (x : Txn) (s : State) : Progress :=
  match x with
  | .strobe _ => .more (setPhase .wait2 s)
  | .read _ => toData x 0 s
  | .write _ _ => toData x 0 s

/-- One action of BUSDRV in a transaction: it reads `drv_phase`, does what stands there, and writes `drv_phase`
(R23).  IDLE: the entry check of R147 and `sel_assert()`; WAIT1: the wait before the first byte; HDR: that
byte, a strobe's too (DESIGN CHOICE, log entry 35); DATA(k): data byte k; WAIT2: a strobe's second wait, with
which select is released, R23 having no place between (DESIGN CHOICE, log entry 32). -/
def busAct (x : Txn) (s : State) : Progress :=
  match s.drv.drv_phase with
  | .idle =>
    match busEntry s with
    | some r => .refuse r
    | none => .more (setPhase .wait1 (selAssert s))
  | .wait1 => waitReady (fun s => .more (setPhase .hdr s)) s
  | .hdr => afterFirst x (txByte x.firstByte s)
  | .data k => toData x (k + 1) (dataByte x k s)
  | .wait2 => waitReady (fun s => .go (closeBus s)) s

/-! ## OOKENC's actions in a burst -/

/-- One action of OOKENC in a burst: it reads `rep_cnt`, drives the frame that is next as one action, and moves
`rep_cnt` on; at REPEAT the burst is over (R23, R175; log entry 16). -/
def burstAct (p : Packet) (s : State) : Progress :=
  if s.enc.rep_cnt < REPEAT then
    match s.enc.tx_mode with
    | .driven => .more (burstFrame p s)
    | .hiz => .refuse .lineNotDriven
  else .go s

/-! ## The actions of every part -/

/-- The head of SNIFF's loop: the cancellation is read first, then the line is sampled once (R239, D19). -/
def sniffHead (s : State) : Progress :=
  if (drawCancel s).1 then .go (drawCancel s).2 else .again (pollLine (drawCancel s).2)

/-- One action.  READ's byte stands in `sh_in` from SEL(0) until READ returns it or STARTUP compares it, R136
naming no register for it (DESIGN CHOICE, log entry 34). -/
def act (a : Act) (s : State) : Progress :=
  match a with
  | .bus x => busAct x s
  | .init =>
    match initEntry s with
    | some r => .refuse r
    | none => .go (initPulse s)
  | .check r e =>
    if s.drv.sh_in = e then .go s else .ended (raise (.chipIdentityMismatch r s.drv.sh_in) s)
  | .radio m => .go { s with ses.radio_mode := m }
  | .phase p => .go { s with ses.sess_phase := p }
  | .txen => .go (lineOn s)
  | .txdis => .go (lineOff s)
  | .burst => .go { s with enc.rep_cnt := 0 }
  | .frames p => burstAct p s
  | .decreset => .go (arm s)
  | .sniffLoop => sniffHead s
  | .finish => .go (returnWith .success s)
  | .answer => .go (returnWith (.byte s.drv.sh_in) s)
  | .refuse r => .refuse r

/-- One action of the call in flight (R23): a ready wait is an action of its own (R132), and so is each frame
of a burst. -/
def tick (s : State) : Host.Outcome State Fault Refusal :=
  match s.host.pend with
  | [] => .next s
  | a :: k =>
    match act a s with
    | .go s' => .next { s' with host.pend := k }
    | .more s' => .next { s' with host.pend := a :: k }
    | .again s' => .next { s' with host.pend := a :: k }
    | .ended s' => .next s'
    | .refuse r => .refused r

/-! ## A call as a whole -/

/-- The actions of one entry of a list, `n` at most after the first, as far as they go. -/
def actOn : Nat → Act → State → Progress
  | 0, a, s => act a s
  | n + 1, a, s =>
    match act a s with
    | .more s' => actOn n a s'
    | p => p

/-- At least the actions an entry can take after the first: a transaction's waits, first byte and data; a
burst's frames. -/
def actBound : Act → Nat
  | .bus x => x.dataBytes + 4
  | .frames _ => REPEAT
  | _ => 0

/-- The actions of a call, as far as they go; what is left stays in `pend`. -/
def run : List Act → State → Host.Outcome State Fault Refusal
  | [], s => .next { s with host.pend := [] }
  | a :: k, s =>
    match actOn (actBound a) a s with
    | .go s' => run k s'
    | .more s' => .next { s' with host.pend := a :: k }
    | .again s' => .next { s' with host.pend := a :: k }
    | .ended s' => .next s'
    | .refuse r => .refused r

/-- A call begins: only a block that is not halted and has no call and no transaction in flight accepts one
(R264, R271, R147, R301); whatever the last call returned is gone. -/
def accept (s : State) (f : State → Host.Outcome State Fault Refusal) : Host.Outcome State Fault Refusal :=
  match s.ses.sess_phase, s.host.pend, s.drv.drv_phase with
  | .halted, _, _ => .refused .halted
  | .idle, [], .idle => f (returnWith .none s)
  | .idle, [], _ => .refused .transactionInFlight
  | _, _, _ => .refused .callInProgress

/-! ## Bus transactions (R95) -/

/-- EXEC: `SEL(1) RDY TX(S) RDY SEL(0)` (R134). -/
def strobeActs (c : Config) (st : Strobe) : List Act :=
  match strobeByte c st with
  | some b => [.bus (.strobe b)]
  | none => [.refuse .notInStrobes]

/-- READ: `SEL(1) RDY TX(H) RX(v) SEL(0)` (R136). -/
def readActs (c : Config) (r : Reg) : List Act :=
  match readHeader c r with
  | some h => [.bus (.read h)]
  | none => [.refuse .notInRegs]

/-- WBURST, and WRITE with one byte: `SEL(1) RDY TX(H) TX(bs[0]) … SEL(0)` (R138, R140, R96). -/
def writeActs (c : Config) (r : Reg) (bs : List Byte) : List Act :=
  match writeHeader c r with
  | some h => [.bus (.write h bs)]
  | none => [.refuse .notInRegs]

/-- The three writes of a frequency word, high, middle, low (R97, R144). -/
def freqActs (c : Config) (w : FreqWord) : List Act :=
  writeActs c .freqHi [freqHigh w] ++ writeActs c .freqMid [freqMiddle w] ++ writeActs c .freqLo [freqLow w]

/-- PFREQ (R144, R145). -/
def pfreqActs (c : Config) (m : Mhz) : List Act :=
  match freqWord m with
  | .ok w => freqActs c w
  | .error r => [.refuse r]

/-! ## The burst -/

/-- TXBURST: its frames one after the other, no gap (R102, R175). -/
def burstActs (p : Packet) : List Act := [.burst, .frames p]

/-! ## Direct calls -/

/-- EXEC s (R134). -/
def execActs (c : Config) (st : Strobe) : List Act := strobeActs c st ++ [.finish]

/-- READ r (R136). -/
def readCallActs (c : Config) (r : Reg) : List Act := readActs c r ++ [.answer]

/-- WRITE r, b and WBURST r, bs (R138, R140, R96). -/
def writeCallActs (c : Config) (r : Reg) (bs : List Byte) : List Act := writeActs c r bs ++ [.finish]

/-- PFREQ mhz (R144). -/
def pfreqCallActs (c : Config) (m : Mhz) : List Act := pfreqActs c m ++ [.finish]

/-- fmt.FREQ w (R97; log entry 1). -/
def freqCallActs (c : Config) (w : FreqWord) : List Act := freqActs c w ++ [.finish]

/-- TXBURST p (R175). -/
def burstCallActs (p : Packet) : List Act := burstActs p ++ [.finish]

/-! ## SESSION's sequences -/

/-- The record of a mode strobe (R30). -/
def radioActs (st : Strobe) : List Act :=
  match modeOf st with
  | some m => [Act.radio m]
  | none => []

/-- EXEC of a mode strobe by SESSION, and the record of it (R30, R233, R238). -/
def modeActs (c : Config) (st : Strobe) : List Act :=
  strobeActs c st ++ radioActs st

/-- The second burst of SEND, if a second code was given (R233, R235). -/
def secondBurst : Option Packet → List Act
  | some p => burstActs p
  | none => []

/-- SEND after its gate (R233 to R236). -/
def sendActs (c : Config) (p1 : Packet) (p2 : Option Packet) : List Act :=
  Act.phase .sending :: (modeActs c .transmitMode ++ (Act.txen :: (burstActs p1 ++ (secondBurst p2 ++
    (modeActs c .idle ++ [Act.txdis, Act.phase .idle, Act.finish])))))

/-- SNIFF (R238). -/
def sniffActs (c : Config) : List Act :=
  Act.phase .sniffing :: (modeActs c .receiveMode ++ (Act.decreset :: Act.sniffLoop :: (modeActs c .idle ++
    [Act.phase .idle, Act.finish])))

/-- One entry of STARTUP_OPS (R241). -/
def startupOpActs (c : Config) : StartupOp → List Act
  | .strobe st => modeActs c st
  | .write r b => writeActs c r [b]
  | .wburst r bs => writeActs c r bs
  | .pfreq m => pfreqActs c m
  | .carrier => pfreqActs c CARRIER_MHZ
  | .powerTable => writeActs c .paTable c.pa_table

/-- One pair of CHIP_ID_CHECK: the register is read and compared (R242). -/
def checkActs (c : Config) (pair : Reg × Byte) : List Act := readActs c pair.1 ++ [Act.check pair.1 pair.2]

/-- STARTUP: INIT, the identity check, STARTUP_OPS (R240, R293, D23, D24). -/
def startupActs (c : Config) : List Act :=
  Act.init :: (c.chip_id_check.flatMap (checkActs c) ++ (c.startup_ops.flatMap (startupOpActs c) ++ [Act.finish]))

/-- SEND of one or two command codes: the gate first, before anything else (R234, R262). -/
def sendCodes (c1 : Byte) (c2 : Option Byte) (s : State) : Host.Outcome State Fault Refusal :=
  match s.ses.serial with
  | none => .next (raise .noSerialConfigured s)
  | some ser =>
    run (sendActs s.cfg (packet ser s.ses.channel c1) (c2.map (packet ser s.ses.channel))) s

end Sys2Proof.Machine
end

