-- ==== Sys2Proof/Machine/Busdrv.lean ====
section
/-! DEFINITION. The meanings of BUSDRV's operations (spec/40_bus_driver.md) and of the rows that are
encodings on its bus (spec/30_encoding.md R91 to R93, R97; log entry 1). -/

namespace Sys2Proof.Machine

/-- INIT (R130). -/
def execInit (s : State) : Host.Outcome State Fault Refusal :=
  accept s fun s =>
    match initEntry s with
    | some r => .refused r
    | none => .next (returnWith .success (initPulse s))

/-- EXEC s (R134). -/
def execExec (st : Strobe) (s : State) : Host.Outcome State Fault Refusal :=
  accept s fun s => run (execActs s.cfg st) s

/-- READ r (R136). -/
def execRead (r : Reg) (s : State) : Host.Outcome State Fault Refusal :=
  accept s fun s => run (readCallActs s.cfg r) s

/-- WRITE r, b (R138). -/
def execWrite (r : Reg) (b : Byte) (s : State) : Host.Outcome State Fault Refusal :=
  accept s fun s => run (writeCallActs s.cfg r [b]) s

/-- WBURST r, bs, the empty buffer included (R140, D11). -/
def execWburst (r : Reg) (bs : List Byte) (s : State) : Host.Outcome State Fault Refusal :=
  accept s fun s => run (writeCallActs s.cfg r bs) s

/-- PFREQ mhz (R144, R145). -/
def execPfreq (mhz : Mhz) (s : State) : Host.Outcome State Fault Refusal :=
  accept s fun s => run (pfreqCallActs s.cfg mhz) s

/-- A bus byte alone on the wires, by the entry check of R147 and one `xfer` of R133
(R94; log entry 1). -/
def sendBare (b : Option Byte) (absent : Refusal) (s : State) : Host.Outcome State Fault Refusal :=
  accept s fun s =>
    match b, busEntry s with
    | none, _ => .refused absent
    | some _, some r => .refused r
    | some b, none => .next (returnWith .success (txByte b s))

/-- fmt.S: the strobe byte (R91). -/
def execFmtS (st : Strobe) (s : State) : Host.Outcome State Fault Refusal :=
  sendBare (strobeByte s.cfg st) .notInStrobes s

/-- fmt.H.read: the header byte of READ (R92). -/
def execFmtHRead (r : Reg) (s : State) : Host.Outcome State Fault Refusal :=
  sendBare (readHeader s.cfg r) .notInRegs s

/-- fmt.H.write: the header byte of WRITE and WBURST (R92). -/
def execFmtHWrite (r : Reg) (s : State) : Host.Outcome State Fault Refusal :=
  sendBare (writeHeader s.cfg r) .notInRegs s

/-- fmt.D: a data byte, any value (R93). -/
def execFmtD (b : Byte) (s : State) : Host.Outcome State Fault Refusal :=
  sendBare (some b) .notInRegs s

/-- fmt.FREQ: the three bytes of a frequency word, each to its register (R97). -/
def execFmtFreq (w : FreqWord) (s : State) : Host.Outcome State Fault Refusal :=
  accept s fun s => run (freqCallActs s.cfg w) s

end Sys2Proof.Machine
end

