-- ==== Sys2Proof/Machine/Ookdec.lean ====
section
/-! DEFINITION. The meanings of OOKDEC's operations (spec/42_ook_decoder.md) and of its acceptance
windows (spec/30_encoding.md R104; log entry 1). -/

namespace Sys2Proof.Machine

/-- DECRESET (R191). -/
def execDecreset (s : State) : Host.Outcome State Fault Refusal :=
  accept s fun s => .next (returnWith .success (arm s))

/-- POLL (R192). -/
def execPoll (s : State) : Host.Outcome State Fault Refusal :=
  accept s fun s => .next (returnWith .success (pollLine s))

/-- EDGE lvl, ts, el given by hand: a list of events that does not alternate or goes back in time is
refused (R193, D15), any other event is taken (R194). -/
def execEdge (lvl : Level) (ts el : Nat) (s : State) : Host.Outcome State Fault Refusal :=
  accept s fun s =>
    if edgeFollows s.dec.last_edge lvl ts then .next (returnWith .success (takeEdge lvl ts el s))
    else .refused .eventsIllFormed

/-- win.START_H (R104, R196). -/
def execWinStartH (el : Nat) (s : State) : Host.Outcome State Fault Refusal :=
  accept s fun s => .next (returnWith (.verdict (inStartH el)) s)

/-- win.START_L (R104, R198). -/
def execWinStartL (el : Nat) (s : State) : Host.Outcome State Fault Refusal :=
  accept s fun s => .next (returnWith (.verdict (inStartL el)) s)

/-- win.LONG (R104, R203, R205). -/
def execWinLong (el : Nat) (s : State) : Host.Outcome State Fault Refusal :=
  accept s fun s => .next (returnWith (.verdict (inLong el)) s)

/-- win.SHORT (R104, R203, R205). -/
def execWinShort (el : Nat) (s : State) : Host.Outcome State Fault Refusal :=
  accept s fun s => .next (returnWith (.verdict (inShort el)) s)

end Sys2Proof.Machine
end

