-- ==== Sys2Proof/Machine/Ookenc.lean ====
section
/-! DEFINITION. The meanings of OOKENC's operations (spec/41_ook_encoder.md) and of the rows that are
encodings on its line (spec/30_encoding.md R98, R100; log entry 1). -/

namespace Sys2Proof.Machine

/-- What needs the line driven is refused while it is not (R171). -/
def onDrivenLine (f : State → State) (s : State) : Host.Outcome State Fault Refusal :=
  match s.enc.tx_mode with
  | .hiz => .refused .lineNotDriven
  | .driven => .next (returnWith .success (f s))

/-- PULSE lvl, d (R171). -/
def execPulse (lvl : Level) (d : Nat) (s : State) : Host.Outcome State Fault Refusal :=
  accept s fun s => if d = 0 then .refused .pulseTooShort else onDrivenLine (drive (lvl, d)) s

/-- TXFRAME p (R173). -/
def execTxframe (p : Packet) (s : State) : Host.Outcome State Fault Refusal :=
  accept s (onDrivenLine (sendFrame p))

/-- TXBURST p: on a line that is not driven its first frame is refused (R175, R171). -/
def execTxburst (p : Packet) (s : State) : Host.Outcome State Fault Refusal :=
  accept s fun s => run (burstCallActs p) s

/-- TXEN (R177). -/
def execTxen (s : State) : Host.Outcome State Fault Refusal :=
  accept s fun s => .next (returnWith .success (lineOn s))

/-- TXDIS (R177). -/
def execTxdis (s : State) : Host.Outcome State Fault Refusal :=
  accept s fun s => .next (returnWith .success (lineOff s))

/-- fmt.PACKET: the forty bit cells of a packet, bit 39 first (R98, R101). -/
def execFmtPacket (serial : Serial) (channel code : Byte) (s : State) : Host.Outcome State Fault Refusal :=
  accept s (onDrivenLine (sendCells (packet serial channel code)))

/-- sym.HEADER (R100). -/
def execSymHeader (s : State) : Host.Outcome State Fault Refusal :=
  accept s (onDrivenLine (driveAll header))

/-- sym.START (R100). -/
def execSymStart (s : State) : Host.Outcome State Fault Refusal :=
  accept s (onDrivenLine (driveAll startMarker))

/-- sym.BIT1 (R100). -/
def execSymBit1 (s : State) : Host.Outcome State Fault Refusal :=
  accept s (onDrivenLine (driveAll (bitCell true)))

/-- sym.BIT0 (R100). -/
def execSymBit0 (s : State) : Host.Outcome State Fault Refusal :=
  accept s (onDrivenLine (driveAll (bitCell false)))

end Sys2Proof.Machine
end

