-- ==== Sys2Proof/Machine/Session.lean ====
section
/-! DEFINITION. The meanings of SESSION's operations (spec/43_session.md), of the pseudo-operations
(spec/30_encoding.md R109) and of the command codes (R99; log entry 1). -/

namespace Sys2Proof.Machine

/-- SETSER v (R230). -/
def execSetser (v : Serial) (s : State) : Host.Outcome State Fault Refusal :=
  accept s fun s => .next (returnWith .success { s with ses.serial := some v })

/-- SETCH v (R231). -/
def execSetch (v : Byte) (s : State) : Host.Outcome State Fault Refusal :=
  accept s fun s => .next (returnWith .success { s with ses.channel := v })

/-- SEND c1 or SEND c1, c2 (R233). -/
def execSend (c1 : Byte) (c2 : Option Byte) (s : State) : Host.Outcome State Fault Refusal :=
  accept s (sendCodes c1 c2)

/-- SNIFF (R238). -/
def execSniff (s : State) : Host.Outcome State Fault Refusal :=
  accept s fun s => run (sniffActs s.cfg) s

/-- STARTUP (R240). -/
def execStartup (s : State) : Host.Outcome State Fault Refusal :=
  accept s fun s => run (startupActs s.cfg) s

/-- UP: SEND 0x11, 0x1E (R109). -/
def execUp (s : State) : Host.Outcome State Fault Refusal :=
  accept s (sendCodes CODE_UP_PRESS (some CODE_UP_RELEASE))

/-- DOWN: SEND CODE_DOWN_PRESS, CODE_DOWN_RELEASE (R109). -/
def execDown (s : State) : Host.Outcome State Fault Refusal :=
  accept s (sendCodes s.cfg.code_down_press (some s.cfg.code_down_release))

/-- STOP: SEND CODE_STOP (R109). -/
def execStop (s : State) : Host.Outcome State Fault Refusal :=
  accept s (sendCodes s.cfg.code_stop none)

/-- code.UP_PRESS: the logical command of the code 0x11 (R99, log entry 1). -/
def execCodeUpPress (s : State) : Host.Outcome State Fault Refusal :=
  accept s (sendCodes CODE_UP_PRESS none)

/-- code.UP_RELEASE: the logical command of the code 0x1E (R99, log entry 1). -/
def execCodeUpRelease (s : State) : Host.Outcome State Fault Refusal :=
  accept s (sendCodes CODE_UP_RELEASE none)

/-- code.DOWN_PRESS: the logical command of the code CODE_DOWN_PRESS (R99, log entry 1). -/
def execCodeDownPress (s : State) : Host.Outcome State Fault Refusal :=
  accept s (sendCodes s.cfg.code_down_press none)

/-- code.DOWN_RELEASE: the logical command of the code CODE_DOWN_RELEASE (R99, log entry 1). -/
def execCodeDownRelease (s : State) : Host.Outcome State Fault Refusal :=
  accept s (sendCodes s.cfg.code_down_release none)

/-- code.STOP: the logical command of the code CODE_STOP (R99, log entry 1). -/
def execCodeStop (s : State) : Host.Outcome State Fault Refusal :=
  accept s (sendCodes s.cfg.code_stop none)

end Sys2Proof.Machine
end

