-- ==== Sys2Proof/Machine/Dispatch.lean ====
section
/-! DEFINITION. The dispatch: one arm per instruction, each a call of that instruction's meaning. -/

namespace Sys2Proof.Machine

def exec (i : Instr) (s : State) : Host.Outcome State Fault Refusal :=
  match i with
  | .init => Sys2Proof.Machine.execInit s
  | .exec st => Sys2Proof.Machine.execExec st s
  | .read r => Sys2Proof.Machine.execRead r s
  | .write r b => Sys2Proof.Machine.execWrite r b s
  | .wburst r bs => Sys2Proof.Machine.execWburst r bs s
  | .pfreq mhz => Sys2Proof.Machine.execPfreq mhz s
  | .pulse lvl d => Sys2Proof.Machine.execPulse lvl d s
  | .txframe p => Sys2Proof.Machine.execTxframe p s
  | .txburst p => Sys2Proof.Machine.execTxburst p s
  | .txen => Sys2Proof.Machine.execTxen s
  | .txdis => Sys2Proof.Machine.execTxdis s
  | .decreset => Sys2Proof.Machine.execDecreset s
  | .poll => Sys2Proof.Machine.execPoll s
  | .edge lvl ts el => Sys2Proof.Machine.execEdge lvl ts el s
  | .setser v => Sys2Proof.Machine.execSetser v s
  | .setch v => Sys2Proof.Machine.execSetch v s
  | .send c1 c2 => Sys2Proof.Machine.execSend c1 c2 s
  | .sniff => Sys2Proof.Machine.execSniff s
  | .startup => Sys2Proof.Machine.execStartup s
  | .up => Sys2Proof.Machine.execUp s
  | .down => Sys2Proof.Machine.execDown s
  | .stop => Sys2Proof.Machine.execStop s
  | .fmtS st => Sys2Proof.Machine.execFmtS st s
  | .fmtHRead r => Sys2Proof.Machine.execFmtHRead r s
  | .fmtHWrite r => Sys2Proof.Machine.execFmtHWrite r s
  | .fmtD b => Sys2Proof.Machine.execFmtD b s
  | .fmtFreq w => Sys2Proof.Machine.execFmtFreq w s
  | .fmtPacket serial channel code => Sys2Proof.Machine.execFmtPacket serial channel code s
  | .codeUpPress => Sys2Proof.Machine.execCodeUpPress s
  | .codeUpRelease => Sys2Proof.Machine.execCodeUpRelease s
  | .codeDownPress => Sys2Proof.Machine.execCodeDownPress s
  | .codeDownRelease => Sys2Proof.Machine.execCodeDownRelease s
  | .codeStop => Sys2Proof.Machine.execCodeStop s
  | .symHeader => Sys2Proof.Machine.execSymHeader s
  | .symStart => Sys2Proof.Machine.execSymStart s
  | .symBit1 => Sys2Proof.Machine.execSymBit1 s
  | .symBit0 => Sys2Proof.Machine.execSymBit0 s
  | .winStartH el => Sys2Proof.Machine.execWinStartH el s
  | .winStartL el => Sys2Proof.Machine.execWinStartL el s
  | .winLong el => Sys2Proof.Machine.execWinLong el s
  | .winShort el => Sys2Proof.Machine.execWinShort el s

end Sys2Proof.Machine
end

