-- ==== Sys2Proof/Machine/Calls.lean ====
section
/-! DEFINITION. What a call does, action by action, and how it begins (spec/10_state.md R23; log entry 8). -/

namespace Sys2Proof.Machine

/-- The command codes an instruction sends: SEND's operands, the expansions of R109, and a command code
by itself (R99; log entry 1). -/
def codesOf (c : Config) : Instr → Option (Byte × Option Byte)
  | .send c1 c2 => some (c1, c2)
  | .up => some (0x11, some 0x1E)
  | .down => some (c.code_down_press, some c.code_down_release)
  | .stop => some (c.code_stop, none)
  | .codeUpPress => some (0x11, none)
  | .codeUpRelease => some (0x1E, none)
  | .codeDownPress => some (c.code_down_press, none)
  | .codeDownRelease => some (c.code_down_release, none)
  | .codeStop => some (c.code_stop, none)
  | _ => none

/-- What an instruction does that takes more than one action of R23 and is no SEND. -/
def busActs (c : Config) : Instr → Option (List Act)
  | .exec st => some (execActs c st)
  | .read r => some (readCallActs c r)
  | .write r b => some (writeCallActs c r [b])
  | .wburst r bs => some (writeCallActs c r bs)
  | .pfreq m => some (pfreqCallActs c m)
  | .fmtFreq w => some (freqCallActs c w)
  | .txburst p => some (burstCallActs p)
  | .sniff => some (sniffActs c)
  | .startup => some (startupActs c)
  | _ => none

/-- What an instruction does that takes more than one action of R23, where its gate lets it begin. -/
def callActs (s : State) (i : Instr) : Option (List Act) :=
  match codesOf s.cfg i, s.ses.serial with
  | some (c1, c2), some v =>
    some (sendActs s.cfg (packet v s.ses.channel c1) (c2.map (packet v s.ses.channel)))
  | some _, none => none
  | none, _ => busActs s.cfg i

/-- A call begins: with its first action, or with the whole of it if it has one action only.  The actions of the
others lead to what exec answers (R23, log entry 8). -/
def startCall (i : Instr) (s : State) : Host.Outcome State Fault Refusal :=
  match callActs s i with
  | some k => accept s fun s => tick { s with host.pend := k }
  | none => exec i s

end Sys2Proof.Machine
end

