-- ==== Sys2Proof/WellFormed.lean ====
section
/-! DEFINITION. The well-formed instructions.  Operand types carry almost every bound (a serial has 24
bits, R230; a channel 8, R231; a name is a member of its enumeration, R62); two bounds are checks. -/

namespace Sys2Proof

/-- A frequency is a rational: its denominator is not 0 (R143). -/
def Mhz.wellFormed (m : Mhz) : Bool := m.den != 0

/-- The checks on an instruction: PULSE lasts at least 1 µs (R171), and PFREQ's operand is a
rational (R143).  A negative frequency is well-formed and PFREQ refuses it (R145). -/
def Instr.wellFormed : Instr → Bool
  | .pulse _ d => 1 ≤ d
  | .pfreq mhz => mhz.wellFormed
  | .init | .exec _ | .read _ | .write _ _ | .wburst _ _ => true
  | .txframe _ | .txburst _ | .txen | .txdis => true
  | .decreset | .poll | .edge _ _ _ => true
  | .setser _ | .setch _ | .send _ _ | .sniff | .startup | .up | .down | .stop => true
  | .fmtS _ | .fmtHRead _ | .fmtHWrite _ | .fmtD _ | .fmtFreq _ | .fmtPacket _ _ _ => true
  | .codeUpPress | .codeUpRelease | .codeDownPress | .codeDownRelease | .codeStop => true
  | .symHeader | .symStart | .symBit1 | .symBit0 => true
  | .winStartH _ | .winStartL _ | .winLong _ | .winShort _ => true

end Sys2Proof
end

