-- ==== Sys2Proof/Decode.lean ====
section
/-! DEFINITION. The bytes of a host call: the decoder, total on any bytes and rejecting by name, and
after it the encoder.  The spec gives calls a written form only (spec/30_encoding.md R108); this byte
form is the model's (log entry 2), but for the two rows the opcode table gives fixed bits, whose
opcode is that byte (0x11 and 0x1E, R99). -/

namespace Sys2Proof

/-- What a decoder of one item answers: the item and the bytes after it, or why there is none. -/
abbrev Parsed (α : Type) := Except DecodeError (α × List Byte)

/-- Goes on with the item just read and the bytes after it. -/
def Parsed.andThen {α β : Type} (r : Parsed α) (f : α → List Byte → Parsed β) : Parsed β :=
  match r with
  | .ok (a, bs) => f a bs
  | .error e => .error e

/-- The opcode byte of a row: 0x40 and the row's place in the table, but for the two command codes
whose bits the table fixes (R99). -/
def Op.code : Op → Byte
  | .init => 0x40
  | .exec => 0x41
  | .read => 0x42
  | .write => 0x43
  | .wburst => 0x44
  | .pfreq => 0x45
  | .pulse => 0x46
  | .txframe => 0x47
  | .txburst => 0x48
  | .txen => 0x49
  | .txdis => 0x4A
  | .decreset => 0x4B
  | .poll => 0x4C
  | .edge => 0x4D
  | .setser => 0x4E
  | .setch => 0x4F
  | .send => 0x50
  | .sniff => 0x51
  | .startup => 0x52
  | .up => 0x53
  | .down => 0x54
  | .stop => 0x55
  | .fmtS => 0x56
  | .fmtHRead => 0x57
  | .fmtHWrite => 0x58
  | .fmtD => 0x59
  | .fmtFreq => 0x5A
  | .fmtPacket => 0x5B
  | .codeUpPress => 0x11
  | .codeUpRelease => 0x1E
  | .codeDownPress => 0x5E
  | .codeDownRelease => 0x5F
  | .codeStop => 0x60
  | .symHeader => 0x61
  | .symStart => 0x62
  | .symBit1 => 0x63
  | .symBit0 => 0x64
  | .winStartH => 0x65
  | .winStartL => 0x66
  | .winLong => 0x67
  | .winShort => 0x68

/-- The row an opcode byte stands for. -/
def Op.ofCode (b : Byte) : Option Op :=
  match b.toNat with
  | 0x40 => some .init
  | 0x41 => some .exec
  | 0x42 => some .read
  | 0x43 => some .write
  | 0x44 => some .wburst
  | 0x45 => some .pfreq
  | 0x46 => some .pulse
  | 0x47 => some .txframe
  | 0x48 => some .txburst
  | 0x49 => some .txen
  | 0x4A => some .txdis
  | 0x4B => some .decreset
  | 0x4C => some .poll
  | 0x4D => some .edge
  | 0x4E => some .setser
  | 0x4F => some .setch
  | 0x50 => some .send
  | 0x51 => some .sniff
  | 0x52 => some .startup
  | 0x53 => some .up
  | 0x54 => some .down
  | 0x55 => some .stop
  | 0x56 => some .fmtS
  | 0x57 => some .fmtHRead
  | 0x58 => some .fmtHWrite
  | 0x59 => some .fmtD
  | 0x5A => some .fmtFreq
  | 0x5B => some .fmtPacket
  | 0x11 => some .codeUpPress
  | 0x1E => some .codeUpRelease
  | 0x5E => some .codeDownPress
  | 0x5F => some .codeDownRelease
  | 0x60 => some .codeStop
  | 0x61 => some .symHeader
  | 0x62 => some .symStart
  | 0x63 => some .symBit1
  | 0x64 => some .symBit0
  | 0x65 => some .winStartH
  | 0x66 => some .winStartL
  | 0x67 => some .winLong
  | 0x68 => some .winShort
  | _ => none

/-- One byte. -/
def takeByte : List Byte → Parsed Byte
  | [] => .error .truncated
  | b :: bs => .ok (b, bs)

/-- A natural number of any size: base 128, lowest digit first, the top bit of a byte saying that
more follow. -/
def takeNat : List Byte → Parsed Nat
  | [] => .error .truncated
  | b :: bs =>
    if b.toNat < 128 then .ok (b.toNat, bs)
    else (takeNat bs).andThen fun n bs => .ok ((b.toNat - 128) + 128 * n, bs)

/-- An integer: a sign byte (0 for non-negative, 1 for negative) and its absolute value. -/
def takeInt (bs : List Byte) : Parsed Int :=
  (takeByte bs).andThen fun s bs => (takeNat bs).andThen fun n bs =>
    if s = 0 then .ok ((n : Int), bs)
    else if s = 1 then .ok (-(n : Int), bs)
    else .error .badSign

/-- A 24-bit value, high byte first. -/
def take24 (bs : List Byte) : Parsed (BitVec 24) :=
  (takeByte bs).andThen fun a bs => (takeByte bs).andThen fun b bs => (takeByte bs).andThen fun c bs =>
    .ok ((a ++ b ++ c : BitVec 24), bs)

/-- A 40-bit value, high byte first. -/
def take40 (bs : List Byte) : Parsed (BitVec 40) :=
  (take24 bs).andThen fun a bs => (takeByte bs).andThen fun b bs => (takeByte bs).andThen fun c bs =>
    .ok ((a ++ b ++ c : BitVec 40), bs)

/-- A level: 0 is LOW, 1 is HIGH. -/
def takeLevel (bs : List Byte) : Parsed Level :=
  (takeByte bs).andThen fun b bs =>
    if b = 0 then .ok (.low, bs) else if b = 1 then .ok (.high, bs) else .error .badLevel

/-- A strobe name. -/
def takeStrobe (bs : List Byte) : Parsed Strobe :=
  (takeByte bs).andThen fun t bs =>
    match t.toNat with
    | 0 => .ok (.reset, bs)
    | 1 => .ok (.idle, bs)
    | 2 => .ok (.receiveMode, bs)
    | 3 => .ok (.transmitMode, bs)
    | 4 => .ok (.calibrate, bs)
    | 5 => .ok (.flush, bs)
    | 6 => .ok (.noOp, bs)
    | 7 => (takeNat bs).andThen fun n bs => .ok (.other n, bs)
    | _ => .error .badStrobe

/-- A register name. -/
def takeReg (bs : List Byte) : Parsed Reg :=
  (takeByte bs).andThen fun t bs =>
    match t.toNat with
    | 0 => .ok (.freqHi, bs)
    | 1 => .ok (.freqMid, bs)
    | 2 => .ok (.freqLo, bs)
    | 3 => .ok (.paTable, bs)
    | 4 => .ok (.fifo, bs)
    | 5 => (takeNat bs).andThen fun n bs => .ok (.identity n, bs)
    | 6 => (takeNat bs).andThen fun n bs => .ok (.config n, bs)
    | _ => .error .badRegister

/-- A buffer of any length: 1 before each byte, 0 after the last. -/
def takeBytes : List Byte → Parsed (List Byte)
  | [] => .error .truncated
  | [m] => if m = 0 then .ok ([], []) else if m = 1 then .error .truncated else .error .badMarker
  | m :: b :: bs =>
    if m = 0 then .ok ([], b :: bs)
    else if m = 1 then (takeBytes bs).andThen fun l bs => .ok (b :: l, bs)
    else .error .badMarker

/-- An optional byte: 0, or 1 and the byte. -/
def takeOption (bs : List Byte) : Parsed (Option Byte) :=
  (takeByte bs).andThen fun m bs =>
    if m = 0 then .ok (none, bs)
    else if m = 1 then (takeByte bs).andThen fun b bs => .ok (some b, bs)
    else .error .badMarker

/-- A frequency as a rational (R143): numerator, denominator, the latter not 0. -/
def takeMhz (bs : List Byte) : Parsed Mhz :=
  (takeInt bs).andThen fun n bs => (takeNat bs).andThen fun d bs =>
    if d = 0 then .error .zeroDenominator else .ok (⟨n, d⟩, bs)

/-- A duration of at least 1 µs (R171). -/
def takeDuration (bs : List Byte) : Parsed Nat :=
  (takeNat bs).andThen fun d bs => if d = 0 then .error .zeroDuration else .ok (d, bs)

/-- The operands of a row. -/
def decodeOperands (op : Op) (bs : List Byte) : Parsed Instr :=
  match op with
  | .init => .ok (.init, bs)
  | .exec => (takeStrobe bs).andThen fun s bs => .ok (.exec s, bs)
  | .read => (takeReg bs).andThen fun r bs => .ok (.read r, bs)
  | .write => (takeReg bs).andThen fun r bs => (takeByte bs).andThen fun b bs => .ok (.write r b, bs)
  | .wburst => (takeReg bs).andThen fun r bs => (takeBytes bs).andThen fun l bs => .ok (.wburst r l, bs)
  | .pfreq => (takeMhz bs).andThen fun m bs => .ok (.pfreq m, bs)
  | .pulse => (takeLevel bs).andThen fun l bs => (takeDuration bs).andThen fun d bs => .ok (.pulse l d, bs)
  | .txframe => (take40 bs).andThen fun p bs => .ok (.txframe p, bs)
  | .txburst => (take40 bs).andThen fun p bs => .ok (.txburst p, bs)
  | .txen => .ok (.txen, bs)
  | .txdis => .ok (.txdis, bs)
  | .decreset => .ok (.decreset, bs)
  | .poll => .ok (.poll, bs)
  | .edge => (takeLevel bs).andThen fun l bs => (takeNat bs).andThen fun t bs => (takeNat bs).andThen fun e bs =>
      .ok (.edge l t e, bs)
  | .setser => (take24 bs).andThen fun v bs => .ok (.setser v, bs)
  | .setch => (takeByte bs).andThen fun v bs => .ok (.setch v, bs)
  | .send => (takeByte bs).andThen fun c bs => (takeOption bs).andThen fun o bs => .ok (.send c o, bs)
  | .sniff => .ok (.sniff, bs)
  | .startup => .ok (.startup, bs)
  | .up => .ok (.up, bs)
  | .down => .ok (.down, bs)
  | .stop => .ok (.stop, bs)
  | .fmtS => (takeStrobe bs).andThen fun s bs => .ok (.fmtS s, bs)
  | .fmtHRead => (takeReg bs).andThen fun r bs => .ok (.fmtHRead r, bs)
  | .fmtHWrite => (takeReg bs).andThen fun r bs => .ok (.fmtHWrite r, bs)
  | .fmtD => (takeByte bs).andThen fun b bs => .ok (.fmtD b, bs)
  | .fmtFreq => (take24 bs).andThen fun w bs => .ok (.fmtFreq w, bs)
  | .fmtPacket => (take24 bs).andThen fun s bs => (takeByte bs).andThen fun c bs => (takeByte bs).andThen fun d bs =>
      .ok (.fmtPacket s c d, bs)
  | .codeUpPress => .ok (.codeUpPress, bs)
  | .codeUpRelease => .ok (.codeUpRelease, bs)
  | .codeDownPress => .ok (.codeDownPress, bs)
  | .codeDownRelease => .ok (.codeDownRelease, bs)
  | .codeStop => .ok (.codeStop, bs)
  | .symHeader => .ok (.symHeader, bs)
  | .symStart => .ok (.symStart, bs)
  | .symBit1 => .ok (.symBit1, bs)
  | .symBit0 => .ok (.symBit0, bs)
  | .winStartH => (takeNat bs).andThen fun e bs => .ok (.winStartH e, bs)
  | .winStartL => (takeNat bs).andThen fun e bs => .ok (.winStartL e, bs)
  | .winLong => (takeNat bs).andThen fun e bs => .ok (.winLong e, bs)
  | .winShort => (takeNat bs).andThen fun e bs => .ok (.winShort e, bs)

/-- The call at the head of the bytes, and the bytes after it. -/
def decode (bs : List Byte) : Parsed Instr :=
  (takeByte bs).andThen fun b bs =>
    match Op.ofCode b with
    | some op => decodeOperands op bs
    | none => .error .unknownOpcode

/-! ## The encoder -/

/-- The digits of a natural number, as `takeNat` reads them; the first argument bounds their count. -/
def natDigits : Nat → Nat → List Byte
  | 0, n => [BitVec.ofNat 8 (n % 128)]
  | fuel + 1, n =>
    if n < 128 then [BitVec.ofNat 8 n]
    else BitVec.ofNat 8 (128 + n % 128) :: natDigits fuel (n / 128)

/-- A natural number as `takeNat` reads it; a number has fewer digits than its value. -/
def putNat (n : Nat) : List Byte := natDigits n n

/-- An integer as `takeInt` reads it. -/
def putInt (z : Int) : List Byte := (if z < 0 then 1 else 0) :: putNat z.natAbs

/-- A 24-bit value as `take24` reads it. -/
def put24 (v : BitVec 24) : List Byte := [v.extractLsb' 16 8, v.extractLsb' 8 8, v.extractLsb' 0 8]

/-- A 40-bit value as `take40` reads it. -/
def put40 (v : BitVec 40) : List Byte :=
  put24 (v.extractLsb' 16 24) ++ [v.extractLsb' 8 8, v.extractLsb' 0 8]

/-- A level as `takeLevel` reads it. -/
def putLevel : Level → List Byte
  | .low => [0]
  | .high => [1]

/-- A strobe name as `takeStrobe` reads it. -/
def putStrobe : Strobe → List Byte
  | .reset => [0]
  | .idle => [1]
  | .receiveMode => [2]
  | .transmitMode => [3]
  | .calibrate => [4]
  | .flush => [5]
  | .noOp => [6]
  | .other n => 7 :: putNat n

/-- A register name as `takeReg` reads it. -/
def putReg : Reg → List Byte
  | .freqHi => [0]
  | .freqMid => [1]
  | .freqLo => [2]
  | .paTable => [3]
  | .fifo => [4]
  | .identity n => 5 :: putNat n
  | .config n => 6 :: putNat n

/-- A buffer as `takeBytes` reads it. -/
def putBytes : List Byte → List Byte
  | [] => [0]
  | b :: bs => 1 :: b :: putBytes bs

/-- An optional byte as `takeOption` reads it. -/
def putOption : Option Byte → List Byte
  | none => [0]
  | some b => [1, b]

/-- The row of an instruction. -/
def Instr.op : Instr → Op
  | .init => .init
  | .exec _ => .exec
  | .read _ => .read
  | .write _ _ => .write
  | .wburst _ _ => .wburst
  | .pfreq _ => .pfreq
  | .pulse _ _ => .pulse
  | .txframe _ => .txframe
  | .txburst _ => .txburst
  | .txen => .txen
  | .txdis => .txdis
  | .decreset => .decreset
  | .poll => .poll
  | .edge _ _ _ => .edge
  | .setser _ => .setser
  | .setch _ => .setch
  | .send _ _ => .send
  | .sniff => .sniff
  | .startup => .startup
  | .up => .up
  | .down => .down
  | .stop => .stop
  | .fmtS _ => .fmtS
  | .fmtHRead _ => .fmtHRead
  | .fmtHWrite _ => .fmtHWrite
  | .fmtD _ => .fmtD
  | .fmtFreq _ => .fmtFreq
  | .fmtPacket _ _ _ => .fmtPacket
  | .codeUpPress => .codeUpPress
  | .codeUpRelease => .codeUpRelease
  | .codeDownPress => .codeDownPress
  | .codeDownRelease => .codeDownRelease
  | .codeStop => .codeStop
  | .symHeader => .symHeader
  | .symStart => .symStart
  | .symBit1 => .symBit1
  | .symBit0 => .symBit0
  | .winStartH _ => .winStartH
  | .winStartL _ => .winStartL
  | .winLong _ => .winLong
  | .winShort _ => .winShort

/-- The operand bytes of an instruction. -/
def Instr.operands : Instr → List Byte
  | .exec s | .fmtS s => putStrobe s
  | .read r | .fmtHRead r | .fmtHWrite r => putReg r
  | .write r b => putReg r ++ [b]
  | .wburst r bs => putReg r ++ putBytes bs
  | .pfreq m => putInt m.num ++ putNat m.den
  | .pulse l d => putLevel l ++ putNat d
  | .txframe p | .txburst p => put40 p
  | .edge l ts el => putLevel l ++ putNat ts ++ putNat el
  | .setser v => put24 v
  | .setch v => [v]
  | .send c o => c :: putOption o
  | .fmtD b => [b]
  | .fmtFreq w => put24 w
  | .fmtPacket s c d => put24 s ++ [c, d]
  | .winStartH el | .winStartL el | .winLong el | .winShort el => putNat el
  | .init | .txen | .txdis | .decreset | .poll | .sniff | .startup => []
  | .up | .down | .stop => []
  | .codeUpPress | .codeUpRelease | .codeDownPress | .codeDownRelease | .codeStop => []
  | .symHeader | .symStart | .symBit1 | .symBit0 => []

/-- The bytes of a call. -/
def encode (i : Instr) : List Byte := i.op.code :: i.operands

/-! ## The table's words -/

/-- The bytes of a table word: bits 7:0 first, as many bytes as the row has, and then bytes of zero,
more than any call of zero operands needs. -/
def tableWordBytes (nbits w : Nat) : List Byte :=
  (List.range ((nbits + 7) / 8)).map (fun k => BitVec.ofNat 8 (w / 2 ^ (8 * k))) ++ List.replicate 8 0

/-- The instruction the decoder reads from a table word (log entry 2). -/
def decodeTableWord (nbits w : Nat) : Option Instr :=
  match decode (tableWordBytes nbits w) with
  | .ok (i, _) => some i
  | .error _ => none

end Sys2Proof
end

