-- ==== Sys2Proof/Machine/Fetch.lean ====
section
/-! DEFINITION. Taking the host's next call from the bytes it has put forward (log entries 2, 3). -/

namespace Sys2Proof.Machine

/-- What the host puts forward. -/
inductive Fetched
  /-- No call. -/
  | nothing
  /-- Bytes that stand for no call. -/
  | bad (e : DecodeError)
  /-- A call, in the state whose call bytes are those after it. -/
  | call (i : Instr) (s : State)

/-- The next call. -/
def fetch (s : State) : Fetched :=
  match s.host.calls with
  | [] => .nothing
  | b :: bs =>
    match decode (b :: bs) with
    | .error e => .bad e
    | .ok (i, rest) => .call i { s with host.calls := rest }

/-- A table word put where the next call is fetched, no call being in flight (log entry 3). -/
def putWord (s : State) (nbits w : Nat) : State :=
  { s with host.calls := tableWordBytes nbits w, host.pend := [] }

end Sys2Proof.Machine
end

