-- ==== Sys2Proof/Machine/Step.lean ====
section
/-! DEFINITION. One step of the block (spec/10_state.md R23; log entry 8): a halted block has none; of a call
in flight the next action is done; otherwise the host's next call, if there is one, is taken and begins. -/

namespace Sys2Proof.Machine

def step (s : State) : Host.Outcome State Fault Refusal :=
  match s.ses.sess_phase, s.host.pend with
  | .halted, _ => .refused .halted
  | _, _ :: _ => tick s
  | _, [] =>
    match fetch s with
    | .nothing => .next s
    | .bad e => .refused (.undecodable e)
    | .call i s' => startCall i s'

/-- The state with a table word put where the next call is fetched. -/
def State.withFetchWord (s : State) (nbits w : Nat) : State := putWord s nbits w

end Sys2Proof.Machine
end

