-- ==== Sys2Proof/Safety.lean ====
section
/-! DEFINITION. The terms claims use: rest and a run that ended well (spec/70_reset_and_hazards.md
R314), when a call can begin, what a transaction leaves in the histories (spec/30_encoding.md R95),
the edge events of a line (R103), and the invariants of a step. -/

namespace Sys2Proof.Machine

/-! ## Runs -/

/-- `n` steps. -/
def steps : Nat → State → Host.Outcome State Fault Refusal
  | 0, s => .next s
  | n + 1, s =>
    match step s with
    | .next s' => steps n s'
    | .fault f => .fault f
    | .refused r => .refused r

/-! ## Rest -/

/-- The block is at rest (R314). -/
def AtRest (s : State) : Prop :=
  s.ses.sess_phase = .idle ∧ s.drv.drv_phase = .idle ∧ s.drv.sel = .released ∧ s.enc.seg_idx = none ∧
    s.enc.tx_mode = .hiz

/-- A run ended well: every call returned and the block is at rest (R314, D29). -/
def EndedWell (s : State) : Prop := s.host.pend = [] ∧ AtRest s

/-! ## When a call can begin -/

/-- A call is accepted: the block is not halted and no call and no transaction is in flight (R271, R147, R301). -/
def CanCall (s : State) : Prop := s.ses.sess_phase = .idle ∧ s.host.pend = [] ∧ s.drv.drv_phase = .idle

/-- A BUSDRV operation other than INIT is accepted (R147, R300, R92). -/
def BusUsable (s : State) : Prop :=
  s.drv.drv_init = true ∧ s.drv.drv_phase = .idle ∧ configOk s.cfg = true

/-- RDY as it will be at the sample after `k` others. -/
def rdyAhead (s : State) (k : Nat) : Level := s.env.rdy.ahead Config.freeRdy k

/-- The byte SDI will give during the byte transfer after `k` others. -/
def sdiAhead (s : State) (k : Nat) : Byte := s.env.sdi.ahead Config.freeSdi k

/-- The next sample of RXD and of the time passed. -/
def rxNext (s : State) : Sample := s.env.rx.ahead Config.freeRx 0

/-- The next reading of the cancellation predicate. -/
def cancelNext (s : State) : Bool := s.env.cancel.ahead Config.freeCancel 0

/-- The next `n` samples of RDY are LOW (R302: a premise of claims, never built into the step). -/
def ReadyFor (n : Nat) (s : State) : Prop := ∀ k < n, rdyAhead s k = .low

/-- A feed after `n` samples. -/
def Feed.after {α : Type} (free : Nat → α) : Nat → Feed α → Feed α
  | 0, f => f
  | n + 1, f => Feed.after free n (f.draw free).2

/-! ## Bus transactions -/

/-- What data byte `k` of a transaction leaves in `bus_log`, `v` being the byte SDI gives (R95). -/
def dataEvent (x : Txn) (k : Nat) (v : Byte) : Option BusEvent :=
  match x with
  | .strobe _ => none
  | .read _ => if k = 0 then some (.rx v) else none
  | .write _ bs => bs[k]?.map .tx

/-! ## What transactions leave in `bus_log` (R95) -/

/-- A strobe transaction. -/
def strobeLog (b : Byte) : List BusEvent := [.selOn, .rdy, .tx b, .rdy, .selOff]

/-- A read transaction. -/
def readLog (h v : Byte) : List BusEvent := [.selOn, .rdy, .tx h, .rx v, .selOff]

/-- A write or burst transaction. -/
def writeLog (h : Byte) (bs : List Byte) : List BusEvent :=
  BusEvent.selOn :: BusEvent.rdy :: BusEvent.tx h :: (bs.map BusEvent.tx ++ [BusEvent.selOff])

/-- What one byte does to the clock and data lines: for each bit from 7 down, the data is set up, the
clock goes LOW and back to HIGH (R94). -/
def byteLines (b : Byte) : List LineEvent :=
  [7, 6, 5, 4, 3, 2, 1, 0].flatMap fun k => [.sdo (levelOf (b.getLsbD k)), .sclk .low, .sclk .high]

/-- A frame as `tx_log` records it. -/
def segmentLog (gs : List Segment) : List (TriLevel × Nat) := gs.map fun g => (triOf g.1, g.2)

/-- `n` frames of a packet back to back (R102). -/
def framesOf (n : Nat) (p : Packet) : List Segment := (List.replicate n (frame p)).flatten

/-- How long a waveform lasts. -/
def duration (gs : List Segment) : Nat := (gs.map Prod.snd).sum

/-- What a bus transaction leaves alone: everything but the shifter, the lines, `bus_log`, `line_log`,
the samples it draws, and what the call returns. -/
def BusFrame (s t : State) : Prop :=
  t.cfg = s.cfg ∧ t.enc = s.enc ∧ t.dec = s.dec ∧ t.ses = s.ses ∧ t.drv.pin_mode = s.drv.pin_mode ∧
    t.drv.drv_init = s.drv.drv_init ∧ t.ghost.tx_log = s.ghost.tx_log ∧ t.ghost.rx_out = s.ghost.rx_out ∧
    t.env.now = s.env.now ∧ t.env.rx = s.env.rx ∧ t.env.cancel = s.env.cancel ∧
    t.host.calls = s.host.calls

/-- Select released, no transaction in flight, nothing left to do (R147). -/
def BusReleased (t : State) : Prop := t.drv.sel = .released ∧ t.drv.drv_phase = .idle ∧ t.host.pend = []

/-- Waiting for ready with select asserted: the transaction is stuck until RDY goes LOW (R132). -/
def StuckIn (p : DrvPhase) (t : State) : Prop :=
  t.drv.sel = .asserted ∧ t.drv.drv_phase = p ∧ t.host.pend ≠ [] ∧ t.host.ret = .none

/-! ## Operations of the table, grouped -/

/-- The register an instruction names. -/
def regOf : Instr → Option Reg
  | .read r | .write r _ | .wburst r _ | .fmtHRead r | .fmtHWrite r => some r
  | _ => none

/-- The strobe an instruction names. -/
def strobeOf : Instr → Option Strobe
  | .exec st | .fmtS st => some st
  | _ => none

/-- The instructions that use the bus at once and are neither INIT nor STARTUP. -/
def usesBus : Instr → Bool
  | .exec _ | .read _ | .write _ _ | .wburst _ _ | .pfreq _ => true
  | .fmtS _ | .fmtHRead _ | .fmtHWrite _ | .fmtD _ | .fmtFreq _ => true
  | _ => false

/-- The rows that put a bus byte on the wires alone (log entry 1). -/
def isBareByte : Instr → Bool
  | .fmtS _ | .fmtHRead _ | .fmtHWrite _ | .fmtD _ => true
  | _ => false

/-- The byte of a bus byte row (R91 to R93). -/
def bareByteOf (c : Config) : Instr → Option Byte
  | .fmtS st => strobeByte c st
  | .fmtHRead r => readHeader c r
  | .fmtHWrite r => writeHeader c r
  | .fmtD b => some b
  | _ => none

/-- The segments an instruction of one symbol or of a packet's cells drives (R98, R100; log entry 1). -/
def symbolOf : Instr → Option (List Segment)
  | .symHeader => some [(.low, 8796)]
  | .symStart => some [(.high, 4758), (.low, 1466)]
  | .symBit1 => some [(.high, 733), (.low, 366)]
  | .symBit0 => some [(.high, 366), (.low, 733)]
  | _ => none

/-- The accepted spans of a decoder window, least and greatest (R104). -/
def windowOf : Instr → Option (Nat × Nat × Nat)
  | .winStartH el => some (4159, 5357, el)
  | .winStartL el => some (1107, 1825, el)
  | .winLong el => some (614, 852, el)
  | .winShort el => some (247, 485, el)
  | _ => none

/-! ## STARTUP -/

/-- A STARTUP_OPS entry whose names are members and whose frequency is in range, which is what R62 and
R145 ask of it. -/
def startupOpOk (c : Config) : StartupOp → Bool
  | .strobe st => (strobeByte c st).isSome
  | .write r _ => (regAddr c r).isSome
  | .wburst r _ => (regAddr c r).isSome
  | .pfreq m => (freqWord m).isOk
  | .carrier => true
  | .powerTable => true

/-- Ready waits of a STARTUP_OPS entry. -/
def startupOpWaits : StartupOp → Nat
  | .strobe _ => 2
  | .write _ _ => 1
  | .wburst _ _ => 1
  | .pfreq _ => 3
  | .carrier => 3
  | .powerTable => 1

/-- What a STARTUP_OPS entry leaves in `bus_log`; of `PFREQ 433.92` the bytes R241 gives. -/
def startupOpLog (c : Config) : StartupOp → List BusEvent
  | .strobe st => strobeLog ((strobeByte c st).getD 0)
  | .write r b => writeLog ((writeHeader c r).getD 0) [b]
  | .wburst r bs => writeLog ((writeHeader c r).getD 0) bs
  | .pfreq m =>
    match freqWord m with
    | .ok w =>
      writeLog (c.addr_freq_hi ||| c.flag_write_burst) [freqHigh w] ++
        writeLog (c.addr_freq_mid ||| c.flag_write_burst) [freqMiddle w] ++
        writeLog (c.addr_freq_lo ||| c.flag_write_burst) [freqLow w]
    | .error _ => []
  | .carrier =>
    writeLog (c.addr_freq_hi ||| c.flag_write_burst) [0x10] ++
      writeLog (c.addr_freq_mid ||| c.flag_write_burst) [0xB0] ++
      writeLog (c.addr_freq_lo ||| c.flag_write_burst) [0x71]
  | .powerTable => writeLog (c.addr_pa_table ||| c.flag_write_burst) c.pa_table

/-- The mode the last mode strobe of STARTUP_OPS leaves, or the one before it (R30). -/
def startupMode (m : RadioMode) (ops : List StartupOp) : RadioMode :=
  ops.foldl (fun m op => match op with
    | .strobe st => (modeOf st).getD m
    | _ => m) m

/-! ## Edge events -/

/-- An edge event (R103). -/
structure EdgeEvent where
  lvl : Level
  ts : Nat
  el : Nat
deriving DecidableEq, Repr

/-- The events of a line that carries the segments from time `now` on, sampled without delay, when the
last level was `l` and the last event was at `prev` (R103): segments of one level make one span. -/
def lineEdges (l : Level) (prev now : Nat) : List Segment → List EdgeEvent
  | [] => []
  | g :: gs =>
    if g.1 = l then lineEdges l prev (now + g.2) gs
    else ⟨g.1, now, now - prev⟩ :: lineEdges g.1 now (now + g.2) gs

/-- EDGE for each event of a list in turn. -/
def takeAll : List EdgeEvent → State → Host.Outcome State Fault Refusal
  | [], s => .next s
  | e :: es, s =>
    match exec (.edge e.lvl e.ts e.el) s with
    | .next s' => takeAll es s'
    | o => o

/-! ## Invariants -/

/-- The places of a transaction (R23): WAIT2 is a strobe's only, and DATA(k) is there for each data byte. -/
def Txn.hasPlace (x : Txn) : DrvPhase → Bool
  | .idle | .wait1 | .hdr => true
  | .data k => k < x.dataBytes
  | .wait2 =>
    match x with
    | .strobe _ => true
    | _ => false

/-- BUSDRV is at a place of the transaction that is next in the call in flight, or at IDLE. -/
def inPlace (p : DrvPhase) : List Act → Bool
  | .bus x :: _ => x.hasPlace p
  | _ => p = .idle

/-- What is left of a call ends in a return to the host (R243). -/
def endsInReturn : List Act → Bool
  | [] => true
  | [a] => a = .finish || a = .answer
  | _ :: b :: k => endsInReturn (b :: k)

/-- A call in flight has its return to the host before it (R243). -/
def CallReturns (s : State) : Prop := endsInReturn s.host.pend = true

/-- One transaction at a time: BUSDRV is in the one the call in flight has come to, if in any, and select is
asserted exactly while it is in one (R69, R147, R301). -/
def OneTransaction (s : State) : Prop :=
  inPlace s.drv.drv_phase s.host.pend = true ∧ (s.drv.sel = .asserted ↔ s.drv.drv_phase ≠ .idle)

/-- Whether select is asserted after an element of `bus_log`, where the element may stand: every byte
and every completed wait lies between SEL(1) and SEL(0) (R69, R95). -/
def bracketStep : Bool → BusEvent → Option Bool
  | false, .selOn => some true
  | true, .selOff => some false
  | true, .rdy => some true
  | true, .tx _ => some true
  | true, .rx _ => some true
  | false, .resetPulse => some false
  | _, _ => none

/-- Whether select is asserted after a history, if the history is bracketed. -/
def bracketed : Bool → List BusEvent → Option Bool
  | b, [] => some b
  | b, e :: es =>
    match bracketStep b e with
    | some b' => bracketed b' es
    | none => none

/-- `bus_log` is bracketed and agrees with the select line. -/
def BusLogBracketed (s : State) : Prop :=
  OneTransaction s ∧ bracketed false s.ghost.bus_log = some (decide (s.drv.sel = .asserted))

/-- Before bit i is read the accumulator holds i bits, after it i + 1 (R13, R200, R203). -/
def AccumulatorBounded (d : Ookdec) : Prop :=
  match d.dstate with
  | .bitH i => d.acc.toNat < 2 ^ i.val
  | .bitL i => d.acc.toNat < 2 ^ (i.val + 1)
  | _ => True

/-- After INIT the lines are the bus controller's, the clock idles HIGH, and the configuration is one
with a meaning (R22, R94, R130, R92). -/
def LinesIdle (s : State) : Prop :=
  s.drv.drv_init = true → s.drv.pin_mode = .busctl ∧ s.drv.sclk = .high ∧ configOk s.cfg = true

/-- No frame is half driven between steps, and a burst counts at most five frames (R23, R25, R179). -/
def EncoderAtRest (e : Ookenc) : Prop := e.seg_idx = none ∧ e.rep_cnt ≤ REPEAT

/-- The edge detector's last time is not in the future (R193, R272). -/
def TimeOrdered (s : State) : Prop := s.dec.prev_ts ≤ s.env.now

end Sys2Proof.Machine
end

