-- ==== Sys2Proof/Certificates/Slice0/Obligations.lean ====
section
/-! DEFINITION. The statements for the provers, each formalising rules of spec/.  A statement of the
form `exec i s = .next { s with … }` says the instruction completes, what it writes, and that it
writes nothing else.  The samples of RDY, SDI, RXD and the cancellation are whatever the feeds of the
state give, listed or free. -/

open Sys2Proof Sys2Proof.Machine

/-! ## Reset, steps, encodings -/

/-- R291: what reset leaves, for every piece of state the spec gives a value; and the block does not
start doing anything by itself: with no call put forward a step changes nothing (a reading of R291 in
terms of the call bytes of log entry 3).  That `drv_phase` and `sess_phase` are IDLE are R36's rows by the
spec's decisions D12 and D23. -/
def Obligations.ResetLeavesTheSpecsValues : Prop :=
  State.reset.ses = ⟨none, 0x05, .idle, .unknown⟩ ∧ State.reset.drv.drv_init = false ∧
    State.reset.drv.drv_phase = .idle ∧ State.reset.enc.tx_mode = .hiz ∧
    State.reset.enc.seg_idx = none ∧ State.reset.dec.dstate = .invalid ∧
    State.reset.ghost.bus_log = [] ∧ State.reset.ghost.tx_log = [] ∧ State.reset.ghost.rx_out = [] ∧
    step State.reset = .next State.reset

/-- R23, R132: with no call in flight a step takes the host's next call, the call bytes being those after it
(log entries 2, 3): it is exec of it if it is one action, and else its first action; and as many steps as the
call has actions, each ready wait being one, lead to what exec answers, where the call has returned, has to wait,
or is refused (log entry 8).  Bytes that are no call are refused by name; of a call in flight the next action is
done. -/
def Obligations.StepRunsTheDecodedCall : Prop :=
  ∀ s : State, s.ses.sess_phase ≠ .halted →
    (∀ i rest, s.host.pend = [] → decode s.host.calls = .ok (i, rest) →
      let s' := { s with host.calls := rest }
      (callActs s' i = none → step s = exec i s') ∧
      (∀ k, callActs s' i = some k → CanCall s →
        step s = tick { s' with host := { s'.host with ret := .none, pend := k } }) ∧
      ∃ n, steps (n + 1) s = exec i s') ∧
    (∀ e, s.host.pend = [] → s.host.calls ≠ [] → decode s.host.calls = .error e →
      step s = .refused (.undecodable e)) ∧
    (s.host.pend = [] → s.host.calls = [] → step s = .next s) ∧
    (s.host.pend ≠ [] → step s = tick s)

/-- A few words written out by hand: the two the table fixes, and calls of every family in the model's
byte form (log entry 2). -/
def Obligations.HandWrittenWordsDecode : Prop :=
  decodeTableWord 8 0x11 = some .codeUpPress ∧ decodeTableWord 8 0x1E = some .codeUpRelease ∧
    decode [0x41, 0x03] = .ok (.exec .transmitMode, []) ∧
    decode [0x43, 0x00, 0x10] = .ok (.write .freqHi 0x10, []) ∧
    decode [0x46, 0x01, 0xDD, 0x05] = .ok (.pulse .high 733, []) ∧
    decode [0x4E, 0xA1, 0xB2, 0xC3] = .ok (.setser 0xA1B2C3, []) ∧
    decode [0x00] = .error .unknownOpcode

/-- Decoding the encoding of any well-formed instruction gives it back, with the bytes after it. -/
def Obligations.DecodeUndoesEncode : Prop :=
  ∀ (i : Instr) (rest : List Byte), i.wellFormed = true → decode (encode i ++ rest) = .ok (i, rest)

/-- The decoder answers well-formed instructions only. -/
def Obligations.DecodedCallsAreWellFormed : Prop :=
  ∀ (bs rest : List Byte) (i : Instr), decode bs = .ok (i, rest) → i.wellFormed = true

/-! ## BUSDRV -/

/-- R130: INIT puts the lines at the known idle levels, pulses select, waits out both delays, hands the
lines to the bus controller with the clock HIGH, and sets `drv_init`; it logs RESETPULSE alone.  That
select idles RELEASED is the spec's decision D33. -/
def Obligations.InitPulsesTheChip : Prop :=
  ∀ s : State, CanCall s → s.drv.drv_init = false → configOk s.cfg = true →
    exec .init s = .next { s with
      drv := { s.drv with
        sel := .released, sclk := .high, sdo := s.cfg.idle_sdo, pin_mode := .busctl, drv_init := true }
      ghost := { s.ghost with
        bus_log := s.ghost.bus_log ++ [.resetPulse]
        line_log := s.ghost.line_log ++
          [.pins .gpio, .sel .released, .sclk s.cfg.idle_sclk, .sdo s.cfg.idle_sdo, .sel .asserted,
            .delay s.cfg.t_reset_select_us, .sel .released, .delay s.cfg.t_reset_settle_us,
            .pins .busctl, .sclk .high] }
      env := { s.env with now := s.env.now + s.cfg.t_reset_select_us + s.cfg.t_reset_settle_us }
      host := { s.host with ret := .success } }

/-- R134: EXEC is `SEL(1) RDY TX(STROBE_OP(s)) RDY SEL(0)` when both waits find RDY LOW, and is stuck in
the wait that does not.  The line history shows the byte bit by bit as R94 has it.  What `sh_out`
and `sh_in` hold afterwards is the model's choice, R21 giving them no use between transactions (log entries 31,
34). -/
def Obligations.ExecRunsAStrobeTransaction : Prop :=
  ∀ (st : Strobe) (b : Byte) (s : State), CanCall s → BusUsable s → strobeByte s.cfg st = some b →
    (ReadyFor 2 s → exec (.exec st) s = .next { s with
      drv := { s.drv with
        sh_out := b, sh_in := sdiAhead s 0, sel := .released, sclk := .high
        sdo := levelOf (b.getLsbD 0), drv_phase := .idle }
      ghost := { s.ghost with
        bus_log := s.ghost.bus_log ++ strobeLog b
        line_log := s.ghost.line_log ++ ([.sel .asserted] ++ byteLines b ++ [.sel .released]) }
      env := { s.env with
        rdy := Feed.after Config.freeRdy 2 s.env.rdy, sdi := Feed.after Config.freeSdi 1 s.env.sdi }
      host := { s.host with ret := .success } }) ∧
    (rdyAhead s 0 = .high → ∃ t, exec (.exec st) s = .next t ∧ StuckIn .wait1 t ∧ BusFrame s t ∧
      t.ghost.bus_log = s.ghost.bus_log ++ [.selOn]) ∧
    (rdyAhead s 0 = .low → rdyAhead s 1 = .high → ∃ t, exec (.exec st) s = .next t ∧ StuckIn .wait2 t ∧
      BusFrame s t ∧ t.ghost.bus_log = s.ghost.bus_log ++ [.selOn, .rdy, .tx b])

/-- R136: READ sends the header with FLAG_READ_BURST, then DUMMY_TX, and returns the byte SDI gave
during it; one wait only, at which it can be stuck.  DUMMY_TX is the spec's open parameter (D9); that `sh_out`
holds it afterwards, and that `sh_in` holds the byte read until it is returned and after, is the model's choice
(log entries 31, 34). -/
def Obligations.ReadReturnsTheChipsByte : Prop :=
  ∀ (r : Reg) (a : Byte) (s : State), CanCall s → BusUsable s → regAddr s.cfg r = some a →
    (rdyAhead s 0 = .low → exec (.read r) s = .next { s with
      drv := { s.drv with
        sh_out := s.cfg.dummy_tx, sh_in := sdiAhead s 1, sel := .released, sclk := .high
        sdo := levelOf (s.cfg.dummy_tx.getLsbD 0), drv_phase := .idle }
      ghost := { s.ghost with
        bus_log := s.ghost.bus_log ++
          [.selOn, .rdy, .tx (a ||| s.cfg.flag_read_burst), .rx (sdiAhead s 1), .selOff]
        line_log := s.ghost.line_log ++
          ([.sel .asserted] ++ byteLines (a ||| s.cfg.flag_read_burst) ++ byteLines s.cfg.dummy_tx ++
            [.sel .released]) }
      env := { s.env with
        rdy := Feed.after Config.freeRdy 1 s.env.rdy, sdi := Feed.after Config.freeSdi 2 s.env.sdi }
      host := { s.host with ret := .byte (sdiAhead s 1) } }) ∧
    (rdyAhead s 0 = .high → ∃ t, exec (.read r) s = .next t ∧ StuckIn .wait1 t ∧ BusFrame s t ∧
      t.ghost.bus_log = s.ghost.bus_log ++ [.selOn])

/-- R138: WRITE sends the header with FLAG_WRITE_BURST and the data byte, with one wait only.  What `sh_out`
and `sh_in` hold afterwards is the model's choice, R21 giving them no use between transactions (log entries 31,
34). -/
def Obligations.WriteSendsHeaderAndByte : Prop :=
  ∀ (r : Reg) (a b : Byte) (s : State), CanCall s → BusUsable s → regAddr s.cfg r = some a →
    (rdyAhead s 0 = .low → exec (.write r b) s = .next { s with
      drv := { s.drv with
        sh_out := b, sh_in := sdiAhead s 1, sel := .released, sclk := .high
        sdo := levelOf (b.getLsbD 0), drv_phase := .idle }
      ghost := { s.ghost with
        bus_log := s.ghost.bus_log ++ [.selOn, .rdy, .tx (a ||| s.cfg.flag_write_burst), .tx b, .selOff]
        line_log := s.ghost.line_log ++
          ([.sel .asserted] ++ byteLines (a ||| s.cfg.flag_write_burst) ++ byteLines b ++ [.sel .released]) }
      env := { s.env with
        rdy := Feed.after Config.freeRdy 1 s.env.rdy, sdi := Feed.after Config.freeSdi 2 s.env.sdi }
      host := { s.host with ret := .success } }) ∧
    (rdyAhead s 0 = .high → ∃ t, exec (.write r b) s = .next t ∧ StuckIn .wait1 t ∧ BusFrame s t ∧
      t.ghost.bus_log = s.ghost.bus_log ++ [.selOn])

/-- R140, R96: WBURST sends the header and every byte of the buffer in index order, the empty buffer
included (the spec's decision D11), with one wait only; WRITE is the burst of one byte. -/
def Obligations.BurstSendsHeaderAndBuffer : Prop :=
  ∀ (r : Reg) (a : Byte) (bs : List Byte) (s : State), CanCall s → BusUsable s → regAddr s.cfg r = some a →
    (rdyAhead s 0 = .low → ∃ t, exec (.wburst r bs) s = .next t ∧ BusFrame s t ∧ BusReleased t ∧
      t.ghost.bus_log = s.ghost.bus_log ++ writeLog (a ||| s.cfg.flag_write_burst) bs ∧
      t.ghost.line_log = s.ghost.line_log ++ ([.sel .asserted] ++
        ((a ||| s.cfg.flag_write_burst) :: bs).flatMap byteLines ++ [.sel .released]) ∧
      t.env.sdi = Feed.after Config.freeSdi (bs.length + 1) s.env.sdi ∧
      t.env.rdy = Feed.after Config.freeRdy 1 s.env.rdy ∧ t.drv.sclk = .high ∧ t.host.ret = .success) ∧
    (rdyAhead s 0 = .high → ∃ t, exec (.wburst r bs) s = .next t ∧ StuckIn .wait1 t ∧ BusFrame s t ∧
      t.ghost.bus_log = s.ghost.bus_log ++ [.selOn]) ∧
    ∀ b, exec (.write r b) s = exec (.wburst r [b]) s

/-- R143, R145: the frequency word is floor(mhz × 65536 / 26 + 1/2) over the rationals, where that is
below 2^24, and there is none otherwise or for a negative frequency, the latter by the spec's decision D6
(log entry 18). -/
def Obligations.FrequencyWordRoundsHalfUp : Prop :=
  ∀ (n : Int) (d : Nat), d ≠ 0 →
    let q : Rat := (n : Rat) / (d : Rat) * 65536 / 26
    (0 ≤ n → q + 1 / 2 < 2 ^ 24 → freqWord ⟨n, d⟩ = .ok (BitVec.ofNat 24 ⌊q + 1 / 2⌋.toNat)) ∧
    (2 ^ 24 ≤ q + 1 / 2 → freqWord ⟨n, d⟩ = .error .frequencyOutOfRange) ∧
    (n < 0 → freqWord ⟨n, d⟩ = .error .frequencyOutOfRange)

/-- R144: PFREQ writes W[23:16], W[15:8], W[7:0] to the high, middle and low frequency registers, in
that order, as three transactions, and can be stuck at any of the three waits, the earlier ones being
complete. -/
def Obligations.PfreqWritesHighMiddleLow : Prop :=
  ∀ (m : Mhz) (w : FreqWord) (s : State), CanCall s → BusUsable s → freqWord m = .ok w →
    let logs := [writeLog (s.cfg.addr_freq_hi ||| s.cfg.flag_write_burst) [w.extractLsb' 16 8],
      writeLog (s.cfg.addr_freq_mid ||| s.cfg.flag_write_burst) [w.extractLsb' 8 8],
      writeLog (s.cfg.addr_freq_lo ||| s.cfg.flag_write_burst) [w.extractLsb' 0 8]]
    (ReadyFor 3 s → ∃ t, exec (.pfreq m) s = .next t ∧ BusFrame s t ∧ BusReleased t ∧
      t.ghost.bus_log = s.ghost.bus_log ++ logs.flatten ∧ t.host.ret = .success) ∧
    ∀ j < 3, ReadyFor j s → rdyAhead s j = .high → ∃ t, exec (.pfreq m) s = .next t ∧ BusFrame s t ∧
      StuckIn .wait1 t ∧ t.ghost.bus_log = s.ghost.bus_log ++ (logs.take j).flatten ++ [.selOn]

/-- R145, the spec's decision D6: PFREQ refuses a negative frequency and one whose word does not fit
24 bits. -/
def Obligations.PfreqOutOfRangeIsRefused : Prop :=
  ∀ (m : Mhz) (s : State), CanCall s → m.den ≠ 0 →
    (m.num < 0 ∨ (2 : Rat) ^ 24 ≤ (m.num : Rat) / (m.den : Rat) * 65536 / 26 + 1 / 2) →
    exec (.pfreq m) s = .refused .frequencyOutOfRange

/-- R97 as the row fmt.FREQ runs it (log entry 1): a word's three bytes go each to its register. -/
def Obligations.FrequencyBytesGoToTheirRegisters : Prop :=
  ∀ (w : FreqWord) (s : State), CanCall s → BusUsable s → ReadyFor 3 s →
    ∃ t, exec (.fmtFreq w) s = .next t ∧ BusFrame s t ∧ BusReleased t ∧ t.host.ret = .success ∧
      t.ghost.bus_log = s.ghost.bus_log ++
        (writeLog (s.cfg.addr_freq_hi ||| s.cfg.flag_write_burst) [w.extractLsb' 16 8] ++
          writeLog (s.cfg.addr_freq_mid ||| s.cfg.flag_write_burst) [w.extractLsb' 8 8] ++
          writeLog (s.cfg.addr_freq_lo ||| s.cfg.flag_write_burst) [w.extractLsb' 0 8])

/-- R94 as the bus byte rows run it (log entry 1): eight clocks, bit 7 first, `sdo` set up before the
falling edge, the clock HIGH after, the byte SDI gave in `sh_in`, and nothing else but `sh_out`, which holds
the byte; that both keep them afterwards is the model's choice (log entries 31, 34). -/
def Obligations.BareBytesGoOnTheWires : Prop :=
  ∀ (i : Instr) (b : Byte) (s : State), CanCall s → BusUsable s → bareByteOf s.cfg i = some b →
    exec i s = .next { s with
      drv := { s.drv with
        sh_out := b, sh_in := sdiAhead s 0, sclk := .high, sdo := levelOf (b.getLsbD 0) }
      ghost := { s.ghost with
        bus_log := s.ghost.bus_log ++ [.tx b]
        line_log := s.ghost.line_log ++
          [.sdo (levelOf (b.getLsbD 7)), .sclk .low, .sclk .high, .sdo (levelOf (b.getLsbD 6)), .sclk .low, .sclk .high,
            .sdo (levelOf (b.getLsbD 5)), .sclk .low, .sclk .high, .sdo (levelOf (b.getLsbD 4)), .sclk .low, .sclk .high,
            .sdo (levelOf (b.getLsbD 3)), .sclk .low, .sclk .high, .sdo (levelOf (b.getLsbD 2)), .sclk .low, .sclk .high,
            .sdo (levelOf (b.getLsbD 1)), .sclk .low, .sclk .high, .sdo (levelOf (b.getLsbD 0)), .sclk .low, .sclk .high] }
      env := { s.env with sdi := Feed.after Config.freeSdi 1 s.env.sdi }
      host := { s.host with ret := .success } }

/-- R62, the spec's decision D7 (and log entry 5): a name that is no member of REGS or STROBES is
refused. -/
def Obligations.NamesOutsideTheSetsAreRefused : Prop :=
  ∀ (i : Instr) (s : State), CanCall s →
    (∀ r, regOf i = some r → regAddr s.cfg r = none → exec i s = .refused .notInRegs) ∧
    (∀ st, strobeOf i = some st → strobeByte s.cfg st = none → exec i s = .refused .notInStrobes)

/-- R300, the spec's decision D12 (and log entry 10): before INIT no bus operation
has a meaning, nor have SEND past its gate and SNIFF; after INIT neither INIT nor STARTUP has one. -/
def Obligations.BusCallsBeforeInitAreRefused : Prop :=
  ∀ (i : Instr) (s : State), CanCall s →
    (s.drv.drv_init = false → usesBus i = true ∨ i = .sniff → ∃ r, exec i s = .refused r) ∧
    (s.drv.drv_init = false → (codesOf s.cfg i).isSome → s.ses.serial ≠ none →
      exec i s = .refused .driverNotInitialised) ∧
    (s.drv.drv_init = true → i = .init ∨ i = .startup → exec i s = .refused .alreadyInitialised)

/-- R92, the spec's decision D8 (and log entry 5): a configuration in which an address shares a bit with
a flag mask, or the masks are equal, is refused by INIT, STARTUP and every bus operation. -/
def Obligations.ClashingFlagsAreRefused : Prop :=
  ∀ (i : Instr) (s : State), CanCall s →
    (s.cfg.flag_read_burst = s.cfg.flag_write_burst ∨
      ∃ a ∈ regAddrs s.cfg, a &&& (s.cfg.flag_read_burst ||| s.cfg.flag_write_burst) ≠ 0) →
    usesBus i = true ∨ i = .init ∨ i = .startup ∨ i = .sniff → ∃ r, exec i s = .refused r

/-- R264: a halted block accepts nothing: no step and no instruction has a next state (log entry 11). -/
def Obligations.HaltedBlockAcceptsNothing : Prop :=
  ∀ s : State, s.ses.sess_phase = .halted →
    step s = .refused .halted ∧ ∀ i : Instr, exec i s = .refused .halted

/-- R271, R147, R301: while a call is in flight, or SENDING or SNIFFING lasts, every other call is refused, and so
it is while `drv_phase` is not IDLE (log entry 11). -/
def Obligations.NoCallWhileOneIsInFlight : Prop :=
  ∀ (i : Instr) (s : State), s.ses.sess_phase ≠ .halted →
    (s.ses.sess_phase ≠ .idle ∨ s.host.pend ≠ [] → exec i s = .refused .callInProgress) ∧
    (s.ses.sess_phase = .idle → s.host.pend = [] → s.drv.drv_phase ≠ .idle → exec i s = .refused .transactionInFlight)

/-- R132: a ready wait is a step: while RDY is HIGH it changes nothing but that the sample is used; when RDY is
LOW, RDY is logged and `drv_phase` moves on, from WAIT1 to HDR, and from WAIT2 to IDLE, select being released
with it (log entry 32).  So a strobe stuck in either wait goes to its end.  That a wait that holds is a step that
uses one sample is the model's form (log entry 13). -/
def Obligations.ReadyWaitHoldsWhileHigh : Prop :=
  ∀ (s : State) (x : Txn) (k : List Act), s.ses.sess_phase ≠ .halted → s.host.pend = .bus x :: k →
    (s.drv.drv_phase = .wait1 ∨ s.drv.drv_phase = .wait2 → rdyAhead s 0 = .high →
      step s = .next { s with env := { s.env with rdy := Feed.after Config.freeRdy 1 s.env.rdy } }) ∧
    (s.drv.drv_phase = .wait1 → rdyAhead s 0 = .low → step s = .next { s with
      drv := { s.drv with drv_phase := .hdr }
      ghost := { s.ghost with bus_log := s.ghost.bus_log ++ [.rdy] }
      env := { s.env with rdy := Feed.after Config.freeRdy 1 s.env.rdy } }) ∧
    (s.drv.drv_phase = .wait2 → rdyAhead s 0 = .low → step s = .next { s with
      drv := { s.drv with sel := .released, drv_phase := .idle }
      ghost := { s.ghost with
        bus_log := s.ghost.bus_log ++ [.rdy, .selOff], line_log := s.ghost.line_log ++ [.sel .released] }
      env := { s.env with rdy := Feed.after Config.freeRdy 1 s.env.rdy }
      host := { s.host with pend := k } }) ∧
    (∀ b, x = .strobe b → k = [.finish] → s.drv.drv_phase = .wait1 → ReadyFor 2 s →
      ∃ t, steps 4 s = .next t ∧ BusFrame s t ∧ BusReleased t ∧ t.host.ret = .success ∧
        t.ghost.bus_log = s.ghost.bus_log ++ [.rdy, .tx b, .rdy, .selOff]) ∧
    (k = [.finish] → s.drv.drv_phase = .wait2 → rdyAhead s 0 = .low →
      ∃ t, steps 2 s = .next t ∧ BusFrame s t ∧ BusReleased t ∧ t.host.ret = .success ∧
        t.ghost.bus_log = s.ghost.bus_log ++ [.rdy, .selOff])

/-! ## OOKENC -/

/-- R171: PULSE sets the level and holds it d microseconds on a driven line, and is refused on a line
that is not driven.  That the time is exact is the spec's decision D34. -/
def Obligations.PulseHoldsTheLine : Prop :=
  ∀ (lvl : Level) (d : Nat) (s : State), CanCall s → 1 ≤ d →
    (s.enc.tx_mode = .driven → exec (.pulse lvl d) s = .next { s with
      enc := { s.enc with tx_level := lvl }
      ghost := { s.ghost with tx_log := s.ghost.tx_log ++ [(triOf lvl, d)] }
      env := { s.env with now := s.env.now + d }
      host := { s.host with ret := .success } }) ∧
    (s.enc.tx_mode = .hiz → exec (.pulse lvl d) s = .refused .lineNotDriven)

/-- R101: the 83 segments of a frame, and its length of 58980 µs whatever the packet, a total the spec
derives. -/
def Obligations.FrameHasItsSegments : Prop :=
  ∀ p : Packet, (frame p).length = 83 ∧ (frame p)[0]? = some (.low, 8796) ∧
    (frame p)[1]? = some (.high, 4758) ∧ (frame p)[2]? = some (.low, 1466) ∧
    (∀ k < 40, (frame p)[3 + 2 * k]? = some (.high, if p.getLsbD (39 - k) then 733 else 366) ∧
      (frame p)[4 + 2 * k]? = some (.low, if p.getLsbD (39 - k) then 366 else 733)) ∧
    duration (frame p) = 58980

/-- R173: TXFRAME drives the frame's segments one after the other, leaves the line LOW and `seg_idx`
NONE, and takes 58980 µs for every packet.  That a line not driven refuses it is DEDUCED (log entry 17). -/
def Obligations.TxframeDrivesTheFrame : Prop :=
  ∀ (p : Packet) (s : State), CanCall s →
    (s.enc.tx_mode = .driven → exec (.txframe p) s = .next { s with
      enc := { s.enc with tx_pkt := p, tx_level := .low, seg_idx := none }
      ghost := { s.ghost with tx_log := s.ghost.tx_log ++ segmentLog (frame p) }
      env := { s.env with now := s.env.now + 58980 }
      host := { s.host with ret := .success } }) ∧
    (s.enc.tx_mode = .hiz → exec (.txframe p) s = .refused .lineNotDriven)

/-- R175: TXBURST drives five frames of the packet with nothing between them, 294900 µs.  That `rep_cnt` is
5 afterwards and that a line not driven refuses it are DEDUCED (log entries 16, 17). -/
def Obligations.TxburstDrivesFiveFrames : Prop :=
  ∀ (p : Packet) (s : State), CanCall s →
    (s.enc.tx_mode = .driven → exec (.txburst p) s = .next { s with
      enc := { s.enc with tx_pkt := p, tx_level := .low, seg_idx := none, rep_cnt := 5 }
      ghost := { s.ghost with
        tx_log := s.ghost.tx_log ++ segmentLog (frame p ++ frame p ++ frame p ++ frame p ++ frame p) }
      env := { s.env with now := s.env.now + 294900 }
      host := { s.host with ret := .success } }) ∧
    (s.enc.tx_mode = .hiz → exec (.txburst p) s = .refused .lineNotDriven)

/-- R177, R170: TXEN drives the line, LOW; TXDIS releases it; each is logged; TXD is then LOW and Z.  The LOW
level is the spec's decision D22. -/
def Obligations.LineTurnsOnLowAndOffToZ : Prop :=
  ∀ s : State, CanCall s →
    exec .txen s = .next { s with
      enc := { s.enc with tx_mode := .driven, tx_level := .low }
      ghost := { s.ghost with tx_log := s.ghost.tx_log ++ [(.low, 0)] }
      host := { s.host with ret := .success } } ∧
    exec .txdis s = .next { s with
      enc := { s.enc with tx_mode := .hiz }
      ghost := { s.ghost with tx_log := s.ghost.tx_log ++ [(.z, 0)] }
      host := { s.host with ret := .success } } ∧
    txd { s.enc with tx_mode := .driven, tx_level := .low } = .low ∧ txd { s.enc with tx_mode := .hiz } = .z

/-- R100 as the symbol rows run it (log entry 1): each drives its segments on a driven line. -/
def Obligations.SymbolsDriveTheirSegments : Prop :=
  ∀ (i : Instr) (gs : List Segment) (s : State), CanCall s → symbolOf i = some gs →
    (s.enc.tx_mode = .driven → exec i s = .next { s with
      enc := { s.enc with tx_level := .low }
      ghost := { s.ghost with tx_log := s.ghost.tx_log ++ segmentLog gs }
      env := { s.env with now := s.env.now + duration gs }
      host := { s.host with ret := .success } }) ∧
    (s.enc.tx_mode = .hiz → exec i s = .refused .lineNotDriven)

/-- R98 as the row fmt.PACKET runs it (log entry 1): serial, channel and code are packed high to low,
and the packet's forty bit cells go out, bit 39 first, as the segments after a frame's start marker.  That a
line not driven refuses it is DEDUCED (log entry 17). -/
def Obligations.PacketCellsGoOut : Prop :=
  ∀ (v : Serial) (ch c : Byte) (s : State), CanCall s →
    (packet v ch c).toNat = v.toNat * 2 ^ 16 + ch.toNat * 2 ^ 8 + c.toNat ∧
    (s.enc.tx_mode = .driven → exec (.fmtPacket v ch c) s = .next { s with
      enc := { s.enc with tx_pkt := packet v ch c, tx_level := .low, seg_idx := none }
      ghost := { s.ghost with tx_log := s.ghost.tx_log ++ segmentLog ((frame (packet v ch c)).drop 3) }
      env := { s.env with now := s.env.now + 43960 }
      host := { s.host with ret := .success } }) ∧
    (s.enc.tx_mode = .hiz → exec (.fmtPacket v ch c) s = .refused .lineNotDriven)

/-- R174: the 82 edges of a frame on a line that is LOW before it. -/
def Obligations.FrameHasItsEdges : Prop :=
  ∀ (p : Packet) (t0 : Nat),
    let es := lineEdges .low t0 t0 (frame p)
    es.length = 82 ∧ es[0]? = some ⟨.high, t0 + 8796, 8796⟩ ∧ es[1]? = some ⟨.low, t0 + 13554, 4758⟩ ∧
    es[2]? = some ⟨.high, t0 + 15020, 1466⟩ ∧
    ∀ k < 40, (es[2 + 2 * k]?.map fun e => (e.lvl, e.ts)) = some (.high, t0 + 15020 + 1099 * k) ∧
      es[3 + 2 * k]? = some ⟨.low, t0 + 15020 + 1099 * k + (if p.getLsbD (39 - k) then 733 else 366),
        if p.getLsbD (39 - k) then 733 else 366⟩

/-- R102: where one frame meets the next there is no edge: one LOW span of 9162 µs after a last bit of 1
and of 9529 µs after a 0. -/
def Obligations.FramesMergeAtTheJoin : Prop :=
  ∀ (p q : Packet) (t0 : Nat),
    (lineEdges .low t0 t0 (frame p ++ frame q))[82]? =
      some ⟨.high, t0 + 67776, if p.getLsbD 0 then 9162 else 9529⟩ ∧
    (lineEdges .low t0 t0 (frame p ++ frame q)).take 82 = lineEdges .low t0 t0 (frame p)

/-! ## OOKDEC -/

/-- R191, the spec's decision D17 (log entry 29): DECRESET starts the decoder over from one sample of the
line; `acc`, `rx_ts` and `rx_out` are not touched.  `last_edge` is the model's (log entry 12, DEDUCED). -/
def Obligations.DecresetArmsTheDetector : Prop :=
  ∀ s : State, CanCall s → exec .decreset s = .next { s with
    dec := { s.dec with
      dstate := .invalid, prev_level := (rxNext s).lvl, prev_ts := s.env.now + (rxNext s).dt, last_edge := none }
    env := { s.env with now := s.env.now + (rxNext s).dt, rx := Feed.after Config.freeRx 1 s.env.rx }
    host := { s.host with ret := .success } }

/-- R192: a sample equal to the last does nothing; a change is an edge event with the sample's time and
the time since the last event.  That the time is the sample's is the spec's decision D35; that POLL's event
follows no earlier hand-made one, so that `last_edge` is none when it is raised, is the model's (log entry
12, DEDUCED). -/
def Obligations.PollRaisesAnEventOnAChange : Prop :=
  ∀ s : State, CanCall s →
    let now := s.env.now + (rxNext s).dt
    let s1 := { s with env := { s.env with now := now, rx := Feed.after Config.freeRx 1 s.env.rx } }
    ((rxNext s).lvl = s.dec.prev_level → exec .poll s = .next { s1 with host := { s.host with ret := .success } }) ∧
    ((rxNext s).lvl ≠ s.dec.prev_level → (∃ t, exec .poll s = .next t) ∧
      exec .poll s = exec (.edge (rxNext s).lvl now (now - s.dec.prev_ts))
        { s1 with dec := { s.dec with prev_level := (rxNext s).lvl, prev_ts := now, last_edge := none } })

/-- R195: in INVALID a rising edge goes to START_H whatever its span; a falling edge changes nothing.
The polarity is the spec's resolution C2, decision D14 (log entry 19); `last_edge` and what may follow it
are the model's (log entry 12, DEDUCED). -/
def Obligations.InvalidArmsOnARisingEdge : Prop :=
  ∀ (ts el : Nat) (s : State), CanCall s → s.dec.dstate = .invalid →
    (edgeFollows s.dec.last_edge .high ts = true → exec (.edge .high ts el) s = .next { s with
      dec := { s.dec with dstate := .startH, last_edge := some (.high, ts) }
      host := { s.host with ret := .success } }) ∧
    (edgeFollows s.dec.last_edge .low ts = true → exec (.edge .low ts el) s = .next { s with
      dec := { s.dec with last_edge := some (.low, ts) }
      host := { s.host with ret := .success } })

/-- R196: in START_H a falling edge checks the start marker's high span.  That this span comes first is the
spec's resolution C1, decision D14 (log entry 19); `last_edge` and what may follow it are the model's (log
entry 12, DEDUCED). -/
def Obligations.StartMarkerHighCheck : Prop :=
  ∀ (ts el : Nat) (s : State), CanCall s → s.dec.dstate = .startH →
    edgeFollows s.dec.last_edge .low ts = true → exec (.edge .low ts el) s = .next { s with
      dec := { s.dec with
        dstate := if 4159 ≤ el ∧ el ≤ 5357 then .startL else .invalid, last_edge := some (.low, ts) }
      host := { s.host with ret := .success } }

/-- R198, R200: in START_L a rising edge checks the start marker's low span; success enters bit 0 with
the event's time as receive timestamp and a zero accumulator.  That this span comes second is the spec's
resolution C1, decision D14 (log entry 19); `last_edge` and what may follow it are the model's (log entry
12, DEDUCED). -/
def Obligations.StartMarkerLowCheck : Prop :=
  ∀ (ts el : Nat) (s : State), CanCall s → s.dec.dstate = .startL →
    edgeFollows s.dec.last_edge .high ts = true → exec (.edge .high ts el) s = .next { s with
      dec := if 1107 ≤ el ∧ el ≤ 1825 then
          { s.dec with dstate := .bitH 0, rx_ts := ts, acc := 0, last_edge := some (.high, ts) }
        else { s.dec with dstate := .invalid, last_edge := some (.high, ts) }
      host := { s.host with ret := .success } }

/-- R203: in BIT_H[i] a falling edge shifts in 1 after a long high half and 0 after a short one; anything
else goes to INVALID.  The bounds are those the spec derives in R104; `last_edge` and what may follow it are
the model's (log entry 12, DEDUCED). -/
def Obligations.HighHalfIsClassified : Prop :=
  ∀ (i : Fin 40) (ts el : Nat) (s : State), CanCall s → s.dec.dstate = .bitH i →
    edgeFollows s.dec.last_edge .low ts = true → exec (.edge .low ts el) s = .next { s with
      dec := if 614 ≤ el ∧ el ≤ 852 then
          { s.dec with dstate := .bitL i, acc := s.dec.acc <<< 1 ||| 1, last_edge := some (.low, ts) }
        else if 247 ≤ el ∧ el ≤ 485 then
          { s.dec with dstate := .bitL i, acc := s.dec.acc <<< 1, last_edge := some (.low, ts) }
        else { s.dec with dstate := .invalid, last_edge := some (.low, ts) }
      host := { s.host with ret := .success } }

/-- R205, R207: in BIT_L[i] a rising edge checks the low half against the complement of the bit just
read; success goes on to the next bit, or, after bit 39, emits the accumulator with its timestamp and
goes to INVALID; a mismatch goes to INVALID.  That bit 39 is complete at this edge is the spec's decision
D16 (log entry 19); the bounds are those the spec derives in R104; `last_edge` and what may follow it are the
model's (log entry 12, DEDUCED). -/
def Obligations.LowHalfIsTheComplement : Prop :=
  ∀ (i : Fin 40) (ts el : Nat) (s : State), CanCall s → s.dec.dstate = .bitL i →
    edgeFollows s.dec.last_edge .high ts = true →
    let fits : Prop := if s.dec.acc.getLsbD 0 then 247 ≤ el ∧ el ≤ 485 else 614 ≤ el ∧ el ≤ 852
    (fits → ∀ h : i.val < 39, exec (.edge .high ts el) s = .next { s with
      dec := { s.dec with dstate := .bitH ⟨i.val + 1, by omega⟩, last_edge := some (.high, ts) }
      host := { s.host with ret := .success } }) ∧
    (fits → i.val = 39 → exec (.edge .high ts el) s = .next { s with
      dec := { s.dec with dstate := .invalid, last_edge := some (.high, ts) }
      ghost := { s.ghost with rx_out := s.ghost.rx_out ++ [(s.dec.acc, s.dec.rx_ts)] }
      host := { s.host with ret := .success } }) ∧
    (¬ fits → exec (.edge .high ts el) s = .next { s with
      dec := { s.dec with dstate := .invalid, last_edge := some (.high, ts) }
      host := { s.host with ret := .success } })

/-- R208, the spec's decision D15: the arms that cannot occur while events alternate go to INVALID.  They are
the four that R194's table marks, START_H and BIT_H rising, START_L and BIT_L falling; R208's own count is
five (log entry 33).  `last_edge` and what may follow it are the model's (log entry 12, DEDUCED). -/
def Obligations.UnreachableArmsGoToInvalid : Prop :=
  ∀ (lvl : Level) (ts el : Nat) (s : State), CanCall s → edgeFollows s.dec.last_edge lvl ts = true →
    (lvl = .high ∧ (s.dec.dstate = .startH ∨ ∃ i, s.dec.dstate = .bitH i)) ∨
      (lvl = .low ∧ (s.dec.dstate = .startL ∨ ∃ i, s.dec.dstate = .bitL i)) →
    exec (.edge lvl ts el) s = .next { s with
      dec := { s.dec with dstate := .invalid, last_edge := some (lvl, ts) }
      host := { s.host with ret := .success } }

/-- R193: an event of the same level as the last one, or of an earlier time, makes a hand-made list
ill-formed and is refused (the spec's decision D15; log entry 12); POLL's own events always alternate and
are never refused. -/
def Obligations.HandMadeEventsMustAlternate : Prop :=
  ∀ s : State, CanCall s →
    (∀ lvl ts el l t, s.dec.last_edge = some (l, t) → lvl = l ∨ ts < t →
      exec (.edge lvl ts el) s = .refused .eventsIllFormed) ∧
    ∃ t, exec .poll s = .next t

/-- R104: the windows accept exactly these spans, and each window row reports so (log entry 1). -/
def Obligations.WindowsAcceptTheirSpans : Prop :=
  ∀ (i : Instr) (lo hi el : Nat) (s : State), CanCall s → windowOf i = some (lo, hi, el) →
    exec i s = .next { s with host := { s.host with ret := .verdict (decide (lo ≤ el ∧ el ≤ hi)) } }

/-- R11: `match(d, t, b)` is |d − t| < b over the integers. -/
def Obligations.MatchIsStrict : Prop :=
  ∀ d t b : Nat, matchUs d t b = true ↔ |(d : Int) - (t : Int)| < (b : Int)

/-- R213: for every packet, the edge events of its frame and one closing rising edge make the decoder
emit exactly that packet, with the time of bit cell 0's rising edge, and end in INVALID; without the
closing edge it ends in BIT_L[39] with the packet in the accumulator and nothing emitted. That the
closing edge emits is the spec's decision D16 (log entry 19); `last_edge` is the model's (log entry 12, DEDUCED). -/
def Obligations.DecoderReadsAnEncodedFrame : Prop :=
  ∀ (p : Packet) (armed start : Nat) (s : State), armed ≤ start → CanCall s → s.dec.dstate = .invalid →
    s.dec.last_edge = none →
    (∃ t, takeAll (lineEdges .low armed start (frame p ++ [(.high, 1)])) s = .next t ∧
      t.ghost = { s.ghost with rx_out := s.ghost.rx_out ++ [(p, start + 15020)] } ∧ t.dec.dstate = .invalid) ∧
    (∃ t, takeAll (lineEdges .low armed start (frame p)) s = .next t ∧ t.ghost = s.ghost ∧
      t.dec.dstate = .bitL 39 ∧ t.dec.acc = p)

/-- R212: of two frames back to back with a closing edge none is reported, whatever the packets: the
rising edge that ends the second header fails the first frame's last check and is consumed by it.  This
rests on the spec's decision D16 (log entry 19); `last_edge` is the model's (log entry 12, DEDUCED). -/
def Obligations.BackToBackFramesAreNotReported : Prop :=
  ∀ (p q : Packet) (armed start : Nat) (s : State), armed ≤ start → CanCall s → s.dec.dstate = .invalid →
    s.dec.last_edge = none →
    ∃ t, takeAll (lineEdges .low armed start (frame p ++ frame q ++ [(.high, 1)])) s = .next t ∧
      t.ghost = s.ghost ∧ t.dec.dstate = .startH

/-! ## SESSION -/

/-- R230, R231: SETSER and SETCH write their register and nothing else. -/
def Obligations.SettersWriteTheirRegister : Prop :=
  ∀ s : State, CanCall s →
    (∀ v, exec (.setser v) s = .next { s with
      ses := { s.ses with serial := some v }, host := { s.host with ret := .success } }) ∧
    ∀ v, exec (.setch v) s = .next { s with
      ses := { s.ses with channel := v }, host := { s.host with ret := .success } }

/-- R234, R262: SEND, and every instruction that is a SEND, without a serial ends with
NoSerialConfigured, and nothing of the block changes. -/
def Obligations.SendWithoutSerialFailsUntouched : Prop :=
  ∀ (i : Instr) (s : State), CanCall s → (codesOf s.cfg i).isSome → s.ses.serial = none →
    exec i s = .next { s with host := { s.host with ret := .raised .noSerialConfigured } }

/-- R233, R235, R236: SEND, and every instruction that is a SEND (R109; log entry 1), executes the
transmit-mode strobe, drives the line, sends each code's packet five times with nothing between, executes
the idle strobe, releases the line, and returns success; the block has ended well.  With RDY HIGH at a wait
it is stuck there, SENDING: at the transmit-mode strobe's two with nothing on the line, at the idle
strobe's two with every frame out, the line still driven and the radio in TX. -/
def Obligations.SendTransmitsFiveFramesPerCode : Prop :=
  ∀ (i : Instr) (c1 : Byte) (c2 : Option Byte) (v : Serial) (s : State), CanCall s → BusUsable s →
    codesOf s.cfg i = some (c1, c2) → s.ses.serial = some v →
    let frames := framesOf 5 (packet v s.ses.channel c1) ++
      (c2.map fun c => framesOf 5 (packet v s.ses.channel c)).getD []
    (ReadyFor 4 s → ∃ t, exec i s = .next t ∧ EndedWell t ∧ t.host.ret = .success ∧
      t.ghost.bus_log = s.ghost.bus_log ++ (strobeLog s.cfg.op_transmit_mode ++ strobeLog s.cfg.op_idle) ∧
      t.ghost.tx_log = s.ghost.tx_log ++ ([(.low, 0)] ++ segmentLog frames ++ [(.z, 0)]) ∧
      t.enc = ⟨packet v s.ses.channel (c2.getD c1), .hiz, .low, 5, none⟩ ∧
      t.ses = { s.ses with radio_mode := .idle } ∧ t.dec = s.dec ∧ t.ghost.rx_out = s.ghost.rx_out ∧
      t.env.now = s.env.now + duration frames ∧ t.env.rx = s.env.rx ∧ t.env.cancel = s.env.cancel ∧
      t.drv.drv_init = s.drv.drv_init ∧ t.drv.pin_mode = s.drv.pin_mode ∧ t.cfg = s.cfg ∧
      t.host.calls = s.host.calls) ∧
    (rdyAhead s 0 = .high → ∃ t, exec i s = .next t ∧ StuckIn .wait1 t ∧ t.ses.sess_phase = .sending ∧
      t.ghost.bus_log = s.ghost.bus_log ++ [.selOn] ∧ t.ghost.tx_log = s.ghost.tx_log ∧ t.enc = s.enc) ∧
    (rdyAhead s 0 = .low → rdyAhead s 1 = .high → ∃ t, exec i s = .next t ∧ StuckIn .wait2 t ∧
      t.ses = { s.ses with sess_phase := .sending } ∧
      t.ghost.bus_log = s.ghost.bus_log ++ [.selOn, .rdy, .tx s.cfg.op_transmit_mode] ∧
      t.ghost.tx_log = s.ghost.tx_log ∧ t.enc = s.enc) ∧
    (ReadyFor 2 s → rdyAhead s 2 = .high → ∃ t, exec i s = .next t ∧ StuckIn .wait1 t ∧
      t.ses = { s.ses with sess_phase := .sending, radio_mode := .tx } ∧
      t.ghost.bus_log = s.ghost.bus_log ++ (strobeLog s.cfg.op_transmit_mode ++ [.selOn]) ∧
      t.ghost.tx_log = s.ghost.tx_log ++ ([(.low, 0)] ++ segmentLog frames) ∧ t.enc.tx_mode = .driven) ∧
    (ReadyFor 3 s → rdyAhead s 3 = .high → ∃ t, exec i s = .next t ∧ StuckIn .wait2 t ∧
      t.ses = { s.ses with sess_phase := .sending, radio_mode := .tx } ∧
      t.ghost.bus_log = s.ghost.bus_log ++
        (strobeLog s.cfg.op_transmit_mode ++ [.selOn, .rdy, .tx s.cfg.op_idle]) ∧
      t.ghost.tx_log = s.ghost.tx_log ++ ([(.low, 0)] ++ segmentLog frames) ∧ t.enc.tx_mode = .driven)

/-- R238: SNIFF executes the receive-mode strobe and arms the decoder; cancelled at once it makes no POLL,
executes the idle strobe and returns success; not cancelled it polls the line once and its loop goes on,
the radio in RX.  The order of cancellation and sample is the spec's decision D19, and that exec of it ends with
its loop's first iteration is log entry 8; `last_edge` is the model's (log entry 12, DEDUCED). -/
def Obligations.SniffArmsAndListens : Prop :=
  ∀ s : State, CanCall s → BusUsable s →
    let now := s.env.now + (rxNext s).dt
    let armed := { s.dec with dstate := .invalid, prev_level := (rxNext s).lvl, prev_ts := now, last_edge := none }
    (ReadyFor 4 s → cancelNext s = true → ∃ t, exec .sniff s = .next t ∧ t.host.pend = [] ∧
      t.host.ret = .success ∧ t.ghost.bus_log = s.ghost.bus_log ++
        (strobeLog s.cfg.op_receive_mode ++ strobeLog s.cfg.op_idle) ∧
      t.dec = armed ∧ t.env.now = now ∧ t.ses = { s.ses with radio_mode := .idle } ∧ t.enc = s.enc ∧
      t.ghost.tx_log = s.ghost.tx_log ∧ t.ghost.rx_out = s.ghost.rx_out ∧ t.drv.sel = .released ∧
      t.drv.drv_phase = .idle ∧ t.cfg = s.cfg ∧ t.host.calls = s.host.calls) ∧
    (ReadyFor 2 s → cancelNext s = false → ∃ u, exec .sniff s = .next (pollLine u) ∧ u.dec = armed ∧
      u.env = ⟨now, Feed.after Config.freeRdy 2 s.env.rdy, Feed.after Config.freeSdi 1 s.env.sdi,
        Feed.after Config.freeRx 1 s.env.rx, Feed.after Config.freeCancel 1 s.env.cancel⟩ ∧
      u.ghost.rx_out = s.ghost.rx_out ∧ u.ghost.tx_log = s.ghost.tx_log ∧
      u.ghost.bus_log = s.ghost.bus_log ++ strobeLog s.cfg.op_receive_mode ∧
      u.ses = { s.ses with sess_phase := .sniffing, radio_mode := .rx } ∧ u.enc = s.enc ∧
      u.host.pend = .sniffLoop :: (modeActs s.cfg .idle ++ [.phase .idle, .finish]) ∧
      u.host.calls = s.host.calls ∧ u.drv.sel = .released ∧ u.drv.drv_phase = .idle ∧ u.cfg = s.cfg)

/-- R239: one iteration of SNIFF's loop is one step: the cancellation is read first; if it is false the
line is polled once and the loop goes on; if it is true no sample is taken and the loop is left, and the steps
after it execute the idle strobe and return success (the spec's decision D19; log entries 8, 26). -/
def Obligations.SniffIterationReadsCancelFirst : Prop :=
  ∀ s : State, s.ses.sess_phase = .sniffing →
    let cancelled := { s with env := { s.env with cancel := Feed.after Config.freeCancel 1 s.env.cancel } }
    (∀ k, s.host.pend = .sniffLoop :: k → cancelNext s = false → step s = .next (pollLine cancelled)) ∧
    (∀ k, s.host.pend = .sniffLoop :: k → cancelNext s = true →
      step s = .next { cancelled with host := { s.host with pend := k } }) ∧
    (s.host.pend = .sniffLoop :: (modeActs s.cfg .idle ++ [.phase .idle, .finish]) → BusUsable s →
      cancelNext s = true → ReadyFor 2 s → ∃ t, steps 8 s = .next t ∧ t.host.pend = [] ∧ t.host.ret = .success ∧
        t.ses = { s.ses with sess_phase := .idle, radio_mode := .idle } ∧ t.dec = s.dec ∧ t.env.rx = s.env.rx ∧
        t.ghost.rx_out = s.ghost.rx_out ∧ t.ghost.bus_log = s.ghost.bus_log ++ strobeLog s.cfg.op_idle)

/-- R240 to R242: STARTUP runs INIT, reads and compares each pair of CHIP_ID_CHECK, then runs
STARTUP_OPS, all in order, when the chip is ready at every wait and answers as expected.  The order is
the spec's decision D23, D24 (log entry 21); where the byte to compare stands is log entry 34. -/
def Obligations.StartupRunsItsThreeParts : Prop :=
  ∀ s : State, CanCall s → s.drv.drv_init = false → configOk s.cfg = true →
    (∀ pair ∈ s.cfg.chip_id_check, (regAddr s.cfg pair.1).isSome) →
    (∀ j, ∀ h : j < s.cfg.chip_id_check.length, sdiAhead s (2 * j + 1) = s.cfg.chip_id_check[j].2) →
    (∀ op ∈ s.cfg.startup_ops, startupOpOk s.cfg op = true) →
    ReadyFor (s.cfg.chip_id_check.length + (s.cfg.startup_ops.map startupOpWaits).sum) s →
    ∃ t, exec .startup s = .next t ∧ t.host.ret = .success ∧ t.drv.drv_init = true ∧
      t.drv.pin_mode = .busctl ∧ BusReleased t ∧
      t.ghost.bus_log = s.ghost.bus_log ++ ([.resetPulse] ++
        (s.cfg.chip_id_check.flatMap fun pair => readLog ((readHeader s.cfg pair.1).getD 0) pair.2) ++
        s.cfg.startup_ops.flatMap (startupOpLog s.cfg)) ∧
      t.ses = { s.ses with radio_mode := startupMode s.ses.radio_mode s.cfg.startup_ops } ∧ t.enc = s.enc ∧
      t.dec = s.dec ∧ t.ghost.tx_log = s.ghost.tx_log ∧ t.ghost.rx_out = s.ghost.rx_out ∧ t.cfg = s.cfg ∧
      t.host.calls = s.host.calls

/-- R242, R264, R268: the first identity byte other than the one expected, at any pair of the list, ends
STARTUP with ChipIdentityMismatch: the block is HALTED, the pulse and the reads up to that one stay in
`bus_log`, and no configuration was written (the place of the check is the spec's decision D24; where the byte to compare stands is log entry 34). -/
def Obligations.WrongChipHaltsTheBlock : Prop :=
  ∀ (s : State) (j : Nat) (h : j < s.cfg.chip_id_check.length), CanCall s → s.drv.drv_init = false →
    configOk s.cfg = true →
    (∀ pair ∈ s.cfg.chip_id_check.take (j + 1), (regAddr s.cfg pair.1).isSome) → ReadyFor (j + 1) s →
    (∀ l, ∀ hl : l < j, sdiAhead s (2 * l + 1) = s.cfg.chip_id_check[l].2) →
    sdiAhead s (2 * j + 1) ≠ s.cfg.chip_id_check[j].2 →
    ∃ t, exec .startup s = .next t ∧ t.ses = { s.ses with sess_phase := .halted } ∧
      t.host.ret = .raised (.chipIdentityMismatch s.cfg.chip_id_check[j].1 (sdiAhead s (2 * j + 1))) ∧
      t.host.pend = [] ∧
      t.ghost.bus_log = s.ghost.bus_log ++ ([.resetPulse] ++
        ((s.cfg.chip_id_check.take j).flatMap fun pair => readLog ((readHeader s.cfg pair.1).getD 0) pair.2) ++
        readLog ((readHeader s.cfg s.cfg.chip_id_check[j].1).getD 0) (sdiAhead s (2 * j + 1))) ∧
      t.drv.sel = .released ∧ t.enc = s.enc ∧ t.dec = s.dec ∧ t.ghost.tx_log = s.ghost.tx_log ∧
      t.ghost.rx_out = s.ghost.rx_out ∧ t.cfg = s.cfg

/-! ## The whole machine -/

/-- The invariants below hold right after reset, where the registers the spec calls unspecified have the
model's values (log entry 9). -/
def Obligations.ResetMeetsTheInvariants : Prop :=
  BusLogBracketed State.reset ∧ AccumulatorBounded State.reset.dec ∧ LinesIdle State.reset ∧
    EncoderAtRest State.reset.enc ∧ TimeOrdered State.reset ∧ CallReturns State.reset

/-- R147, R69, R301: every step keeps one transaction at a time: BUSDRV is at a place of the transaction the call
in flight has come to, or at IDLE, and select is asserted exactly while it is in one; so with no call left to
finish, `drv_phase` is IDLE and select is released. -/
def Obligations.OneTransactionAtATime : Prop :=
  ∀ s t : State, OneTransaction s → step s = .next t →
    OneTransaction t ∧ (t.host.pend = [] → t.drv.drv_phase = .idle ∧ t.drv.sel = .released)

/-- R69, R95: every step keeps `bus_log` bracketed: each byte and each completed wait lies between SEL(1)
and SEL(0), which alternate; the premise sets aside the bus byte rows run alone, a reading of the model's
own (log entry 1). -/
def Obligations.BytesOnlyInsideTransactions : Prop :=
  ∀ s t : State, BusLogBracketed s →
    (s.host.pend = [] → ∀ i rest, decode s.host.calls = .ok (i, rest) → isBareByte i = false) →
    step s = .next t → BusLogBracketed t

/-- R13, R203: every step keeps the accumulator bounded by the bits read so far, so that no shift ever
drops a set bit. -/
def Obligations.AccumulatorHoldsTheBitsRead : Prop :=
  ∀ s t : State, AccumulatorBounded s.dec → step s = .next t → AccumulatorBounded t.dec

/-- R22, R94, R130: every step keeps the clock idle HIGH and the lines the bus controller's once INIT is
done, and INIT is never undone.  That the configuration has a meaning once INIT is done rests on R92's
refusal, the spec's decision D8, and on log entry 5 (DEDUCED), by which INIT makes it. -/
def Obligations.ClockIdlesHighAfterInit : Prop :=
  ∀ s t : State, LinesIdle s → step s = .next t →
    LinesIdle t ∧ (s.drv.drv_init = true → t.drv.drv_init = true)

/-- R179, R193, R272: between steps no frame is half driven, a frame being one step (log entry 8); time does not go back, and the edge detector's
last time is never in the future. -/
def Obligations.FramesAreWholeAndTimeIsMonotonic : Prop :=
  ∀ s t : State, EncoderAtRest s.enc → TimeOrdered s → step s = .next t →
    EncoderAtRest t.enc ∧ TimeOrdered t ∧ s.env.now ≤ t.env.now

/-- R20, R33: no step changes the configuration or rewrites a history. -/
def Obligations.HistoriesOnlyGrow : Prop :=
  ∀ s t : State, step s = .next t →
    t.cfg = s.cfg ∧ s.ghost.bus_log <+: t.ghost.bus_log ∧ s.ghost.tx_log <+: t.ghost.tx_log ∧
      s.ghost.rx_out <+: t.ghost.rx_out ∧ s.ghost.line_log <+: t.ghost.line_log

/-- R29: `serial` is written by SETSER only and `channel` by SETCH only; so a serial once set is never
UNSET again. -/
def Obligations.SessionRegistersChangeByTheirSettersOnly : Prop :=
  ∀ s t : State, step s = .next t →
    (t.ses.serial = s.ses.serial ∨
      ∃ v rest, s.host.pend = [] ∧ decode s.host.calls = .ok (.setser v, rest) ∧ t.ses.serial = some v) ∧
    (t.ses.channel = s.ses.channel ∨
      ∃ v rest, s.host.pend = [] ∧ decode s.host.calls = .ok (.setch v, rest) ∧ t.ses.channel = v) ∧
    (s.ses.serial ≠ none → t.ses.serial ≠ none)

/-- R243, R265: only SEND and what is a SEND, and STARTUP, end with a condition: NoSerialConfigured the
first, ChipIdentityMismatch the second, by a check that only a STARTUP has to make; any other step leaves a
condition that stood before only while a call is in flight or nothing happens.  Every call returns a status,
zero for success and not zero for a condition (log entry 22): what is left of a call always ends in its return,
and the step, or exec, that leaves nothing of it has returned. -/
def Obligations.OnlySendAndStartupRaise : Prop :=
  (∀ (i : Instr) (s t : State) (c : Condition), exec i s = .next t → t.host.ret = .raised c →
    ((codesOf s.cfg i).isSome ∧ c = .noSerialConfigured) ∨
      (i = .startup ∧ ∃ r v, c = .chipIdentityMismatch r v ∧ t.ses.sess_phase = .halted)) ∧
  (∀ (s t : State) (c : Condition), step s = .next t → t.host.ret = .raised c →
    (s.host.ret = .raised c ∧ (s.host.pend ≠ [] ∨ t = s)) ∨
      (s.host.pend = [] ∧ ∃ i rest, decode s.host.calls = .ok (i, rest) ∧ (codesOf s.cfg i).isSome ∧
        c = .noSerialConfigured) ∨
      ∃ r v e k, s.host.pend = .check r e :: k ∧ v ≠ e ∧ c = .chipIdentityMismatch r v ∧
        t.ses.sess_phase = .halted) ∧
  (∀ (i : Instr) (s t : State) (r : Reg) (e : Byte), exec i s = .next t → .check r e ∈ t.host.pend → i = .startup) ∧
  (∀ (s t : State) (r : Reg) (e : Byte), step s = .next t → .check r e ∈ t.host.pend →
    .check r e ∈ s.host.pend ∨ (s.host.pend = [] ∧ ∃ rest, decode s.host.calls = .ok (.startup, rest))) ∧
  (∀ s t : State, s.host.pend ≠ [] → step s = .next t → t.host.pend <:+ s.host.pend) ∧
  (∀ (i : Instr) (s t : State), exec i s = .next t → CallReturns t ∧
    (t.host.pend = [] → ∃ n, statusOf t.cfg t.host.ret = some n ∧ (n = 0 ↔ ∀ c, t.host.ret ≠ .raised c))) ∧
  (∀ s t : State, CallReturns s → step s = .next t → CallReturns t ∧
    (s.host.pend ≠ [] ∨ s.host.calls ≠ [] → t.host.pend = [] →
      ∃ n, statusOf t.cfg t.host.ret = some n ∧ (n = 0 ↔ ∀ c, t.host.ret ≠ .raised c)))

/-- R23: a step does one action, which the sequencer register of the part picks and which moves the register on.
Of a transaction `drv_phase` picks it: at IDLE select is asserted; at HDR the first byte goes out, a strobe's too
(log entry 35); at DATA(k) data byte k, and the last byte releases select (log entry 32); the two waits are
ReadyWaitHoldsWhileHigh.  Of a burst `rep_cnt` picks it: below REPEAT the next frame is driven, as one step, on a
line that is not driven it is refused (log entry 17), and at REPEAT the burst is over (log entry 16).  The call in
flight stays at what it has come to, goes on to what is next, or ends with the halt; what is left of it says
where SESSION is, as `sess_phase` cannot (log entry 8). -/
def Obligations.SequencersPickTheAction : Prop :=
  ∀ (s : State) (a : Act) (k : List Act), s.ses.sess_phase ≠ .halted → s.host.pend = a :: k →
    (∀ x, a = .bus x → s.drv.drv_phase = .idle → BusUsable s → ∃ t, step s = .next t ∧ BusFrame s t ∧
      t.drv.sel = .asserted ∧ t.drv.drv_phase = .wait1 ∧ t.host.pend = a :: k ∧
      t.ghost.bus_log = s.ghost.bus_log ++ [.selOn]) ∧
    (∀ b, a = .bus (.strobe b) → s.drv.drv_phase = .hdr → ∃ t, step s = .next t ∧ BusFrame s t ∧
      t.drv.sel = s.drv.sel ∧ t.drv.drv_phase = .wait2 ∧ t.host.pend = a :: k ∧
      t.ghost.bus_log = s.ghost.bus_log ++ [.tx b]) ∧
    (∀ x, a = .bus x → (∀ b, x ≠ .strobe b) → s.drv.drv_phase = .hdr → ∃ t, step s = .next t ∧ BusFrame s t ∧
      if 0 < x.dataBytes then
        t.drv.sel = s.drv.sel ∧ t.drv.drv_phase = .data 0 ∧ t.host.pend = a :: k ∧
          t.ghost.bus_log = s.ghost.bus_log ++ [.tx x.firstByte]
      else
        t.drv.sel = .released ∧ t.drv.drv_phase = .idle ∧ t.host.pend = k ∧
          t.ghost.bus_log = s.ghost.bus_log ++ [.tx x.firstByte, .selOff]) ∧
    (∀ x j e, a = .bus x → s.drv.drv_phase = .data j → dataEvent x j (sdiAhead s 0) = some e →
      ∃ t, step s = .next t ∧ BusFrame s t ∧
      if j + 1 < x.dataBytes then
        t.drv.sel = s.drv.sel ∧ t.drv.drv_phase = .data (j + 1) ∧ t.host.pend = a :: k ∧
          t.ghost.bus_log = s.ghost.bus_log ++ [e]
      else
        t.drv.sel = .released ∧ t.drv.drv_phase = .idle ∧ t.host.pend = k ∧
          t.ghost.bus_log = s.ghost.bus_log ++ [e, .selOff]) ∧
    (a = .burst → step s = .next { s with
      enc := { s.enc with rep_cnt := 0 }
      host := { s.host with pend := k } }) ∧
    (∀ p, a = .frames p → s.enc.rep_cnt < 5 →
      (s.enc.tx_mode = .driven → step s = .next { s with
        enc := { s.enc with tx_pkt := p, tx_level := .low, seg_idx := none, rep_cnt := s.enc.rep_cnt + 1 }
        env := { s.env with now := s.env.now + 58980 }
        ghost := { s.ghost with tx_log := s.ghost.tx_log ++ segmentLog (frame p) } }) ∧
      (s.enc.tx_mode = .hiz → step s = .refused .lineNotDriven)) ∧
    (∀ p, a = .frames p → 5 ≤ s.enc.rep_cnt → step s = .next { s with host := { s.host with pend := k } }) ∧
    (∀ t, step s = .next t → t.host.pend = a :: k ∨ t.host.pend = k ∨
      (t.host.pend = [] ∧ t.ses.sess_phase = .halted))
end

