-- ==== Sys2Proof/Laws/Encode.lean ====
section
/-! SUPPORT. One law per item of a call's byte form: reading what was put gives it back, with the bytes
after it (log entry 2). -/

namespace Sys2Proof

theorem takeNat_digits (f n : Nat) (h : n ≤ f) (rest : List Byte) : takeNat (natDigits f n ++ rest) = .ok
    (n, rest) := by
  induction f generalizing n with
  | zero => obtain rfl : n = 0 := by omega
            simp [natDigits, takeNat]
  | succ f ih =>
    rw [natDigits]
    split
    · rename_i hlt
      have : n % 256 = n := Nat.mod_eq_of_lt (by omega)
      simp [takeNat, this, hlt]
    · have h1 : (128 + n % 128) % 256 = 128 + n % 128 := Nat.mod_eq_of_lt (by omega)
      simp [takeNat, h1, ih (n / 128) (by omega), Parsed.andThen]
      omega

theorem takeNat_putNat (n : Nat) (rest : List Byte) : takeNat (putNat n ++ rest) = .ok (n, rest) :=
    takeNat_digits n n le_rfl rest

theorem takeInt_putInt (z : Int) (rest : List Byte) : takeInt (putInt z ++ rest) = .ok (z, rest) := by
  unfold putInt takeInt
  by_cases h : z < 0
  · simp [takeByte, Parsed.andThen, takeNat_putNat, h]
    have := abs_of_neg h
    omega
  · simp [takeByte, Parsed.andThen, takeNat_putNat, h]
    omega

theorem take24_put24 (v : BitVec 24) (rest : List Byte) : take24 (put24 v ++ rest) = .ok (v, rest) := by
  have : (v.extractLsb' 16 8 ++ v.extractLsb' 8 8 ++ v.extractLsb' 0 8 : BitVec 24) = v := by
    ext i hi
    simp only [BitVec.getElem_append, BitVec.getElem_extractLsb']
    split
    · simp [BitVec.getLsbD_eq_getElem hi]
    · split
      · rw [← BitVec.getLsbD_eq_getElem hi]; congr 1; omega
      · rw [← BitVec.getLsbD_eq_getElem hi]; congr 1; omega
  simp [take24, put24, takeByte, Parsed.andThen]
  exact this

theorem take40_put40 (v : BitVec 40) (rest : List Byte) : take40 (put40 v ++ rest) = .ok (v, rest) := by
  have : (v.extractLsb' 16 24 ++ v.extractLsb' 8 8 ++ v.extractLsb' 0 8 : BitVec 40) = v := by
    ext i hi
    simp only [BitVec.getElem_append, BitVec.getElem_extractLsb']
    split
    · simp [BitVec.getLsbD_eq_getElem hi]
    · split
      · rw [← BitVec.getLsbD_eq_getElem hi]; congr 1; omega
      · rw [← BitVec.getLsbD_eq_getElem hi]; congr 1; omega
  simp [take40, put40, takeByte, Parsed.andThen, take24_put24]
  exact this

theorem takeByte_cons (b : Byte) (rest : List Byte) : takeByte (b :: rest) = .ok (b, rest) := rfl

theorem takeLevel_putLevel (l : Level) (rest : List Byte) : takeLevel (putLevel l ++ rest) = .ok (l, rest) :=
    by
  cases l <;> rfl

theorem takeStrobe_putStrobe (v : Strobe) (rest : List Byte) : takeStrobe (putStrobe v ++ rest) = .ok
    (v, rest) := by
  cases v with
  | other n => simp [takeStrobe, putStrobe, takeByte, Parsed.andThen, takeNat_putNat]
  | _ => rfl

theorem takeReg_putReg (v : Reg) (rest : List Byte) : takeReg (putReg v ++ rest) = .ok (v, rest) := by
  cases v with
  | identity n => simp [takeReg, putReg, takeByte, Parsed.andThen, takeNat_putNat]
  | config n => simp [takeReg, putReg, takeByte, Parsed.andThen, takeNat_putNat]
  | _ => rfl

theorem takeBytes_putBytes (v : List Byte) (rest : List Byte) : takeBytes (putBytes v ++ rest) = .ok
    (v, rest) := by
  induction v with
  | nil => cases rest <;> simp [putBytes, takeBytes]
  | cons b bs ih => simp [putBytes, takeBytes, ih, Parsed.andThen]

theorem takeOption_putOption (v : Option Byte) (rest : List Byte) : takeOption (putOption v ++ rest) = .ok
    (v, rest) := by
  cases v <;> simp [putOption, takeOption, takeByte, Parsed.andThen]

theorem andThen_ok {α β : Type} {r : Parsed α} {f : α → List Byte → Parsed β} {x} (h : r.andThen f = .ok x) :
    ∃ a bs, r = .ok (a, bs) ∧ f a bs = .ok x := by
  unfold Parsed.andThen at h
  split at h
  · exact ⟨_, _, rfl, h⟩
  · cases h

end Sys2Proof
end

