-- ==== Sys2Proof/Laws/State.lean ====
section
/-! SUPPORT. What each named update of State does to each part of it, so that no later proof unfolds a
record update. -/

namespace Sys2Proof.Machine

@[simp] theorem logBus_cfg (e : BusEvent) (s : State) : (logBus e s).cfg = s.cfg := rfl
@[simp] theorem logBus_drv (e : BusEvent) (s : State) : (logBus e s).drv = s.drv := rfl
@[simp] theorem logBus_enc (e : BusEvent) (s : State) : (logBus e s).enc = s.enc := rfl
@[simp] theorem logBus_dec (e : BusEvent) (s : State) : (logBus e s).dec = s.dec := rfl
@[simp] theorem logBus_ses (e : BusEvent) (s : State) : (logBus e s).ses = s.ses := rfl
@[simp] theorem logBus_ghost (e : BusEvent) (s : State) : (logBus e s).ghost = { s.ghost with bus_log := s.ghost.bus_log ++ [e] } := rfl
@[simp] theorem logBus_env (e : BusEvent) (s : State) : (logBus e s).env = s.env := rfl
@[simp] theorem logBus_host (e : BusEvent) (s : State) : (logBus e s).host = s.host := rfl

@[simp] theorem logLine_cfg (e : LineEvent) (s : State) : (logLine e s).cfg = s.cfg := rfl
@[simp] theorem logLine_drv (e : LineEvent) (s : State) : (logLine e s).drv = s.drv := rfl
@[simp] theorem logLine_enc (e : LineEvent) (s : State) : (logLine e s).enc = s.enc := rfl
@[simp] theorem logLine_dec (e : LineEvent) (s : State) : (logLine e s).dec = s.dec := rfl
@[simp] theorem logLine_ses (e : LineEvent) (s : State) : (logLine e s).ses = s.ses := rfl
@[simp] theorem logLine_ghost (e : LineEvent) (s : State) : (logLine e s).ghost = { s.ghost with line_log := s.ghost.line_log ++ [e] } := rfl
@[simp] theorem logLine_env (e : LineEvent) (s : State) : (logLine e s).env = s.env := rfl
@[simp] theorem logLine_host (e : LineEvent) (s : State) : (logLine e s).host = s.host := rfl

@[simp] theorem logTx_cfg (l : TriLevel) (d : Nat) (s : State) : (logTx l d s).cfg = s.cfg := rfl
@[simp] theorem logTx_drv (l : TriLevel) (d : Nat) (s : State) : (logTx l d s).drv = s.drv := rfl
@[simp] theorem logTx_enc (l : TriLevel) (d : Nat) (s : State) : (logTx l d s).enc = s.enc := rfl
@[simp] theorem logTx_dec (l : TriLevel) (d : Nat) (s : State) : (logTx l d s).dec = s.dec := rfl
@[simp] theorem logTx_ses (l : TriLevel) (d : Nat) (s : State) : (logTx l d s).ses = s.ses := rfl
@[simp] theorem logTx_ghost (l : TriLevel) (d : Nat) (s : State) : (logTx l d s).ghost = { s.ghost with tx_log := s.ghost.tx_log ++ [(l, d)] } := rfl
@[simp] theorem logTx_env (l : TriLevel) (d : Nat) (s : State) : (logTx l d s).env = s.env := rfl
@[simp] theorem logTx_host (l : TriLevel) (d : Nat) (s : State) : (logTx l d s).host = s.host := rfl

@[simp] theorem setSel_cfg (v : Select) (s : State) : (setSel v s).cfg = s.cfg := rfl
@[simp] theorem setSel_drv (v : Select) (s : State) : (setSel v s).drv = { s.drv with sel := v } := rfl
@[simp] theorem setSel_enc (v : Select) (s : State) : (setSel v s).enc = s.enc := rfl
@[simp] theorem setSel_dec (v : Select) (s : State) : (setSel v s).dec = s.dec := rfl
@[simp] theorem setSel_ses (v : Select) (s : State) : (setSel v s).ses = s.ses := rfl
@[simp] theorem setSel_ghost (v : Select) (s : State) : (setSel v s).ghost = { s.ghost with line_log := s.ghost.line_log ++ [.sel v] } := rfl
@[simp] theorem setSel_env (v : Select) (s : State) : (setSel v s).env = s.env := rfl
@[simp] theorem setSel_host (v : Select) (s : State) : (setSel v s).host = s.host := rfl

@[simp] theorem setSclk_cfg (v : Level) (s : State) : (setSclk v s).cfg = s.cfg := rfl
@[simp] theorem setSclk_drv (v : Level) (s : State) : (setSclk v s).drv = { s.drv with sclk := v } := rfl
@[simp] theorem setSclk_enc (v : Level) (s : State) : (setSclk v s).enc = s.enc := rfl
@[simp] theorem setSclk_dec (v : Level) (s : State) : (setSclk v s).dec = s.dec := rfl
@[simp] theorem setSclk_ses (v : Level) (s : State) : (setSclk v s).ses = s.ses := rfl
@[simp] theorem setSclk_ghost (v : Level) (s : State) : (setSclk v s).ghost = { s.ghost with line_log := s.ghost.line_log ++ [.sclk v] } := rfl
@[simp] theorem setSclk_env (v : Level) (s : State) : (setSclk v s).env = s.env := rfl
@[simp] theorem setSclk_host (v : Level) (s : State) : (setSclk v s).host = s.host := rfl

@[simp] theorem setSdo_cfg (v : Level) (s : State) : (setSdo v s).cfg = s.cfg := rfl
@[simp] theorem setSdo_drv (v : Level) (s : State) : (setSdo v s).drv = { s.drv with sdo := v } := rfl
@[simp] theorem setSdo_enc (v : Level) (s : State) : (setSdo v s).enc = s.enc := rfl
@[simp] theorem setSdo_dec (v : Level) (s : State) : (setSdo v s).dec = s.dec := rfl
@[simp] theorem setSdo_ses (v : Level) (s : State) : (setSdo v s).ses = s.ses := rfl
@[simp] theorem setSdo_ghost (v : Level) (s : State) : (setSdo v s).ghost = { s.ghost with line_log := s.ghost.line_log ++ [.sdo v] } := rfl
@[simp] theorem setSdo_env (v : Level) (s : State) : (setSdo v s).env = s.env := rfl
@[simp] theorem setSdo_host (v : Level) (s : State) : (setSdo v s).host = s.host := rfl

@[simp] theorem setPins_cfg (m : PinMode) (s : State) : (setPins m s).cfg = s.cfg := rfl
@[simp] theorem setPins_drv (m : PinMode) (s : State) : (setPins m s).drv = { s.drv with pin_mode := m } := rfl
@[simp] theorem setPins_enc (m : PinMode) (s : State) : (setPins m s).enc = s.enc := rfl
@[simp] theorem setPins_dec (m : PinMode) (s : State) : (setPins m s).dec = s.dec := rfl
@[simp] theorem setPins_ses (m : PinMode) (s : State) : (setPins m s).ses = s.ses := rfl
@[simp] theorem setPins_ghost (m : PinMode) (s : State) : (setPins m s).ghost = { s.ghost with line_log := s.ghost.line_log ++ [.pins m] } := rfl
@[simp] theorem setPins_env (m : PinMode) (s : State) : (setPins m s).env = s.env := rfl
@[simp] theorem setPins_host (m : PinMode) (s : State) : (setPins m s).host = s.host := rfl

@[simp] theorem setPhase_cfg (p : DrvPhase) (s : State) : (setPhase p s).cfg = s.cfg := rfl
@[simp] theorem setPhase_drv (p : DrvPhase) (s : State) : (setPhase p s).drv = { s.drv with drv_phase := p } := rfl
@[simp] theorem setPhase_enc (p : DrvPhase) (s : State) : (setPhase p s).enc = s.enc := rfl
@[simp] theorem setPhase_dec (p : DrvPhase) (s : State) : (setPhase p s).dec = s.dec := rfl
@[simp] theorem setPhase_ses (p : DrvPhase) (s : State) : (setPhase p s).ses = s.ses := rfl
@[simp] theorem setPhase_ghost (p : DrvPhase) (s : State) : (setPhase p s).ghost = s.ghost := rfl
@[simp] theorem setPhase_env (p : DrvPhase) (s : State) : (setPhase p s).env = s.env := rfl
@[simp] theorem setPhase_host (p : DrvPhase) (s : State) : (setPhase p s).host = s.host := rfl

@[simp] theorem delay_cfg (d : Nat) (s : State) : (delay d s).cfg = s.cfg := rfl
@[simp] theorem delay_drv (d : Nat) (s : State) : (delay d s).drv = s.drv := rfl
@[simp] theorem delay_enc (d : Nat) (s : State) : (delay d s).enc = s.enc := rfl
@[simp] theorem delay_dec (d : Nat) (s : State) : (delay d s).dec = s.dec := rfl
@[simp] theorem delay_ses (d : Nat) (s : State) : (delay d s).ses = s.ses := rfl
@[simp] theorem delay_ghost (d : Nat) (s : State) : (delay d s).ghost = { s.ghost with line_log := s.ghost.line_log ++ [.delay d] } := rfl
@[simp] theorem delay_env (d : Nat) (s : State) : (delay d s).env = { s.env with now := s.env.now + d } := rfl
@[simp] theorem delay_host (d : Nat) (s : State) : (delay d s).host = s.host := rfl

@[simp] theorem selAssert_cfg (s : State) : (selAssert s).cfg = s.cfg := rfl
@[simp] theorem selAssert_drv (s : State) : (selAssert s).drv = { s.drv with sel := .asserted } := rfl
@[simp] theorem selAssert_enc (s : State) : (selAssert s).enc = s.enc := rfl
@[simp] theorem selAssert_dec (s : State) : (selAssert s).dec = s.dec := rfl
@[simp] theorem selAssert_ses (s : State) : (selAssert s).ses = s.ses := rfl
@[simp] theorem selAssert_ghost (s : State) : (selAssert s).ghost = { s.ghost with bus_log := s.ghost.bus_log ++ [.selOn], line_log := s.ghost.line_log ++ [.sel .asserted] } := rfl
@[simp] theorem selAssert_env (s : State) : (selAssert s).env = s.env := rfl
@[simp] theorem selAssert_host (s : State) : (selAssert s).host = s.host := rfl

@[simp] theorem selRelease_cfg (s : State) : (selRelease s).cfg = s.cfg := rfl
@[simp] theorem selRelease_drv (s : State) : (selRelease s).drv = { s.drv with sel := .released } := rfl
@[simp] theorem selRelease_enc (s : State) : (selRelease s).enc = s.enc := rfl
@[simp] theorem selRelease_dec (s : State) : (selRelease s).dec = s.dec := rfl
@[simp] theorem selRelease_ses (s : State) : (selRelease s).ses = s.ses := rfl
@[simp] theorem selRelease_ghost (s : State) : (selRelease s).ghost = { s.ghost with bus_log := s.ghost.bus_log ++ [.selOff], line_log := s.ghost.line_log ++ [.sel .released] } := rfl
@[simp] theorem selRelease_env (s : State) : (selRelease s).env = s.env := rfl
@[simp] theorem selRelease_host (s : State) : (selRelease s).host = s.host := rfl

@[simp] theorem returnWith_cfg (r : Ret) (s : State) : (returnWith r s).cfg = s.cfg := rfl
@[simp] theorem returnWith_drv (r : Ret) (s : State) : (returnWith r s).drv = s.drv := rfl
@[simp] theorem returnWith_enc (r : Ret) (s : State) : (returnWith r s).enc = s.enc := rfl
@[simp] theorem returnWith_dec (r : Ret) (s : State) : (returnWith r s).dec = s.dec := rfl
@[simp] theorem returnWith_ses (r : Ret) (s : State) : (returnWith r s).ses = s.ses := rfl
@[simp] theorem returnWith_ghost (r : Ret) (s : State) : (returnWith r s).ghost = s.ghost := rfl
@[simp] theorem returnWith_env (r : Ret) (s : State) : (returnWith r s).env = s.env := rfl
@[simp] theorem returnWith_host (r : Ret) (s : State) : (returnWith r s).host = { s.host with ret := r } := rfl

@[simp] theorem raise_cfg (c : Condition) (s : State) : (raise c s).cfg = s.cfg := rfl
@[simp] theorem raise_drv (c : Condition) (s : State) : (raise c s).drv = s.drv := rfl
@[simp] theorem raise_enc (c : Condition) (s : State) : (raise c s).enc = s.enc := rfl
@[simp] theorem raise_dec (c : Condition) (s : State) : (raise c s).dec = s.dec := rfl
@[simp] theorem raise_ses (c : Condition) (s : State) : (raise c s).ses = { s.ses with sess_phase := if fatal c then .halted else s.ses.sess_phase } := rfl
@[simp] theorem raise_ghost (c : Condition) (s : State) : (raise c s).ghost = s.ghost := rfl
@[simp] theorem raise_env (c : Condition) (s : State) : (raise c s).env = s.env := rfl
@[simp] theorem raise_host (c : Condition) (s : State) : (raise c s).host = { s.host with ret := .raised c, pend := [] } := rfl

@[simp] theorem setDState_cfg (d : DState) (s : State) : (setDState d s).cfg = s.cfg := rfl
@[simp] theorem setDState_drv (d : DState) (s : State) : (setDState d s).drv = s.drv := rfl
@[simp] theorem setDState_enc (d : DState) (s : State) : (setDState d s).enc = s.enc := rfl
@[simp] theorem setDState_dec (d : DState) (s : State) : (setDState d s).dec = { s.dec with dstate := d } := rfl
@[simp] theorem setDState_ses (d : DState) (s : State) : (setDState d s).ses = s.ses := rfl
@[simp] theorem setDState_ghost (d : DState) (s : State) : (setDState d s).ghost = s.ghost := rfl
@[simp] theorem setDState_env (d : DState) (s : State) : (setDState d s).env = s.env := rfl
@[simp] theorem setDState_host (d : DState) (s : State) : (setDState d s).host = s.host := rfl

@[simp] theorem enterBit0_cfg (ts : Nat) (s : State) : (enterBit0 ts s).cfg = s.cfg := rfl
@[simp] theorem enterBit0_drv (ts : Nat) (s : State) : (enterBit0 ts s).drv = s.drv := rfl
@[simp] theorem enterBit0_enc (ts : Nat) (s : State) : (enterBit0 ts s).enc = s.enc := rfl
@[simp] theorem enterBit0_dec (ts : Nat) (s : State) : (enterBit0 ts s).dec = { s.dec with dstate := .bitH 0, rx_ts := ts, acc := 0 } := rfl
@[simp] theorem enterBit0_ses (ts : Nat) (s : State) : (enterBit0 ts s).ses = s.ses := rfl
@[simp] theorem enterBit0_ghost (ts : Nat) (s : State) : (enterBit0 ts s).ghost = s.ghost := rfl
@[simp] theorem enterBit0_env (ts : Nat) (s : State) : (enterBit0 ts s).env = s.env := rfl
@[simp] theorem enterBit0_host (ts : Nat) (s : State) : (enterBit0 ts s).host = s.host := rfl

@[simp] theorem emit_cfg (s : State) : (emit s).cfg = s.cfg := rfl
@[simp] theorem emit_drv (s : State) : (emit s).drv = s.drv := rfl
@[simp] theorem emit_enc (s : State) : (emit s).enc = s.enc := rfl
@[simp] theorem emit_dec (s : State) : (emit s).dec = s.dec := rfl
@[simp] theorem emit_ses (s : State) : (emit s).ses = s.ses := rfl
@[simp] theorem emit_ghost (s : State) : (emit s).ghost = { s.ghost with rx_out := s.ghost.rx_out ++ [(s.dec.acc, s.dec.rx_ts)] } := rfl
@[simp] theorem emit_env (s : State) : (emit s).env = s.env := rfl
@[simp] theorem emit_host (s : State) : (emit s).host = s.host := rfl

@[simp] theorem drive_cfg (g : Segment) (s : State) : (drive g s).cfg = s.cfg := rfl
@[simp] theorem drive_drv (g : Segment) (s : State) : (drive g s).drv = s.drv := rfl
@[simp] theorem drive_enc (g : Segment) (s : State) : (drive g s).enc = { s.enc with tx_level := g.1 } := rfl
@[simp] theorem drive_dec (g : Segment) (s : State) : (drive g s).dec = s.dec := rfl
@[simp] theorem drive_ses (g : Segment) (s : State) : (drive g s).ses = s.ses := rfl
@[simp] theorem drive_ghost (g : Segment) (s : State) : (drive g s).ghost = { s.ghost with tx_log := s.ghost.tx_log ++ [(triOf g.1, g.2)] } := rfl
@[simp] theorem drive_env (g : Segment) (s : State) : (drive g s).env = { s.env with now := s.env.now + g.2 } := rfl
@[simp] theorem drive_host (g : Segment) (s : State) : (drive g s).host = s.host := rfl

@[simp] theorem lineOn_cfg (s : State) : (lineOn s).cfg = s.cfg := rfl
@[simp] theorem lineOn_drv (s : State) : (lineOn s).drv = s.drv := rfl
@[simp] theorem lineOn_enc (s : State) : (lineOn s).enc = { s.enc with tx_mode := .driven, tx_level := .low } := rfl
@[simp] theorem lineOn_dec (s : State) : (lineOn s).dec = s.dec := rfl
@[simp] theorem lineOn_ses (s : State) : (lineOn s).ses = s.ses := rfl
@[simp] theorem lineOn_ghost (s : State) : (lineOn s).ghost = { s.ghost with tx_log := s.ghost.tx_log ++ [(.low, 0)] } := rfl
@[simp] theorem lineOn_env (s : State) : (lineOn s).env = s.env := rfl
@[simp] theorem lineOn_host (s : State) : (lineOn s).host = s.host := rfl

@[simp] theorem lineOff_cfg (s : State) : (lineOff s).cfg = s.cfg := rfl
@[simp] theorem lineOff_drv (s : State) : (lineOff s).drv = s.drv := rfl
@[simp] theorem lineOff_enc (s : State) : (lineOff s).enc = { s.enc with tx_mode := .hiz } := rfl
@[simp] theorem lineOff_dec (s : State) : (lineOff s).dec = s.dec := rfl
@[simp] theorem lineOff_ses (s : State) : (lineOff s).ses = s.ses := rfl
@[simp] theorem lineOff_ghost (s : State) : (lineOff s).ghost = { s.ghost with tx_log := s.ghost.tx_log ++ [(.z, 0)] } := rfl
@[simp] theorem lineOff_env (s : State) : (lineOff s).env = s.env := rfl
@[simp] theorem lineOff_host (s : State) : (lineOff s).host = s.host := rfl

end Sys2Proof.Machine
end

