-- ==== Sys2Proof/Laws/Ops.lean ====
section
/-! SUPPORT. One law per shared operation: drawing an input, shifting a byte, INIT's pulse, driving
segments, frames and bursts, and accepting a call. -/

namespace Sys2Proof.Machine

/-! ## Inputs -/

theorem Feed.draw_fst {α : Type} (free : Nat → α) (f : Feed α) : (f.draw free).1 = f.ahead free 0 := by
  rcases f with ⟨_ | ⟨x, xs⟩, n⟩ <;> simp [Feed.draw, Feed.ahead]

theorem Feed.draw_snd {α : Type} (free : Nat → α) (f : Feed α) : (f.draw free).2 = Feed.after free 1 f := rfl

theorem Feed.ahead_draw {α : Type} (free : Nat → α) (f : Feed α) (k : Nat) :
    (f.draw free).2.ahead free k = f.ahead free (k + 1) := by
  rcases f with ⟨_ | ⟨x, xs⟩, n⟩
  · simp only [Feed.draw, Feed.ahead, List.getElem?_nil, List.length_nil]
    congr 1
    omega
  · simp [Feed.draw, Feed.ahead]

@[simp] theorem Feed.ahead_after {α : Type} (free : Nat → α) (n : Nat) (f : Feed α) (k : Nat) :
    (Feed.after free n f).ahead free k = f.ahead free (n + k) := by
  induction n generalizing f with
  | zero => simp [Feed.after]
  | succ n ih =>
    rw [Feed.after, ih, Feed.ahead_draw]
    congr 1
    omega

@[simp] theorem Feed.after_after {α : Type} (free : Nat → α) (m n : Nat) (f : Feed α) :
    Feed.after free m (Feed.after free n f) = Feed.after free (n + m) f := by
  induction n generalizing f with
  | zero => simp [Feed.after]
  | succ n ih => rw [Feed.after, ih, Nat.succ_add, Feed.after]

theorem drawRdy_eq (s : State) :
    drawRdy s = (rdyAhead s 0, { s with env := { s.env with rdy := Feed.after Config.freeRdy 1 s.env.rdy } }) := by
  simp [drawRdy, rdyAhead, Feed.draw_fst, Feed.draw_snd]

theorem drawCancel_eq (s : State) :
    drawCancel s =
      (cancelNext s, { s with env := { s.env with cancel := Feed.after Config.freeCancel 1 s.env.cancel } }) := by
  simp [drawCancel, cancelNext, Feed.draw_fst, Feed.draw_snd]

theorem drawRx_eq (s : State) :
    drawRx s = ((rxNext s).lvl, { s with env := { s.env with
      rx := Feed.after Config.freeRx 1 s.env.rx, now := s.env.now + (rxNext s).dt } }) := by
  simp [drawRx, rxNext, Feed.draw_fst, Feed.draw_snd]

theorem ReadyFor.head {n : Nat} {s : State} (h : ReadyFor (n + 1) s) : rdyAhead s 0 = .low := h 0 (by omega)

/-! ## One byte on the wires -/

/-- Eight shifts fill the register with the byte shifted in. -/
theorem shiftReg_eq (x v : Byte) :
    (((((((x <<< 1 ||| BitVec.setWidth 8 (BitVec.ofBool (v.getLsbD 7))) <<< 1 |||
      BitVec.setWidth 8 (BitVec.ofBool (v.getLsbD 6))) <<< 1 |||
      BitVec.setWidth 8 (BitVec.ofBool (v.getLsbD 5))) <<< 1 |||
      BitVec.setWidth 8 (BitVec.ofBool (v.getLsbD 4))) <<< 1 |||
      BitVec.setWidth 8 (BitVec.ofBool (v.getLsbD 3))) <<< 1 |||
      BitVec.setWidth 8 (BitVec.ofBool (v.getLsbD 2))) <<< 1 |||
      BitVec.setWidth 8 (BitVec.ofBool (v.getLsbD 1))) <<< 1 |||
      BitVec.setWidth 8 (BitVec.ofBool (v.getLsbD 0)) = v := by
  ext i hi
  have : i = 0 ∨ i = 1 ∨ i = 2 ∨ i = 3 ∨ i = 4 ∨ i = 5 ∨ i = 6 ∨ i = 7 := by omega
  rcases this with rfl | rfl | rfl | rfl | rfl | rfl | rfl | rfl <;>
    simp [BitVec.getElem_shiftLeft, BitVec.getLsbD_eq_getElem]

/-- The drv part after a byte `b` went out and `v` came in. -/
def Busdrv.shifted (d : Busdrv) (b v : Byte) : Busdrv :=
  { d with sh_out := b, sh_in := v, sclk := .high, sdo := levelOf (b.getLsbD 0) }

@[simp] theorem Busdrv.shifted_sel (d : Busdrv) (b v : Byte) : (d.shifted b v).sel = d.sel := rfl
@[simp] theorem Busdrv.shifted_sclk (d : Busdrv) (b v : Byte) : (d.shifted b v).sclk = .high := rfl
@[simp] theorem Busdrv.shifted_sh_in (d : Busdrv) (b v : Byte) : (d.shifted b v).sh_in = v := rfl
@[simp] theorem Busdrv.shifted_sh_out (d : Busdrv) (b v : Byte) : (d.shifted b v).sh_out = b := rfl
@[simp] theorem Busdrv.shifted_pin_mode (d : Busdrv) (b v : Byte) : (d.shifted b v).pin_mode = d.pin_mode := rfl
@[simp] theorem Busdrv.shifted_drv_phase (d : Busdrv) (b v : Byte) : (d.shifted b v).drv_phase = d.drv_phase := rfl
@[simp] theorem Busdrv.shifted_drv_init (d : Busdrv) (b v : Byte) : (d.shifted b v).drv_init = d.drv_init := rfl

theorem xfer_eq (b : Byte) (s : State) : xfer b s =
    { s with
      drv := s.drv.shifted b (sdiAhead s 0)
      env := { s.env with sdi := Feed.after Config.freeSdi 1 s.env.sdi }
      ghost := { s.ghost with line_log := s.ghost.line_log ++ byteLines b } } := by
  simp only [xfer, List.foldl, shiftBit, setSdo, setSclk, logLine, drawSdi, byteLines, List.flatMap_cons,
    List.flatMap_nil, List.append_assoc, List.cons_append, List.nil_append, List.append_nil, shiftReg_eq,
    Feed.draw_fst, sdiAhead, Feed.after, Busdrv.shifted]

theorem txByte_eq (b : Byte) (s : State) : txByte b s =
    { s with
      drv := s.drv.shifted b (sdiAhead s 0)
      env := { s.env with sdi := Feed.after Config.freeSdi 1 s.env.sdi }
      ghost := { s.ghost with
        bus_log := s.ghost.bus_log ++ [.tx b], line_log := s.ghost.line_log ++ byteLines b } } := by
  simp [txByte, xfer_eq, logBus]

theorem rxByte_eq (s : State) : rxByte s =
    { s with
      drv := s.drv.shifted s.cfg.dummy_tx (sdiAhead s 0)
      env := { s.env with sdi := Feed.after Config.freeSdi 1 s.env.sdi }
      ghost := { s.ghost with
        bus_log := s.ghost.bus_log ++ [.rx (sdiAhead s 0)]
        line_log := s.ghost.line_log ++ byteLines s.cfg.dummy_tx } } := by
  simp [rxByte, xfer_eq, logBus]

theorem initPulse_eq (s : State) : initPulse s =
    { s with
      drv := { s.drv with
        sel := .released, sclk := .high, sdo := s.cfg.idle_sdo, pin_mode := .busctl, drv_init := true }
      ghost := { s.ghost with
        bus_log := s.ghost.bus_log ++ [.resetPulse]
        line_log := s.ghost.line_log ++
          [.pins .gpio, .sel .released, .sclk s.cfg.idle_sclk, .sdo s.cfg.idle_sdo, .sel .asserted,
            .delay s.cfg.t_reset_select_us, .sel .released, .delay s.cfg.t_reset_settle_us,
            .pins .busctl, .sclk .high] }
      env := { s.env with now := s.env.now + s.cfg.t_reset_select_us + s.cfg.t_reset_settle_us } } := by
  simp [initPulse, setPins, setSdo, setSclk, setSel, delay, logLine, logBus]

/-! ## Entry checks -/

theorem busEntry_eq_none {s : State} : busEntry s = none ↔ BusUsable s := by
  cases h1 : s.drv.drv_init <;> by_cases h2 : s.drv.drv_phase = .idle <;> cases h3 : configOk s.cfg <;>
    simp [busEntry, BusUsable, h1, h2, h3]

theorem initEntry_eq_none {s : State} : initEntry s = none ↔ s.drv.drv_init = false ∧ configOk s.cfg = true := by
  cases h1 : s.drv.drv_init <;> cases h3 : configOk s.cfg <;> simp [initEntry, h1, h3]

theorem accept_of_canCall {s : State} (h : CanCall s) (f : State → Host.Outcome State Fault Refusal) :
    accept s f = f (returnWith .none s) := by
  simp [accept, h.1, h.2.1, h.2.2]

theorem accept_halted {s : State} (h : s.ses.sess_phase = .halted) (f : State → Host.Outcome State Fault Refusal) :
    accept s f = .refused .halted := by
  simp [accept, h]

theorem accept_busy {s : State} (hh : s.ses.sess_phase ≠ .halted)
    (hb : s.ses.sess_phase ≠ .idle ∨ s.host.pend ≠ []) (f : State → Host.Outcome State Fault Refusal) :
    accept s f = .refused .callInProgress := by
  unfold accept
  split
  · contradiction
  · simp_all
  · simp_all
  · rfl

theorem accept_mid {s : State} (hi : s.ses.sess_phase = .idle) (hp : s.host.pend = []) (hd : s.drv.drv_phase ≠ .idle)
    (f : State → Host.Outcome State Fault Refusal) : accept s f = .refused .transactionInFlight := by
  unfold accept
  split <;> simp_all

/-- What a call does makes no difference where none is accepted. -/
theorem accept_refused {s : State} (h : ¬ CanCall s) :
    ∃ r, ∀ f : State → Host.Outcome State Fault Refusal, accept s f = .refused r := by
  by_cases hh : s.ses.sess_phase = .halted
  · exact ⟨_, accept_halted hh⟩
  by_cases hb : s.ses.sess_phase ≠ .idle ∨ s.host.pend ≠ []
  · exact ⟨_, accept_busy hh hb⟩
  · have hb := not_or.1 hb
    exact ⟨_, accept_mid (not_not.1 hb.1) (not_not.1 hb.2) fun hd => h ⟨not_not.1 hb.1, not_not.1 hb.2, hd⟩⟩

/-- An accepted call is the only way to a next state. -/
theorem accept_next {s t : State} {f : State → Host.Outcome State Fault Refusal} (h : accept s f = .next t) :
    CanCall s ∧ f (returnWith .none s) = .next t := by
  unfold accept at h
  split at h
  · cases h
  · exact ⟨⟨‹_›, ‹_›, ‹_›⟩, h⟩
  · cases h
  · cases h

/-! ## Driving the line -/

@[simp] theorem duration_nil : duration [] = 0 := rfl

@[simp] theorem duration_cons (g : Segment) (gs : List Segment) : duration (g :: gs) = g.2 + duration gs := by
  simp [duration]

@[simp] theorem duration_append (gs hs : List Segment) : duration (gs ++ hs) = duration gs + duration hs := by
  simp [duration]

@[simp] theorem segmentLog_append (gs hs : List Segment) : segmentLog (gs ++ hs) = segmentLog gs ++ segmentLog hs := by
  simp [segmentLog]

/-- The level a waveform leaves on the line. -/
def endLevel (l : Level) (gs : List Segment) : Level := gs.foldl (fun _ g => g.1) l

@[simp] theorem endLevel_append (l : Level) (gs hs : List Segment) :
    endLevel l (gs ++ hs) = endLevel (endLevel l gs) hs := by
  simp [endLevel]

theorem driveAll_eq (gs : List Segment) (s : State) : driveAll gs s =
    { s with
      enc := { s.enc with tx_level := endLevel s.enc.tx_level gs }
      env := { s.env with now := s.env.now + duration gs }
      ghost := { s.ghost with tx_log := s.ghost.tx_log ++ segmentLog gs } } := by
  induction gs generalizing s with
  | nil => simp [driveAll, endLevel, segmentLog]
  | cons g gs ih =>
    have := ih (drive g s)
    simp only [driveAll, List.foldl_cons] at this ⊢
    rw [this]
    simp [drive, logTx, endLevel, segmentLog, Nat.add_assoc]

theorem driveFrom_eq (gs : List Segment) (k : Nat) (s : State) : driveFrom k gs s =
    { s with
      enc := { s.enc with tx_level := endLevel s.enc.tx_level gs, seg_idx := none }
      env := { s.env with now := s.env.now + duration gs }
      ghost := { s.ghost with tx_log := s.ghost.tx_log ++ segmentLog gs } } := by
  induction gs generalizing k s with
  | nil => simp [driveFrom, endLevel, segmentLog]
  | cons g gs ih =>
    rw [driveFrom, ih]
    simp [drive, logTx, endLevel, segmentLog, Nat.add_assoc]

@[simp] theorem endLevel_bitCell (l : Level) (b : Bool) : endLevel l (bitCell b) = .low := by
  cases b <;> rfl

@[simp] theorem duration_bitCell (b : Bool) : duration (bitCell b) = 1099 := by
  cases b <;> rfl

/-- Cells of any bits leave the line LOW, if it was LOW or there is a cell. -/
theorem endLevel_cells (bits : List Bool) : endLevel .low (bits.flatMap bitCell) = .low := by
  induction bits with
  | nil => rfl
  | cons b bits ih => rw [List.flatMap_cons, endLevel_append, endLevel_bitCell, ih]

theorem duration_cells (bits : List Bool) : duration (bits.flatMap bitCell) = 1099 * bits.length := by
  induction bits with
  | nil => rfl
  | cons b bits ih =>
    rw [List.flatMap_cons, duration_append, duration_bitCell, ih, List.length_cons]
    omega

/-- The bits of a packet in the order they are sent. -/
def packetBits (p : Packet) : List Bool := (List.range 40).map fun k => p.getLsbD (39 - k)

@[simp] theorem length_packetBits (p : Packet) : (packetBits p).length = 40 := by simp [packetBits]

theorem packetCells_eq (p : Packet) : packetCells p = (packetBits p).flatMap bitCell := by
  simp [packetCells, packetBits, List.flatMap_map]

theorem duration_packetCells (p : Packet) : duration (packetCells p) = 43960 := by
  rw [packetCells_eq, duration_cells, length_packetBits]

theorem frame_eq (p : Packet) :
    frame p = (.low, 8796) :: (.high, 4758) :: (.low, 1466) :: (packetBits p).flatMap bitCell := by
  rw [frame, packetCells_eq]
  rfl

@[simp] theorem duration_frame (p : Packet) : duration (frame p) = 58980 := by
  rw [frame_eq]
  simp [duration_cells]

@[simp] theorem endLevel_frame (l : Level) (p : Packet) : endLevel l (frame p) = .low := by
  rw [frame_eq]
  exact endLevel_cells _

theorem sendFrame_eq (p : Packet) (s : State) : sendFrame p s =
    { s with
      enc := { s.enc with tx_pkt := p, tx_level := .low, seg_idx := none }
      env := { s.env with now := s.env.now + 58980 }
      ghost := { s.ghost with tx_log := s.ghost.tx_log ++ segmentLog (frame p) } } := by
  simp [sendFrame, driveFrom_eq]

theorem sendCells_eq (p : Packet) (s : State) : sendCells p s =
    { s with
      enc := { s.enc with tx_pkt := p, tx_level := endLevel s.enc.tx_level (packetCells p), seg_idx := none }
      env := { s.env with now := s.env.now + 43960 }
      ghost := { s.ghost with tx_log := s.ghost.tx_log ++ segmentLog (packetCells p) } } := by
  simp [sendCells, driveFrom_eq, duration_packetCells]

theorem burstFrame_eq (p : Packet) (s : State) : burstFrame p s =
    { s with
      enc := { s.enc with tx_pkt := p, tx_level := .low, seg_idx := none, rep_cnt := s.enc.rep_cnt + 1 }
      env := { s.env with now := s.env.now + 58980 }
      ghost := { s.ghost with tx_log := s.ghost.tx_log ++ segmentLog (frame p) } } := by
  simp only [burstFrame, sendFrame_eq]

/-! ## The decoder -/

/-- `match` as two bounds. -/
theorem matchUs_iff (d t b : Nat) : matchUs d t b = true ↔ d < t + b ∧ t < d + b := by
  rw [matchUs, decide_eq_true_eq]
  omega

/-- The windows as bounds (R104). -/
theorem inStartH_iff (el : Nat) : inStartH el = true ↔ 4159 ≤ el ∧ el ≤ 5357 := by
  rw [inStartH, matchUs_iff]
  simp only [START_HI_MULT, START_HI_BUDGET, SHORT_US, TOL_US]
  omega

theorem inStartL_iff (el : Nat) : inStartL el = true ↔ 1107 ≤ el ∧ el ≤ 1825 := by
  rw [inStartL, matchUs_iff]
  simp only [START_LO_MULT, START_LO_BUDGET, LONG_US, TOL_US]
  omega

theorem inLong_iff (el : Nat) : inLong el = true ↔ 614 ≤ el ∧ el ≤ 852 := by
  rw [inLong, matchUs_iff]
  simp only [BIT_BUDGET, LONG_US, TOL_US]
  omega

theorem inShort_iff (el : Nat) : inShort el = true ↔ 247 ≤ el ∧ el ≤ 485 := by
  rw [inShort, matchUs_iff]
  simp only [BIT_BUDGET, SHORT_US, TOL_US]
  omega

/-- An arm of the transition function writes the decoder's registers and `rx_out`, and nothing else. -/
theorem transition_frame (lvl : Level) (ts el : Nat) (s : State) :
    ∃ d rx, transition lvl ts el s = { s with dec := d, ghost := { s.ghost with rx_out := rx } } ∧
      s.ghost.rx_out <+: rx ∧ d.prev_level = s.dec.prev_level ∧ d.prev_ts = s.dec.prev_ts ∧
      d.last_edge = s.dec.last_edge := by
  unfold transition
  split <;> (try unfold classify) <;> (try unfold complement) <;> (repeat' split) <;>
    first
    | exact ⟨_, s.ghost.rx_out, rfl, List.prefix_rfl, rfl, rfl, rfl⟩
    | exact ⟨_, _, rfl, List.prefix_append _ _, rfl, rfl, rfl⟩

/-- An edge event writes the decoder's registers and `rx_out`, and nothing else. -/
theorem takeEdge_frame (lvl : Level) (ts el : Nat) (s : State) :
    ∃ d rx, takeEdge lvl ts el s = { s with dec := d, ghost := { s.ghost with rx_out := rx } } ∧
      s.ghost.rx_out <+: rx ∧ d.prev_level = s.dec.prev_level ∧ d.prev_ts = s.dec.prev_ts ∧
      d.last_edge = some (lvl, ts) :=
  transition_frame lvl ts el { s with dec := { s.dec with last_edge := some (lvl, ts) } }

/-- One sample of the line writes the decoder's registers, `rx_out`, the time and the sample used. -/
theorem pollLine_frame (s : State) :
    ∃ d rx, pollLine s = { s with
        dec := d
        ghost := { s.ghost with rx_out := rx }
        env := { s.env with
          rx := Feed.after Config.freeRx 1 s.env.rx, now := s.env.now + (rxNext s).dt } } ∧
      s.ghost.rx_out <+: rx ∧ (d.prev_ts = s.dec.prev_ts ∨ d.prev_ts = s.env.now + (rxNext s).dt) := by
  simp only [pollLine, drawRx_eq]
  split
  · obtain ⟨d, rx, h, hp, -, ht, -⟩ := takeEdge_frame (rxNext s).lvl (s.env.now + (rxNext s).dt)
      (s.env.now + (rxNext s).dt - s.dec.prev_ts)
      { s with
        dec := { s.dec with prev_level := (rxNext s).lvl, prev_ts := s.env.now + (rxNext s).dt }
        env := { s.env with
          rx := Feed.after Config.freeRx 1 s.env.rx, now := s.env.now + (rxNext s).dt } }
    exact ⟨d, rx, h, hp, .inr ht⟩
  · exact ⟨s.dec, s.ghost.rx_out, rfl, List.prefix_rfl, .inl rfl⟩

theorem takeEdge_host (lvl : Level) (ts el : Nat) (s : State) (h : HostSide) :
    takeEdge lvl ts el { s with host := h } = { takeEdge lvl ts el s with host := h } := by
  unfold takeEdge transition
  simp only
  split <;> (try simp only [classify, complement]) <;> (repeat' split) <;> rfl

theorem takeEdge_keeps_host (lvl : Level) (ts el : Nat) (s : State) : (takeEdge lvl ts el s).host = s.host := by
  obtain ⟨d, rx, e, -⟩ := takeEdge_frame lvl ts el s
  rw [e]

/-- What is left of a call plays no part in a sample of the line. -/
theorem pollLine_pend (s : State) (l : List Act) :
    { pollLine s with host := { (pollLine s).host with pend := l } } =
      pollLine { s with host := { s.host with pend := l } } := by
  have h : rxNext { s with host := { s.host with pend := l } } = rxNext s := rfl
  simp only [pollLine, drawRx_eq, h]
  split
  · rw [← takeEdge_host, takeEdge_keeps_host]
  · rfl

end Sys2Proof.Machine
end

