-- ==== Sys2Proof/Laws/PerInstr.lean ====
section
/-! SUPPORT. Per instruction: the first byte of a call tells its row (log entry 2). -/

namespace Sys2Proof.Laws.RowByte

/-- The first byte of an instruction's encoding stands for the instruction's row, and the operand bytes
follow it. -/
def Statement (i : Instr) : Prop :=
  ∃ b bs, encode i = b :: bs ∧ Op.ofCode b = some i.op ∧ bs = i.operands

theorem init : Statement .init := ⟨_, _, rfl, rfl, rfl⟩
theorem exec (st : Strobe) : Statement (.exec st) := ⟨_, _, rfl, rfl, rfl⟩
theorem read (r : Reg) : Statement (.read r) := ⟨_, _, rfl, rfl, rfl⟩
theorem write (r : Reg) (b : Byte) : Statement (.write r b) := ⟨_, _, rfl, rfl, rfl⟩
theorem wburst (r : Reg) (bs : List Byte) : Statement (.wburst r bs) := ⟨_, _, rfl, rfl, rfl⟩
theorem pfreq (mhz : Mhz) : Statement (.pfreq mhz) := ⟨_, _, rfl, rfl, rfl⟩
theorem pulse (lvl : Level) (d : Nat) : Statement (.pulse lvl d) := ⟨_, _, rfl, rfl, rfl⟩
theorem txframe (p : Packet) : Statement (.txframe p) := ⟨_, _, rfl, rfl, rfl⟩
theorem txburst (p : Packet) : Statement (.txburst p) := ⟨_, _, rfl, rfl, rfl⟩
theorem txen : Statement .txen := ⟨_, _, rfl, rfl, rfl⟩
theorem txdis : Statement .txdis := ⟨_, _, rfl, rfl, rfl⟩
theorem decreset : Statement .decreset := ⟨_, _, rfl, rfl, rfl⟩
theorem poll : Statement .poll := ⟨_, _, rfl, rfl, rfl⟩
theorem edge (lvl : Level) (ts el : Nat) : Statement (.edge lvl ts el) := ⟨_, _, rfl, rfl, rfl⟩
theorem setser (v : Serial) : Statement (.setser v) := ⟨_, _, rfl, rfl, rfl⟩
theorem setch (v : Byte) : Statement (.setch v) := ⟨_, _, rfl, rfl, rfl⟩
theorem send (c1 : Byte) (c2 : Option Byte) : Statement (.send c1 c2) := ⟨_, _, rfl, rfl, rfl⟩
theorem sniff : Statement .sniff := ⟨_, _, rfl, rfl, rfl⟩
theorem startup : Statement .startup := ⟨_, _, rfl, rfl, rfl⟩
theorem up : Statement .up := ⟨_, _, rfl, rfl, rfl⟩
theorem down : Statement .down := ⟨_, _, rfl, rfl, rfl⟩
theorem stop : Statement .stop := ⟨_, _, rfl, rfl, rfl⟩
theorem fmtS (st : Strobe) : Statement (.fmtS st) := ⟨_, _, rfl, rfl, rfl⟩
theorem fmtHRead (r : Reg) : Statement (.fmtHRead r) := ⟨_, _, rfl, rfl, rfl⟩
theorem fmtHWrite (r : Reg) : Statement (.fmtHWrite r) := ⟨_, _, rfl, rfl, rfl⟩
theorem fmtD (b : Byte) : Statement (.fmtD b) := ⟨_, _, rfl, rfl, rfl⟩
theorem fmtFreq (w : FreqWord) : Statement (.fmtFreq w) := ⟨_, _, rfl, rfl, rfl⟩
theorem fmtPacket (serial : Serial) (channel code : Byte) : Statement (.fmtPacket serial channel code) := ⟨_, _, rfl, rfl, rfl⟩
theorem codeUpPress : Statement .codeUpPress := ⟨_, _, rfl, rfl, rfl⟩
theorem codeUpRelease : Statement .codeUpRelease := ⟨_, _, rfl, rfl, rfl⟩
theorem codeDownPress : Statement .codeDownPress := ⟨_, _, rfl, rfl, rfl⟩
theorem codeDownRelease : Statement .codeDownRelease := ⟨_, _, rfl, rfl, rfl⟩
theorem codeStop : Statement .codeStop := ⟨_, _, rfl, rfl, rfl⟩
theorem symHeader : Statement .symHeader := ⟨_, _, rfl, rfl, rfl⟩
theorem symStart : Statement .symStart := ⟨_, _, rfl, rfl, rfl⟩
theorem symBit1 : Statement .symBit1 := ⟨_, _, rfl, rfl, rfl⟩
theorem symBit0 : Statement .symBit0 := ⟨_, _, rfl, rfl, rfl⟩
theorem winStartH (el : Nat) : Statement (.winStartH el) := ⟨_, _, rfl, rfl, rfl⟩
theorem winStartL (el : Nat) : Statement (.winStartL el) := ⟨_, _, rfl, rfl, rfl⟩
theorem winLong (el : Nat) : Statement (.winLong el) := ⟨_, _, rfl, rfl, rfl⟩
theorem winShort (el : Nat) : Statement (.winShort el) := ⟨_, _, rfl, rfl, rfl⟩

end Sys2Proof.Laws.RowByte
end

