-- ==== Sys2Proof/Laws/Run.lean ====
section
/-! SUPPORT. Laws of the actions and of a call as a whole: what each bus transaction does when the chip is
ready, where it is stuck when it is not, and, packaged once, the inductions by which a property is kept by every
step. -/

namespace Sys2Proof.Machine

/-! ## One entry of a call at a time -/

theorem run_go {a : Act} {k : List Act} {s s' : State} (h : actOn (actBound a) a s = .go s') :
    run (a :: k) s = run k s' := by
  rw [run, h]

theorem run_again {a : Act} {k : List Act} {s s' : State} (h : actOn (actBound a) a s = .again s') :
    run (a :: k) s = .next { s' with host := { s'.host with pend := a :: k } } := by
  rw [run, h]

theorem run_ended {a : Act} {k : List Act} {s s' : State} (h : actOn (actBound a) a s = .ended s') :
    run (a :: k) s = .next s' := by
  rw [run, h]

theorem run_refuse {a : Act} {k : List Act} {s : State} {r : Refusal} (h : actOn (actBound a) a s = .refuse r) :
    run (a :: k) s = .refused r := by
  rw [run, h]

theorem actOn_more {n : Nat} {a : Act} {s s' : State} (h : act a s = .more s') : actOn (n + 1) a s = actOn n a s' := by
  rw [actOn, h]

theorem actOn_go {n : Nat} {a : Act} {s s' : State} (h : act a s = .go s') : actOn n a s = .go s' := by
  cases n <;> simp [actOn, h]

theorem actOn_again {n : Nat} {a : Act} {s s' : State} (h : act a s = .again s') : actOn n a s = .again s' := by
  cases n <;> simp [actOn, h]

theorem actOn_ended {n : Nat} {a : Act} {s s' : State} (h : act a s = .ended s') : actOn n a s = .ended s' := by
  cases n <;> simp [actOn, h]

theorem actOn_refuse {n : Nat} {a : Act} {s : State} {r : Refusal} (h : act a s = .refuse r) :
    actOn n a s = .refuse r := by
  cases n <;> simp [actOn, h]

/-- No run ends in a fault: there is none. -/
theorem outcome_ne_fault {o : Host.Outcome State Fault Refusal} {f : Fault} : o ≠ .fault f := by
  cases f

/-! ## BUSDRV's actions, one per place (R23) -/

/-- A ready wait that samples RDY LOW ends. -/
theorem waitReady_low {s : State} (h : rdyAhead s 0 = .low) (met : State → Progress) : waitReady met s = met { s with
    env := { s.env with rdy := Feed.after Config.freeRdy 1 s.env.rdy }
    ghost := { s.ghost with bus_log := s.ghost.bus_log ++ [.rdy] } } := by
  simp only [waitReady, drawRdy_eq, h]
  rfl

/-- A ready wait that samples RDY HIGH holds. -/
theorem waitReady_high {s : State} (h : rdyAhead s 0 = .high) (met : State → Progress) :
    waitReady met s = .again { s with env := { s.env with rdy := Feed.after Config.freeRdy 1 s.env.rdy } } := by
  simp only [waitReady, drawRdy_eq, h]

theorem act_idle {s : State} (x : Txn) (hu : BusUsable s) : act (.bus x) s = .more { s with
    drv := { s.drv with sel := .asserted, drv_phase := .wait1 }
    ghost := { s.ghost with
      bus_log := s.ghost.bus_log ++ [.selOn], line_log := s.ghost.line_log ++ [.sel .asserted] } } := by
  simp only [act, busAct, hu.2.1, busEntry_eq_none.2 hu]
  rfl

theorem act_wait1_low {s : State} (x : Txn) (hp : s.drv.drv_phase = .wait1) (hr : rdyAhead s 0 = .low) :
    act (.bus x) s = .more { s with
      drv := { s.drv with drv_phase := .hdr }
      env := { s.env with rdy := Feed.after Config.freeRdy 1 s.env.rdy }
      ghost := { s.ghost with bus_log := s.ghost.bus_log ++ [.rdy] } } := by
  simp only [act, busAct, hp, waitReady_low hr]
  rfl

theorem act_wait_high {s : State} (x : Txn) (hp : s.drv.drv_phase = .wait1 ∨ s.drv.drv_phase = .wait2)
    (hr : rdyAhead s 0 = .high) :
    act (.bus x) s = .again { s with env := { s.env with rdy := Feed.after Config.freeRdy 1 s.env.rdy } } := by
  obtain hp | hp := hp <;> simp only [act, busAct, hp, waitReady_high hr]

theorem closeBus_eq (s : State) : closeBus s = { s with
    drv := { s.drv with sel := .released, drv_phase := .idle }
    ghost := { s.ghost with
      bus_log := s.ghost.bus_log ++ [.selOff], line_log := s.ghost.line_log ++ [.sel .released] } } := rfl

theorem act_hdr {s : State} (x : Txn) (hp : s.drv.drv_phase = .hdr) :
    act (.bus x) s = afterFirst x (txByte x.firstByte s) := by
  simp only [act, busAct, hp]

theorem act_data {s : State} (x : Txn) {k : Nat} (hp : s.drv.drv_phase = .data k) :
    act (.bus x) s = toData x (k + 1) (dataByte x k s) := by
  simp only [act, busAct, hp]

theorem act_wait2_low {s : State} (x : Txn) (hp : s.drv.drv_phase = .wait2) (hr : rdyAhead s 0 = .low) :
    act (.bus x) s = .go { s with
      drv := { s.drv with sel := .released, drv_phase := .idle }
      env := { s.env with rdy := Feed.after Config.freeRdy 1 s.env.rdy }
      ghost := { s.ghost with
        bus_log := s.ghost.bus_log ++ [.rdy, .selOff], line_log := s.ghost.line_log ++ [.sel .released] } } := by
  simp only [act, busAct, hp, waitReady_low hr, closeBus_eq, List.append_assoc, List.cons_append, List.nil_append]

/-! ## Transactions -/

/-- After `SEL(1) RDY`. -/
def opened (s : State) : State :=
  { s with
    drv := { s.drv with sel := .asserted, drv_phase := .hdr }
    env := { s.env with rdy := Feed.after Config.freeRdy 1 s.env.rdy }
    ghost := { s.ghost with
      bus_log := s.ghost.bus_log ++ [.selOn, .rdy], line_log := s.ghost.line_log ++ [.sel .asserted] } }

theorem actOn_open {s : State} (x : Txn) (hu : BusUsable s) (hr : rdyAhead s 0 = .low) (n : Nat) :
    actOn (n + 2) (.bus x) s = actOn n (.bus x) (opened s) := by
  rw [actOn_more (act_idle x hu), actOn_more (act_wait1_low x rfl (by exact hr))]
  simp only [opened, List.append_assoc, List.cons_append, List.nil_append]

theorem run_stuck {s : State} (x : Txn) (hu : BusUsable s) (hr : rdyAhead s 0 = .high) (k : List Act) :
    run (.bus x :: k) s = .next { s with
      drv := { s.drv with sel := .asserted, drv_phase := .wait1 }
      env := { s.env with rdy := Feed.after Config.freeRdy 1 s.env.rdy }
      ghost := { s.ghost with
        bus_log := s.ghost.bus_log ++ [.selOn], line_log := s.ghost.line_log ++ [.sel .asserted] }
      host := { s.host with pend := .bus x :: k } } := by
  rw [run_again (s' := _)]
  rotate_left
  · rw [actBound, actOn_more (act_idle x hu)]
    exact actOn_again (act_wait_high x (.inl rfl) (by exact hr))
  · rfl

/-- A strobe stuck in its second wait. -/
theorem run_stuck2 {s : State} (b : Byte) (hu : BusUsable s) (h0 : rdyAhead s 0 = .low) (h1 : rdyAhead s 1 = .high)
    (k : List Act) :
    run (.bus (.strobe b) :: k) s = .next { s with
      drv := { s.drv.shifted b (sdiAhead s 0) with sel := .asserted, drv_phase := .wait2 }
      env := { s.env with
        rdy := Feed.after Config.freeRdy 2 s.env.rdy, sdi := Feed.after Config.freeSdi 1 s.env.sdi }
      ghost := { s.ghost with
        bus_log := s.ghost.bus_log ++ [.selOn, .rdy, .tx b]
        line_log := s.ghost.line_log ++ ([.sel .asserted] ++ byteLines b) }
      host := { s.host with pend := .bus (.strobe b) :: k } } := by
  rw [run_again (s' := _)]
  rotate_left
  · rw [show actBound (.bus (.strobe b)) = 2 + 2 from rfl, actOn_open _ hu h0, actOn_more (act_hdr _ rfl)]
    exact actOn_again (act_wait_high _ (.inr rfl) (by simpa [rdyAhead, opened, txByte_eq, setPhase] using h1))
  · simp [opened, txByte_eq, setPhase, Busdrv.shifted, Txn.firstByte, sdiAhead]

/-- After a strobe transaction. -/
def strobed (b : Byte) (s : State) : State :=
  { s with
    drv := { s.drv.shifted b (sdiAhead s 0) with sel := .released, drv_phase := .idle }
    env := { s.env with
      rdy := Feed.after Config.freeRdy 2 s.env.rdy, sdi := Feed.after Config.freeSdi 1 s.env.sdi }
    ghost := { s.ghost with
      bus_log := s.ghost.bus_log ++ strobeLog b
      line_log := s.ghost.line_log ++ ([.sel .asserted] ++ byteLines b ++ [.sel .released]) } }

theorem run_strobe {s : State} {st : Strobe} {b : Byte} {c : Config} (hb : strobeByte c st = some b)
    (hu : BusUsable s) (hr : ReadyFor 2 s) (k : List Act) :
    run (strobeActs c st ++ k) s = run k (strobed b s) := by
  simp only [strobeActs, hb, List.cons_append, List.nil_append]
  refine run_go ?_
  rw [show actBound (.bus (.strobe b)) = 2 + 2 from rfl, actOn_open _ hu (hr 0 (by omega)),
    actOn_more (act_hdr _ rfl)]
  rw [actOn_go (act_wait2_low _ rfl (by simpa [rdyAhead, opened, txByte_eq, setPhase] using hr 1 (by omega)))]
  simp [opened, strobed, strobeLog, txByte_eq, setPhase, Busdrv.shifted, Txn.firstByte, sdiAhead]

/-- After a mode strobe of SESSION. -/
theorem run_mode {s : State} {st : Strobe} {b : Byte} {m : RadioMode} {c : Config}
    (hb : strobeByte c st = some b) (hm : modeOf st = some m) (hu : BusUsable s) (hr : ReadyFor 2 s)
    (k : List Act) :
    run (modeActs c st ++ k) s =
      run k { strobed b s with ses := { s.ses with radio_mode := m } } := by
  rw [modeActs, List.append_assoc, run_strobe hb hu hr, radioActs, hm]
  exact run_go rfl

/-- After a read transaction. -/
def hasRead (h : Byte) (s : State) : State :=
  { s with
    drv := { s.drv.shifted s.cfg.dummy_tx (sdiAhead s 1) with sel := .released, drv_phase := .idle }
    env := { s.env with
      rdy := Feed.after Config.freeRdy 1 s.env.rdy, sdi := Feed.after Config.freeSdi 2 s.env.sdi }
    ghost := { s.ghost with
      bus_log := s.ghost.bus_log ++ readLog h (sdiAhead s 1)
      line_log := s.ghost.line_log ++
        ([.sel .asserted] ++ byteLines h ++ byteLines s.cfg.dummy_tx ++ [.sel .released]) } }

theorem run_read {s : State} {r : Reg} {h : Byte} {c : Config} (hh : readHeader c r = some h)
    (hu : BusUsable s) (hr : rdyAhead s 0 = .low) (k : List Act) :
    run (readActs c r ++ k) s = run k (hasRead h s) := by
  simp only [readActs, hh, List.cons_append, List.nil_append]
  refine run_go ?_
  rw [show actBound (.bus (.read h)) = 3 + 2 from rfl, actOn_open _ hu hr, actOn_more (act_hdr _ rfl)]
  rw [actOn_go (act_data (k := 0) _ rfl)]
  simp [hasRead, readLog, opened, closeBus_eq, dataByte, rxByte_eq, txByte_eq, setPhase, Busdrv.shifted,
    Txn.firstByte, sdiAhead]

/-- After a list of bytes went out. -/
def sent (bs : List Byte) (s : State) : State := bs.foldl (fun s b => txByte b s) s

/-- The shifter after a list of bytes: only registers and lines of the shifter move. -/
theorem sent_eq (bs : List Byte) (s : State) :
    ∃ o i d, sent bs s = { s with
      drv := { s.drv with
        sh_out := o, sh_in := i, sdo := d, sclk := if bs = [] then s.drv.sclk else .high }
      env := { s.env with sdi := Feed.after Config.freeSdi bs.length s.env.sdi }
      ghost := { s.ghost with
        bus_log := s.ghost.bus_log ++ bs.map BusEvent.tx
        line_log := s.ghost.line_log ++ bs.flatMap byteLines } } := by
  induction bs generalizing s with
  | nil => exact ⟨s.drv.sh_out, s.drv.sh_in, s.drv.sdo, by simp [sent, Feed.after]⟩
  | cons b bs ih =>
    obtain ⟨o, i, d, h⟩ := ih (txByte b s)
    refine ⟨o, i, d, ?_⟩
    rw [sent, List.foldl_cons, ← sent, h]
    simp [txByte_eq, Busdrv.shifted, Nat.add_comm 1]

theorem sent_setPhase (bs : List Byte) (p : DrvPhase) (s : State) :
    sent bs (setPhase p s) = setPhase p (sent bs s) := by
  induction bs generalizing s with
  | nil => rfl
  | cons b bs ih =>
    simp only [sent, List.foldl_cons] at ih ⊢
    rw [← ih]
    simp only [txByte_eq]
    rfl

theorem closeBus_setPhase (p : DrvPhase) (s : State) : closeBus (setPhase p s) = closeBus s := rfl

/-- The data phase of a write, from any byte on. -/
theorem actOn_data (h : Byte) (pre : List Byte) (b : Byte) (post : List Byte) (s : State)
    (hp : s.drv.drv_phase = .data pre.length) (m : Nat) :
    actOn (post.length + m) (.bus (.write h (pre ++ b :: post))) s = .go (closeBus (sent (b :: post) s)) := by
  induction post generalizing pre b s with
  | nil =>
    refine actOn_go ((act_data _ hp).trans ?_)
    simp [toData, dataByte, Txn.dataBytes, sent]
  | cons c post ih =>
    rw [List.length_cons, show post.length + 1 + m = (post.length + m) + 1 by omega,
      actOn_more (s' := setPhase (.data (pre ++ [b]).length) (txByte b s)) ((act_data _ hp).trans ?_)]
    · have := ih (pre ++ [b]) c (setPhase (.data (pre ++ [b]).length) (txByte b s)) rfl
      rw [List.append_assoc, List.cons_append, List.nil_append] at this
      rw [this, sent_setPhase, closeBus_setPhase]
      simp only [sent, List.foldl_cons]
    · simp [toData, dataByte, Txn.dataBytes]

/-- After a write or burst transaction, but for the shifter's registers. -/
theorem run_write {s : State} {r : Reg} {h : Byte} {c : Config} (hh : writeHeader c r = some h)
    (hu : BusUsable s) (hr : rdyAhead s 0 = .low) (bs : List Byte) (k : List Act) :
    ∃ o i d, run (writeActs c r bs ++ k) s = run k { s with
      drv := { s.drv with
        sh_out := o, sh_in := i, sdo := d, sclk := .high, sel := .released, drv_phase := .idle }
      env := { s.env with
        rdy := Feed.after Config.freeRdy 1 s.env.rdy
        sdi := Feed.after Config.freeSdi (bs.length + 1) s.env.sdi }
      ghost := { s.ghost with
        bus_log := s.ghost.bus_log ++ writeLog h bs
        line_log := s.ghost.line_log ++
          ([.sel .asserted] ++ (h :: bs).flatMap byteLines ++ [.sel .released]) } } := by
  obtain ⟨o, i, d, hs⟩ := sent_eq (h :: bs) (opened s)
  refine ⟨o, i, d, ?_⟩
  simp only [writeActs, hh, List.cons_append, List.nil_append]
  have key : actOn (actBound (.bus (.write h bs))) (.bus (.write h bs)) s = .go (closeBus (sent (h :: bs) (opened s))) := by
    rw [show actBound (.bus (.write h bs)) = (bs.length + 2) + 2 from rfl, actOn_open _ hu hr]
    cases bs with
    | nil => exact actOn_go (act_hdr _ rfl)
    | cons b bs =>
      rw [List.length_cons, show bs.length + 1 + 2 = (bs.length + 2) + 1 by omega,
        actOn_more (s' := setPhase (.data 0) (txByte h (opened s))) ((act_hdr _ rfl).trans ?_)]
      · have := actOn_data h [] b bs (setPhase (.data 0) (txByte h (opened s))) rfl 2
        rw [List.nil_append] at this
        rw [this, sent_setPhase, closeBus_setPhase]
        simp only [sent, List.foldl_cons]
      · simp [afterFirst, toData, Txn.firstByte, Txn.dataBytes]
  rw [run_go key, hs]
  simp [opened, closeBus_eq, writeLog]

/-! ## The other actions -/

/-- A burst not yet over drives its next frame. -/
theorem act_frame {s : State} (p : Packet) (hr : s.enc.rep_cnt < REPEAT) (h : s.enc.tx_mode = .driven) :
    act (.frames p) s = .more { s with
      enc := { s.enc with tx_pkt := p, tx_level := .low, seg_idx := none, rep_cnt := s.enc.rep_cnt + 1 }
      env := { s.env with now := s.env.now + 58980 }
      ghost := { s.ghost with tx_log := s.ghost.tx_log ++ segmentLog (frame p) } } := by
  simp only [act, burstAct, if_pos hr, h, burstFrame_eq]

/-- With REPEAT frames complete it is over. -/
theorem act_burst_over {s : State} (p : Packet) (hr : ¬ s.enc.rep_cnt < REPEAT) : act (.frames p) s = .go s := by
  simp only [act, burstAct, if_neg hr]

/-- On a line that is not driven a frame is refused (R171). -/
theorem act_frame_hiz {s : State} (p : Packet) (hr : s.enc.rep_cnt < REPEAT) (h : s.enc.tx_mode = .hiz) :
    act (.frames p) s = .refuse .lineNotDriven := by
  simp only [act, burstAct, if_pos hr, h]

theorem run_burst {s : State} (h : s.enc.tx_mode = .driven) (p : Packet) (k : List Act) :
    run (burstActs p ++ k) s = run k { s with
      enc := { s.enc with tx_pkt := p, tx_level := .low, seg_idx := none, rep_cnt := 5 }
      env := { s.env with now := s.env.now + 294900 }
      ghost := { s.ghost with tx_log := s.ghost.tx_log ++ segmentLog (framesOf 5 p) } } := by
  rw [burstActs, List.cons_append, List.cons_append, List.nil_append, run_go (a := .burst) rfl]
  refine run_go ?_
  rw [show actBound (.frames p) = 4 + 1 from rfl, actOn_more (act_frame p (by simp [REPEAT]) (by exact h)),
    actOn_more (n := 3) (act_frame p (by simp [REPEAT]) (by exact h)), actOn_more (n := 2) (act_frame p (by simp [REPEAT]) (by exact h)),
    actOn_more (n := 1) (act_frame p (by simp [REPEAT]) (by exact h)), actOn_more (n := 0) (act_frame p (by simp [REPEAT]) (by exact h)),
    actOn_go (act_burst_over p (by simp))]
  simp [framesOf, segmentLog, Nat.add_assoc]

/-- On a line that is not driven a burst is refused at its first frame (R171). -/
theorem run_burst_hiz {s : State} (h : s.enc.tx_mode = .hiz) (p : Packet) (k : List Act) :
    run (burstActs p ++ k) s = .refused .lineNotDriven :=
  (run_go (a := .burst) rfl).trans (run_refuse (a := .frames p) (actOn_refuse (act_frame_hiz p (by simp [REPEAT]) (by exact h))))

theorem run_sniff_on {s : State} (h : cancelNext s = false) (k : List Act) :
    run (.sniffLoop :: k) s = .next (pollLine { s with
      env := { s.env with cancel := Feed.after Config.freeCancel 1 s.env.cancel }
      host := { s.host with pend := .sniffLoop :: k } }) := by
  have ha : act .sniffLoop s = .again (pollLine { s with
      env := { s.env with cancel := Feed.after Config.freeCancel 1 s.env.cancel } }) := by
    simp only [act, sniffHead, drawCancel_eq, h, Bool.false_eq_true, if_false]
  rw [run_again (a := .sniffLoop) ha, pollLine_pend]

theorem run_sniff_off {s : State} (h : cancelNext s = true) (k : List Act) :
    run (.sniffLoop :: k) s = run k { s with
      env := { s.env with cancel := Feed.after Config.freeCancel 1 s.env.cancel } } :=
  run_go (by simp only [actBound, actOn, act, sniffHead, drawCancel_eq, h, if_true])

/-! ## Calls and their actions -/

/-- An instruction that is a SEND sends its codes. -/
theorem exec_of_codes {i : Instr} {c1 : Byte} {c2 : Option Byte} {s : State}
    (h : codesOf s.cfg i = some (c1, c2)) : exec i s = accept s (sendCodes c1 c2) := by
  cases i <;> cases h <;> rfl

/-- An instruction with a list of actions runs it. -/
theorem exec_of_callActs {i : Instr} {s : State} {k : List Act} (hc : CanCall s) (h : callActs s i = some k) :
    exec i s = run k (returnWith .none s) := by
  unfold callActs at h
  split at h
  · obtain rfl := Option.some.inj h
    rename_i c1 c2 v hi hv
    rw [exec_of_codes hi, accept_of_canCall hc]
    simp only [sendCodes, show (returnWith .none s).ses.serial = some v from hv]
    rfl
  · cases h
  · cases i <;> cases h <;> exact accept_of_canCall hc _

/-- The progress with another list of what is left. -/
def Progress.withPend (l : List Act) : Progress → Progress
  | .go s => .go { s with host := { s.host with pend := l } }
  | .more s => .more { s with host := { s.host with pend := l } }
  | .again s => .again { s with host := { s.host with pend := l } }
  | .ended s => .ended s
  | .refuse r => .refuse r

theorem waitReady_pend {met : State → Progress} (l : List Act) (s : State)
    (hm : ∀ s, met { s with host := { s.host with pend := l } } = (met s).withPend l) :
    waitReady met { s with host := { s.host with pend := l } } = (waitReady met s).withPend l := by
  cases h : rdyAhead s 0 with
  | low => rw [waitReady_low h, waitReady_low (by exact h), ← hm]
  | high => rw [waitReady_high h, waitReady_high (by exact h)]; rfl

theorem toData_pend (x : Txn) (k : Nat) (l : List Act) (s : State) :
    toData x k { s with host := { s.host with pend := l } } = (toData x k s).withPend l := by
  by_cases h : k < x.dataBytes <;> simp only [toData, h, if_true, if_false] <;> rfl

theorem busAct_pend (x : Txn) (l : List Act) (s : State) :
    busAct x { s with host := { s.host with pend := l } } = (busAct x s).withPend l := by
  cases hp : s.drv.drv_phase with
  | idle =>
    simp only [busAct, hp, show busEntry { s with host := { s.host with pend := l } } = busEntry s from rfl]
    cases busEntry s <;> rfl
  | wait1 => simp only [busAct, hp]; exact waitReady_pend l s fun _ => rfl
  | wait2 => simp only [busAct, hp]; exact waitReady_pend l s fun _ => rfl
  | hdr =>
    simp only [busAct, hp]
    rw [show txByte x.firstByte { s with host := { s.host with pend := l } } =
      { txByte x.firstByte s with host := { (txByte x.firstByte s).host with pend := l } } by simp only [txByte_eq]; rfl]
    cases x with
    | strobe b => rfl
    | read h => exact toData_pend _ _ l _
    | write h bs => exact toData_pend _ _ l _
  | data k =>
    simp only [busAct, hp]
    rw [show dataByte x k { s with host := { s.host with pend := l } } =
      { dataByte x k s with host := { (dataByte x k s).host with pend := l } } from ?_]
    · exact toData_pend _ _ l _
    · cases x with
      | strobe b => rfl
      | read h => simp only [dataByte, rxByte_eq]; rfl
      | write h bs => cases hb : bs[k]? <;> simp only [dataByte, hb, txByte_eq]; rfl

/-- No action looks at what is left of the call. -/
theorem act_pend (a : Act) (l : List Act) (s : State) :
    act a { s with host := { s.host with pend := l } } = (act a s).withPend l := by
  cases a with
  | bus x => exact busAct_pend x l s
  | init =>
    simp only [act]
    have : initEntry { s with host := { s.host with pend := l } } = initEntry s := rfl
    rw [this]; cases initEntry s
    · simp only [initPulse_eq]; rfl
    · rfl
  | check r e => by_cases h : s.drv.sh_in = e <;> simp only [act, h, if_true, if_false] <;> rfl
  | frames p =>
    by_cases hr : s.enc.rep_cnt < REPEAT <;> cases h : s.enc.tx_mode <;>
      simp only [act, burstAct, hr, h, if_true, if_false, burstFrame_eq] <;> rfl
  | decreset => rfl
  | sniffLoop =>
    cases h : cancelNext s
    · simp only [act, sniffHead, drawCancel_eq, h,
        show cancelNext { s with host := { s.host with pend := l } } = cancelNext s from rfl, Bool.false_eq_true,
        if_false, Progress.withPend, pollLine_pend]
    · simp only [act, sniffHead, drawCancel_eq, h,
        show cancelNext { s with host := { s.host with pend := l } } = cancelNext s from rfl,
        if_true]; rfl
  | _ => rfl

theorem actOn_pend (n : Nat) (a : Act) (l : List Act) (s : State) :
    actOn n a { s with host := { s.host with pend := l } } = (actOn n a s).withPend l := by
  induction n generalizing s with
  | zero => exact act_pend a l s
  | succ n ih =>
    rw [actOn, act_pend, actOn]
    cases act a s with
    | more s' => exact ih s'
    | _ => rfl

/-- A run does not look at what is left of the call but for its own list. -/
theorem run_pend (k l : List Act) (s : State) :
    run k { s with host := { s.host with pend := l } } = run k s := by
  induction k generalizing s with
  | nil => rfl
  | cons a k ih =>
    rw [run, actOn_pend, run]
    cases actOn (actBound a) a s with
    | go s' => exact ih s'
    | _ => rfl

/-! ## A call is its actions one after the other -/

/-- `n` actions of the call in flight. -/
def ticks : Nat → State → Host.Outcome State Fault Refusal
  | 0, s => .next s
  | n + 1, s =>
    match tick s with
    | .next s' => ticks n s'
    | .fault f => .fault f
    | .refused r => .refused r

theorem ticks_next {n : Nat} {s s' : State} (h : tick s = .next s') : ticks (n + 1) s = ticks n s' := by
  rw [ticks, h]

theorem tick_cons {a : Act} {k : List Act} {s : State} :
    tick { s with host := { s.host with pend := a :: k } } =
      match act a s with
      | .go s' => .next { s' with host := { s'.host with pend := k } }
      | .more s' => .next { s' with host := { s'.host with pend := a :: k } }
      | .again s' => .next { s' with host := { s'.host with pend := a :: k } }
      | .ended s' => .next s'
      | .refuse r => .refused r := by
  simp only [tick, act_pend]
  cases act a s <;> rfl

/-- The actions of one entry. -/
theorem actOn_ticks (a : Act) (k : List Act) (n : Nat) (s : State) :
    ∃ m, ∀ j, ticks (m + 1 + j) { s with host := { s.host with pend := a :: k } } =
      match actOn n a s with
      | .go s' => ticks j { s' with host := { s'.host with pend := k } }
      | .more s' => ticks j { s' with host := { s'.host with pend := a :: k } }
      | .again s' => ticks j { s' with host := { s'.host with pend := a :: k } }
      | .ended s' => ticks j s'
      | .refuse r => .refused r := by
  have base : ∀ s j, ticks (0 + 1 + j) { s with host := { s.host with pend := a :: k } } =
      match act a s with
      | .go s' => ticks j { s' with host := { s'.host with pend := k } }
      | .more s' => ticks j { s' with host := { s'.host with pend := a :: k } }
      | .again s' => ticks j { s' with host := { s'.host with pend := a :: k } }
      | .ended s' => ticks j s'
      | .refuse r => .refused r := by
    intro s j
    rw [show 0 + 1 + j = j + 1 by omega, ticks, tick_cons]
    cases act a s <;> rfl
  induction n generalizing s with
  | zero => exact ⟨0, base s⟩
  | succ n ih =>
    rw [actOn]
    cases h : act a s with
    | more s' =>
      obtain ⟨m, hm⟩ := ih s'
      refine ⟨m + 1, fun j => ?_⟩
      rw [← hm j, show m + 1 + 1 + j = (m + 1 + j) + 1 by omega, ticks, tick_cons, h]
    | go s' => exact ⟨0, fun j => by rw [base, h]⟩
    | again s' => exact ⟨0, fun j => by rw [base, h]⟩
    | ended s' => exact ⟨0, fun j => by rw [base, h]⟩
    | refuse r => exact ⟨0, fun j => by rw [base, h]⟩

/-- A run is the actions of the call, one after the other. -/
theorem run_eq_ticks (k : List Act) (s : State) :
    ∃ n, run k s = ticks n { s with host := { s.host with pend := k } } ∧ (k = [] ↔ n = 0) := by
  induction k generalizing s with
  | nil => exact ⟨0, rfl, by simp⟩
  | cons a k ih =>
    obtain ⟨m, hm⟩ := actOn_ticks a k (actBound a) s
    cases h : actOn (actBound a) a s with
    | go s' =>
      obtain ⟨n, hn, -⟩ := ih s'
      exact ⟨m + 1 + n, by rw [run_go h, hn, hm, h], by simp⟩
    | more s' => exact ⟨m + 1, by have := hm 0; rw [h] at this; rw [run, h]; exact this.symm, by simp⟩
    | again s' => exact ⟨m + 1, by have := hm 0; rw [h] at this; rw [run_again h]; exact this.symm, by simp⟩
    | ended s' => exact ⟨m + 1, by have := hm 0; rw [h] at this; rw [run_ended h]; exact this.symm, by simp⟩
    | refuse r => exact ⟨m + 1, by have := hm 0; rw [h] at this; rw [run_refuse h]; exact this.symm, by simp⟩

/-! ## What one action can do -/

/-- What a property of states must satisfy to be kept by every action. -/
structure ActKeeps (P : State → Prop) : Prop where
  select : ∀ s, BusUsable s → P s → P (setPhase .wait1 (selAssert s))
  rdy : ∀ s, P s → P (drawRdy s).2
  met : ∀ s, P s → P (logBus .rdy s)
  place : ∀ p s, P s → P (setPhase p s)
  tx : ∀ b s, P s → P (txByte b s)
  rx : ∀ s, P s → P (rxByte s)
  close : ∀ s, P s → P (closeBus s)
  init : ∀ s, initEntry s = none → P s → P (initPulse s)
  raise : ∀ c s, P s → P (raise c s)
  radio : ∀ m s, P s → P { s with ses := { s.ses with radio_mode := m } }
  phase : ∀ p s, P s → P { s with ses := { s.ses with sess_phase := p } }
  lineOn : ∀ s, P s → P (lineOn s)
  lineOff : ∀ s, P s → P (lineOff s)
  burst : ∀ s, P s → P { s with enc := { s.enc with rep_cnt := 0 } }
  frame : ∀ p s, s.enc.rep_cnt < REPEAT → P s → P (burstFrame p s)
  arm : ∀ s, P s → P (arm s)
  cancel : ∀ s, P s → P (drawCancel s).2
  poll : ∀ s, P s → P (pollLine s)
  ret : ∀ r s, P s → P (returnWith r s)
  pend : ∀ k s, P s → P { s with host := { s.host with pend := k } }

/-- What a progress leaves, but for a refusal. -/
def Progress.leaves (q : Progress) (s' : State) : Prop :=
  q = .go s' ∨ q = .more s' ∨ q = .again s' ∨ q = .ended s'

theorem Progress.leaves_go {s s' : State} (h : (Progress.go s).leaves s') : s' = s := by
  obtain h | h | h | h := h <;> cases h; rfl
theorem Progress.leaves_more {s s' : State} (h : (Progress.more s).leaves s') : s' = s := by
  obtain h | h | h | h := h <;> cases h; rfl
theorem Progress.leaves_again {s s' : State} (h : (Progress.again s).leaves s') : s' = s := by
  obtain h | h | h | h := h <;> cases h; rfl
theorem Progress.leaves_ended {s s' : State} (h : (Progress.ended s).leaves s') : s' = s := by
  obtain h | h | h | h := h <;> cases h; rfl
theorem Progress.leaves_refuse {r : Refusal} {s' : State} (h : (Progress.refuse r).leaves s') : False := by
  obtain h | h | h | h := h <;> cases h

theorem ActKeeps.of_toData {P : State → Prop} (hP : ActKeeps P) {x : Txn} {k : Nat} {s s' : State} (hs : P s)
    (h : (toData x k s).leaves s') : P s' := by
  unfold toData at h
  split at h
  · rw [Progress.leaves_more h]; exact hP.place _ s hs
  · rw [Progress.leaves_go h]; exact hP.close s hs

theorem ActKeeps.of_busAct {P : State → Prop} (hP : ActKeeps P) {x : Txn} {s s' : State} (hs : P s)
    (h : (busAct x s).leaves s') : P s' := by
  unfold busAct at h
  split at h
  · split at h
    · exact (Progress.leaves_refuse h).elim
    · rw [Progress.leaves_more h]; exact hP.select s (busEntry_eq_none.1 ‹_›) hs
  · unfold waitReady at h
    split at h
    · rw [Progress.leaves_more h]; exact hP.place _ _ (hP.met _ (hP.rdy s hs))
    · rw [Progress.leaves_again h]; exact hP.rdy s hs
  · have hb := hP.tx x.firstByte s hs
    unfold afterFirst at h
    split at h
    · rw [Progress.leaves_more h]; exact hP.place _ _ hb
    · exact hP.of_toData hb h
    · exact hP.of_toData hb h
  · refine hP.of_toData ?_ h
    unfold dataByte
    split
    · exact hs
    · exact hP.rx s hs
    · split
      · exact hP.tx _ s hs
      · exact hs
  · unfold waitReady at h
    split at h
    · rw [Progress.leaves_go h]; exact hP.close _ (hP.met _ (hP.rdy s hs))
    · rw [Progress.leaves_again h]; exact hP.rdy s hs

/-- An action that does not refuse leaves a state of which a kept property holds. -/
theorem ActKeeps.of_act {P : State → Prop} (hP : ActKeeps P) {a : Act} {s s' : State} (hs : P s)
    (h : (act a s).leaves s') : P s' := by
  cases a with
  | bus x => exact hP.of_busAct hs h
  | init =>
    simp only [act] at h
    split at h
    · exact (Progress.leaves_refuse h).elim
    · rw [Progress.leaves_go h]; exact hP.init s ‹_› hs
  | check r e =>
    simp only [act] at h
    split at h
    · rw [Progress.leaves_go h]; exact hs
    · rw [Progress.leaves_ended h]; exact hP.raise _ s hs
  | radio m => rw [Progress.leaves_go h]; exact hP.radio m s hs
  | phase p => rw [Progress.leaves_go h]; exact hP.phase p s hs
  | txen => rw [Progress.leaves_go h]; exact hP.lineOn s hs
  | txdis => rw [Progress.leaves_go h]; exact hP.lineOff s hs
  | burst => rw [Progress.leaves_go h]; exact hP.burst s hs
  | frames p =>
    simp only [act, burstAct] at h
    split at h
    · split at h
      · rw [Progress.leaves_more h]; exact hP.frame p s ‹_› hs
      · exact (Progress.leaves_refuse h).elim
    · rw [Progress.leaves_go h]; exact hs
  | decreset => rw [Progress.leaves_go h]; exact hP.arm s hs
  | sniffLoop =>
    simp only [act, sniffHead] at h
    split at h
    · rw [Progress.leaves_go h]; exact hP.cancel s hs
    · rw [Progress.leaves_again h]; exact hP.poll _ (hP.cancel s hs)
  | finish => rw [Progress.leaves_go h]; exact hP.ret _ s hs
  | answer => rw [Progress.leaves_go h]; exact hP.ret _ s hs
  | refuse r => exact (Progress.leaves_refuse h).elim

/-- So do all the actions of an entry. -/
theorem ActKeeps.of_actOn {P : State → Prop} (hP : ActKeeps P) {n : Nat} {a : Act} {s s' : State} (hs : P s)
    (h : (actOn n a s).leaves s') : P s' := by
  induction n generalizing s with
  | zero => exact hP.of_act hs h
  | succ n ih =>
    rw [actOn] at h
    split at h
    · exact ih (hP.of_act hs (.inr (.inl ‹_›))) h
    · exact hP.of_act hs h

/-! ## What an action does to the bus -/

/-- Bracketing one element after a bracketed history. -/
theorem bracketed_append (b : Bool) (l m : List BusEvent) :
    bracketed b (l ++ m) = (bracketed b l).bind fun c => bracketed c m := by
  induction l generalizing b with
  | nil => rfl
  | cons e l ih =>
    simp only [List.cons_append, bracketed]
    cases bracketStep b e with
    | none => rfl
    | some c => exact ih c

/-- What an action of a transaction does to the phase, the select line and `bus_log`. -/
structure BusEffect (s s' : State) (v : Select) : Prop where
  sel : s'.drv.sel = v
  log : ∃ l, s'.ghost.bus_log = s.ghost.bus_log ++ l ∧
    bracketed (decide (s.drv.sel = .asserted)) l = some (decide (v = .asserted))

/-- An action of a transaction that leaves it going is in one of its places, one that ends it at IDLE. -/
theorem toData_effect {x : Txn} {k : Nat} {s s' : State} (hs : s.drv.sel = .asserted) :
    (toData x k s = .more s' → x.hasPlace s'.drv.drv_phase = true ∧ s'.drv.drv_phase ≠ .idle ∧
      s'.drv.sel = .asserted ∧ s'.ghost.bus_log = s.ghost.bus_log) ∧
    (toData x k s = .go s' → s'.drv.drv_phase = .idle ∧ s'.drv.sel = .released ∧
      s'.ghost.bus_log = s.ghost.bus_log ++ [.selOff]) ∧
    toData x k s ≠ .again s' := by
  by_cases h : k < x.dataBytes <;> simp only [toData, h, if_true, if_false]
  · refine ⟨fun e => ?_, nofun, nofun⟩
    obtain rfl := Progress.more.inj e
    exact ⟨by simpa [Txn.hasPlace, setPhase] using h, by simp [setPhase], hs, rfl⟩
  · refine ⟨nofun, fun e => ?_, nofun⟩
    obtain rfl := Progress.go.inj e
    exact ⟨rfl, rfl, rfl⟩

/-- The bus after an action of a transaction, begun where one of its places is. -/
theorem busAct_effect {x : Txn} {s s' : State} (hx : x.hasPlace s.drv.drv_phase = true)
    (hs : s.drv.sel = .asserted ↔ s.drv.drv_phase ≠ .idle) :
    (busAct x s = .more s' → x.hasPlace s'.drv.drv_phase = true ∧ s'.drv.drv_phase ≠ .idle ∧
      BusEffect s s' .asserted) ∧
    (busAct x s = .go s' → s'.drv.drv_phase = .idle ∧ BusEffect s s' .released) ∧
    (busAct x s = .again s' → s'.drv = s.drv ∧ s'.ghost.bus_log = s.ghost.bus_log) := by
  cases hp : s.drv.drv_phase with
  | idle =>
    have hsel : s.drv.sel ≠ .asserted := fun h => (hs.1 h) hp
    simp only [busAct, hp]
    cases hb : busEntry s with
    | some r => exact ⟨nofun, nofun, nofun⟩
    | none =>
      refine ⟨fun e => ?_, nofun, nofun⟩
      obtain rfl := Progress.more.inj e
      exact ⟨rfl, nofun, rfl, [.selOn], rfl, by simp [hsel, bracketed, bracketStep]⟩
  | wait1 =>
    have hsel : s.drv.sel = .asserted := hs.2 (by simp [hp])
    simp only [busAct, hp]
    cases hr : rdyAhead s 0 with
    | low =>
      rw [waitReady_low hr]
      refine ⟨fun e => ?_, nofun, nofun⟩
      obtain rfl := Progress.more.inj e
      exact ⟨rfl, nofun, hsel, [.rdy], rfl, by simp [hsel, bracketed, bracketStep]⟩
    | high =>
      rw [waitReady_high hr]
      refine ⟨nofun, nofun, fun e => ?_⟩
      obtain rfl := Progress.again.inj e
      exact ⟨rfl, rfl⟩
  | wait2 =>
    have hsel : s.drv.sel = .asserted := hs.2 (by simp [hp])
    simp only [busAct, hp]
    cases hr : rdyAhead s 0 with
    | low =>
      rw [waitReady_low hr]
      refine ⟨nofun, fun e => ?_, nofun⟩
      obtain rfl := Progress.go.inj e
      exact ⟨rfl, rfl, [.rdy, .selOff], by simp [closeBus_eq], by simp [hsel, bracketed, bracketStep]⟩
    | high =>
      rw [waitReady_high hr]
      refine ⟨nofun, nofun, fun e => ?_⟩
      obtain rfl := Progress.again.inj e
      exact ⟨rfl, rfl⟩
  | hdr =>
    have hsel : s.drv.sel = .asserted := hs.2 (by simp [hp])
    simp only [busAct, hp]
    have hd : ∀ {x : Txn},
        (toData x 0 (txByte x.firstByte s) = .more s' → x.hasPlace s'.drv.drv_phase = true ∧
          s'.drv.drv_phase ≠ .idle ∧ BusEffect s s' .asserted) ∧
        (toData x 0 (txByte x.firstByte s) = .go s' → s'.drv.drv_phase = .idle ∧ BusEffect s s' .released) ∧
        (toData x 0 (txByte x.firstByte s) = .again s' → s'.drv = s.drv ∧ s'.ghost.bus_log = s.ghost.bus_log) := by
      intro x
      obtain ⟨h1, h2, h3⟩ := toData_effect (x := x) (k := 0) (s := txByte x.firstByte s) (s' := s')
        (by rw [txByte_eq]; exact hsel)
      refine ⟨fun e => ?_, fun e => ?_, fun e => absurd e h3⟩
      · obtain ⟨a, b, c, d⟩ := h1 e
        exact ⟨a, b, c, [.tx x.firstByte], by rw [d, txByte_eq], by simp [hsel, bracketed, bracketStep]⟩
      · obtain ⟨a, b, c⟩ := h2 e
        exact ⟨a, b, [.tx x.firstByte, .selOff], by rw [c, txByte_eq]; simp, by simp [hsel, bracketed, bracketStep]⟩
    cases x with
    | strobe b =>
      refine ⟨fun e => ?_, nofun, nofun⟩
      simp only [afterFirst, Txn.firstByte, txByte_eq] at e
      obtain rfl := Progress.more.inj e
      exact ⟨rfl, nofun, hsel, [.tx b], rfl, by simp [hsel, bracketed, bracketStep]⟩
    | read h => exact hd
    | write h bs => exact hd
  | data k =>
    have hsel : s.drv.sel = .asserted := hs.2 (by simp [hp])
    rw [hp] at hx
    simp only [busAct, hp]
    obtain ⟨ev, hev, hb, hds⟩ : ∃ ev, (dataByte x k s).ghost.bus_log = s.ghost.bus_log ++ [ev] ∧
        bracketStep true ev = some true ∧ (dataByte x k s).drv.sel = .asserted := by
      cases x with
      | strobe b => simp [Txn.hasPlace, Txn.dataBytes] at hx
      | read h => simp only [dataByte, rxByte_eq]; exact ⟨_, rfl, rfl, hsel⟩
      | write h bs =>
        have hk : k < bs.length := of_decide_eq_true hx
        simp only [dataByte, List.getElem?_eq_getElem hk, txByte_eq]
        exact ⟨_, rfl, rfl, hsel⟩
    obtain ⟨h1, h2, h3⟩ := toData_effect (x := x) (k := k + 1) (s := dataByte x k s) (s' := s') hds
    refine ⟨fun e => ?_, fun e => ?_, fun e => absurd e h3⟩
    · obtain ⟨a, b, c, d⟩ := h1 e
      exact ⟨a, b, c, [ev], by rw [d, hev], by rw [decide_eq_true hsel]; simp only [bracketed, hb]; rfl⟩
    · obtain ⟨a, b, c⟩ := h2 e
      exact ⟨a, b, [ev, .selOff], by rw [c, hev]; simp, by
        rw [decide_eq_true hsel]; simp only [bracketed, hb]; rfl⟩

/-- Only a transaction and a burst take more than one action. -/
theorem act_more {a : Act} {s s' : State} (h : act a s = .more s') : (∃ x, a = .bus x) ∨ ∃ p, a = .frames p := by
  cases a with
  | bus x => exact .inl ⟨x, rfl⟩
  | frames p => exact .inr ⟨p, rfl⟩
  | sniffLoop => simp only [act, sniffHead] at h; split at h <;> exact Progress.noConfusion h
  | init => simp only [act] at h; split at h <;> exact Progress.noConfusion h
  | check r e => simp only [act] at h; split at h <;> exact Progress.noConfusion h
  | _ => simp only [act] at h; exact Progress.noConfusion h

/-- The other actions leave the phase alone, and the bus too, INIT's pulse apart. -/
theorem act_off_bus {a : Act} {s s' : State} (ha : ∀ x, a ≠ .bus x) (h : (act a s).leaves s') :
    s'.drv.drv_phase = s.drv.drv_phase ∧
      ((s'.drv.sel = s.drv.sel ∧ s'.ghost.bus_log = s.ghost.bus_log) ∨
        (s'.drv.sel = .released ∧ s'.ghost.bus_log = s.ghost.bus_log ++ [.resetPulse])) := by
  cases a with
  | bus x => exact absurd rfl (ha x)
  | init =>
    simp only [act] at h
    split at h
    · exact (Progress.leaves_refuse h).elim
    · rw [Progress.leaves_go h, initPulse_eq]; exact ⟨rfl, .inr ⟨rfl, rfl⟩⟩
  | check r e =>
    simp only [act] at h
    split at h
    · rw [Progress.leaves_go h]; exact ⟨rfl, .inl ⟨rfl, rfl⟩⟩
    · rw [Progress.leaves_ended h]; exact ⟨rfl, .inl ⟨rfl, rfl⟩⟩
  | frames p =>
    simp only [act, burstAct] at h
    split at h
    · split at h
      · rw [Progress.leaves_more h, burstFrame_eq]; exact ⟨rfl, .inl ⟨rfl, rfl⟩⟩
      · exact (Progress.leaves_refuse h).elim
    · rw [Progress.leaves_go h]; exact ⟨rfl, .inl ⟨rfl, rfl⟩⟩
  | decreset => rw [Progress.leaves_go h]; simp [arm, drawRx_eq]
  | sniffLoop =>
    simp only [act, sniffHead] at h
    split at h
    · rw [Progress.leaves_go h, drawCancel_eq]; exact ⟨rfl, .inl ⟨rfl, rfl⟩⟩
    · rw [Progress.leaves_again h]
      obtain ⟨d, rx, e, -⟩ := pollLine_frame (drawCancel s).2
      rw [e, drawCancel_eq]
      exact ⟨rfl, .inl ⟨rfl, rfl⟩⟩
  | refuse r => exact (Progress.leaves_refuse h).elim
  | _ => rw [Progress.leaves_go h]; exact ⟨rfl, .inl ⟨rfl, rfl⟩⟩

/-- Only the identity check ends a call. -/
theorem act_ended {a : Act} {s s' : State} (h : act a s = .ended s') :
    ∃ r e, a = .check r e ∧ s.drv.sh_in ≠ e ∧ s' = raise (.chipIdentityMismatch r s.drv.sh_in) s := by
  have hd : ∀ x k s, toData x k s ≠ .ended s' := by
    intro x k s h; unfold toData at h; split at h <;> exact Progress.noConfusion h
  cases a with
  | check r e =>
    simp only [act] at h
    split at h
    · exact Progress.noConfusion h
    · exact ⟨r, e, rfl, ‹_›, (Progress.ended.inj h).symm⟩
  | bus x =>
    simp only [act, busAct] at h
    split at h
    · split at h <;> exact Progress.noConfusion h
    · unfold waitReady at h; split at h <;> exact Progress.noConfusion h
    · unfold afterFirst at h
      split at h
      · exact Progress.noConfusion h
      · exact absurd h (hd _ _ _)
      · exact absurd h (hd _ _ _)
    · exact absurd h (hd _ _ _)
    · unfold waitReady at h; split at h <;> exact Progress.noConfusion h
  | sniffLoop => simp only [act, sniffHead] at h; split at h <;> exact Progress.noConfusion h
  | init => simp only [act] at h; split at h <;> exact Progress.noConfusion h
  | frames p =>
    simp only [act, burstAct] at h
    split at h
    · split at h <;> exact Progress.noConfusion h
    · exact Progress.noConfusion h
  | _ => simp only [act] at h; exact Progress.noConfusion h

theorem actOn_ended_iff {n : Nat} {a : Act} {s s' : State} (h : actOn n a s = .ended s') :
    ∃ r e, a = .check r e ∧ s.drv.sh_in ≠ e ∧ s' = raise (.chipIdentityMismatch r s.drv.sh_in) s := by
  induction n generalizing s with
  | zero => exact act_ended h
  | succ n ih =>
    rw [actOn] at h
    split at h
    · rename_i s'' hm
      obtain ⟨r, e, rfl, -⟩ := ih h
      simp only [act] at hm
      split at hm <;> exact Progress.noConfusion hm
    · exact act_ended h

/-! ## Inductions over a run -/

/-- A run keeps what every action keeps. -/
theorem ActKeeps.of_run {P : State → Prop} (hP : ActKeeps P) {acts : List Act} {s t : State} (hs : P s)
    (h : run acts s = .next t) : P t := by
  induction acts generalizing s with
  | nil => cases h; exact hP.pend [] s hs
  | cons a k ih =>
    rw [run] at h
    split at h
    · exact ih (hP.of_actOn hs (.inl ‹_›)) h
    · cases h; exact hP.pend _ _ (hP.of_actOn hs (.inr (.inl ‹_›)))
    · cases h; exact hP.pend _ _ (hP.of_actOn hs (.inr (.inr (.inl ‹_›))))
    · cases h; exact hP.of_actOn hs (.inr (.inr (.inr ‹_›)))
    · cases h

/-- What one action of the call in flight can lead to. -/
theorem tick_next {a : Act} {k : List Act} {s t : State} (hp : s.host.pend = a :: k) (h : tick s = .next t) :
    ∃ s', (act a s = .go s' ∧ t = { s' with host := { s'.host with pend := k } }) ∨
      ((act a s = .more s' ∨ act a s = .again s') ∧ t = { s' with host := { s'.host with pend := a :: k } }) ∨
      (act a s = .ended s' ∧ t = s') := by
  unfold tick at h
  simp only [hp] at h
  split at h
  · exact ⟨_, .inl ⟨‹_›, by cases h; rfl⟩⟩
  · exact ⟨_, .inr (.inl ⟨.inl ‹_›, by cases h; rfl⟩)⟩
  · exact ⟨_, .inr (.inl ⟨.inr ‹_›, by cases h; rfl⟩)⟩
  · exact ⟨_, .inr (.inr ⟨‹_›, by cases h; rfl⟩)⟩
  · cases h

theorem ActKeeps.of_tick {P : State → Prop} (hP : ActKeeps P) {s t : State} (hs : P s) (h : tick s = .next t) : P t := by
  cases hp : s.host.pend with
  | nil => simp only [tick, hp] at h; cases h; exact hs
  | cons a k =>
    obtain ⟨s', ⟨ha, rfl⟩ | ⟨ha | ha, rfl⟩ | ⟨ha, rfl⟩⟩ := tick_next hp h
    · exact hP.pend _ _ (hP.of_act hs (.inl ha))
    · exact hP.pend _ _ (hP.of_act hs (.inr (.inl ha)))
    · exact hP.pend _ _ (hP.of_act hs (.inr (.inr (.inl ha))))
    · exact hP.of_act hs (.inr (.inr (.inr ha)))

/-- What a property must satisfy beside to be kept by every step. -/
structure StepKeeps (P : State → Prop) : Prop extends ActKeeps P where
  calls : ∀ c s, P s → P { s with host := { s.host with calls := c } }
  drive : ∀ g s, P s → P (drive g s)
  txframe : ∀ p s, P s → P (sendFrame p s)
  cells : ∀ p s, P s → P (sendCells p s)
  edge : ∀ l ts el s, P s → P (takeEdge l ts el s)
  serial : ∀ v s, P s → P { s with ses := { s.ses with serial := some v } }
  channel : ∀ v s, P s → P { s with ses := { s.ses with channel := v } }

theorem StepKeeps.of_driveAll {P : State → Prop} (hP : StepKeeps P) (gs : List Segment) {s : State} (hs : P s) :
    P (driveAll gs s) := by
  induction gs generalizing s with
  | nil => exact hs
  | cons g gs ih => exact ih (hP.drive g s hs)

/-! ## What an instruction can do -/

/-- Every instruction asks first whether it is accepted. -/
theorem exec_accept (i : Instr) (s : State) : ∃ f, exec i s = accept s f := by
  cases i <;>
    simp only [exec, execInit, execExec, execRead, execWrite, execWburst, execPfreq, execPulse, execTxframe,
      execTxburst, execTxen, execTxdis, execDecreset, execPoll, execEdge, execSetser, execSetch, execSend,
      execSniff, execStartup, execUp, execDown, execStop, execFmtS, execFmtHRead, execFmtHWrite, execFmtD,
      execFmtFreq, execFmtPacket, execCodeUpPress, execCodeUpRelease, execCodeDownPress, execCodeDownRelease,
      execCodeStop, execSymHeader, execSymStart, execSymBit1, execSymBit0, execWinStartH, execWinStartL,
      execWinLong, execWinShort, sendBare] <;>
    exact ⟨_, rfl⟩

/-- What an instruction is, beside its entry check: a run of actions, or one of the direct effects. -/
inductive Direct (i : Instr) (s t : State) : Prop
  | acts (k : List Act) (hk : callActs s i = some k) (h : run k s = .next t)
  | init (hi : i = .init) (he : initEntry s = none) (h : t = returnWith .success (initPulse s))
  | bare (b : Byte) (hi : isBareByte i = true) (hu : BusUsable s) (h : t = returnWith .success (txByte b s))
  | drive (gs : List Segment) (h : t = returnWith .success (driveAll gs s))
  | frame (p : Packet) (h : t = returnWith .success (sendFrame p s))
  | cells (p : Packet) (h : t = returnWith .success (sendCells p s))
  | lineOn (h : t = returnWith .success (lineOn s))
  | lineOff (h : t = returnWith .success (lineOff s))
  | arm (h : t = returnWith .success (arm s))
  | poll (h : t = returnWith .success (pollLine s))
  | edge (l : Level) (ts el : Nat) (h : t = returnWith .success (takeEdge l ts el s))
  | serial (v : Serial) (hi : i = .setser v) (h : t = returnWith .success { s with ses := { s.ses with serial := some v } })
  | channel (v : Byte) (hi : i = .setch v) (h : t = returnWith .success { s with ses := { s.ses with channel := v } })
  | raise (hi : (codesOf s.cfg i).isSome) (h : t = raise .noSerialConfigured s)
  | verdict (b : Bool) (h : t = returnWith (.verdict b) s)

theorem onDrivenLine_next {f : State → State} {s t : State} (h : onDrivenLine f s = .next t) :
    t = returnWith .success (f s) := by
  unfold onDrivenLine at h
  split at h <;> cases h
  rfl

theorem sendCodes_next {i : Instr} {c1 : Byte} {c2 : Option Byte} {s t : State} (hi : codesOf s.cfg i = some (c1, c2))
    (h : sendCodes c1 c2 s = .next t) : Direct i s t := by
  unfold sendCodes at h
  split at h
  · cases h; exact .raise (by rw [hi]; rfl) rfl
  · exact .acts _ (by simp only [callActs, hi, ‹s.ses.serial = _›]) h

theorem sendBare_next {b : Option Byte} {r : Refusal} {s t : State} {i : Instr} (hi : isBareByte i = true)
    (h : sendBare b r s = .next t) : CanCall s ∧ Direct i (returnWith .none s) t := by
  obtain ⟨hc, h⟩ := accept_next h
  refine ⟨hc, ?_⟩
  split at h <;> cases h
  exact .bare _ hi (busEntry_eq_none.1 ‹_›) rfl

/-- Every next state of exec comes from an accepted call that runs actions or has one direct effect. -/
theorem exec_next {i : Instr} {s t : State} (h : exec i s = .next t) :
    CanCall s ∧ Direct i (returnWith .none s) t := by
  cases i with
  | fmtS st => exact sendBare_next rfl h
  | fmtHRead r => exact sendBare_next rfl h
  | fmtHWrite r => exact sendBare_next rfl h
  | fmtD b => exact sendBare_next rfl h
  | init =>
    simp only [exec, execInit] at h
    obtain ⟨hc, h⟩ := accept_next h
    refine ⟨hc, ?_⟩
    split at h <;> cases h
    exact .init rfl ‹_› rfl
  | exec st => exact ⟨(accept_next h).1, .acts _ rfl (accept_next h).2⟩
  | read r => exact ⟨(accept_next h).1, .acts _ rfl (accept_next h).2⟩
  | write r b => exact ⟨(accept_next h).1, .acts _ rfl (accept_next h).2⟩
  | wburst r bs => exact ⟨(accept_next h).1, .acts _ rfl (accept_next h).2⟩
  | pfreq m => exact ⟨(accept_next h).1, .acts _ rfl (accept_next h).2⟩
  | fmtFreq w => exact ⟨(accept_next h).1, .acts _ rfl (accept_next h).2⟩
  | sniff => exact ⟨(accept_next h).1, .acts _ rfl (accept_next h).2⟩
  | startup => exact ⟨(accept_next h).1, .acts _ rfl (accept_next h).2⟩
  | send c1 c2 => exact ⟨(accept_next h).1, sendCodes_next rfl (accept_next h).2⟩
  | up => exact ⟨(accept_next h).1, sendCodes_next rfl (accept_next h).2⟩
  | down => exact ⟨(accept_next h).1, sendCodes_next rfl (accept_next h).2⟩
  | stop => exact ⟨(accept_next h).1, sendCodes_next rfl (accept_next h).2⟩
  | codeUpPress => exact ⟨(accept_next h).1, sendCodes_next rfl (accept_next h).2⟩
  | codeUpRelease => exact ⟨(accept_next h).1, sendCodes_next rfl (accept_next h).2⟩
  | codeDownPress => exact ⟨(accept_next h).1, sendCodes_next rfl (accept_next h).2⟩
  | codeDownRelease => exact ⟨(accept_next h).1, sendCodes_next rfl (accept_next h).2⟩
  | codeStop => exact ⟨(accept_next h).1, sendCodes_next rfl (accept_next h).2⟩
  | pulse lvl d =>
    simp only [exec, execPulse] at h
    obtain ⟨hc, h⟩ := accept_next h
    refine ⟨hc, ?_⟩
    split at h
    · cases h
    · exact .drive [(lvl, d)] (onDrivenLine_next h)
  | txframe p => exact ⟨(accept_next h).1, .frame p (onDrivenLine_next (accept_next h).2)⟩
  | txburst p => exact ⟨(accept_next h).1, .acts _ rfl (accept_next h).2⟩
  | fmtPacket v ch c => exact ⟨(accept_next h).1, .cells _ (onDrivenLine_next (accept_next h).2)⟩
  | symHeader => exact ⟨(accept_next h).1, .drive _ (onDrivenLine_next (accept_next h).2)⟩
  | symStart => exact ⟨(accept_next h).1, .drive _ (onDrivenLine_next (accept_next h).2)⟩
  | symBit1 => exact ⟨(accept_next h).1, .drive _ (onDrivenLine_next (accept_next h).2)⟩
  | symBit0 => exact ⟨(accept_next h).1, .drive _ (onDrivenLine_next (accept_next h).2)⟩
  | txen => simp only [exec, execTxen] at h; obtain ⟨hc, h⟩ := accept_next h; cases h; exact ⟨hc, .lineOn rfl⟩
  | txdis => simp only [exec, execTxdis] at h; obtain ⟨hc, h⟩ := accept_next h; cases h; exact ⟨hc, .lineOff rfl⟩
  | decreset => simp only [exec, execDecreset] at h; obtain ⟨hc, h⟩ := accept_next h; cases h; exact ⟨hc, .arm rfl⟩
  | poll => simp only [exec, execPoll] at h; obtain ⟨hc, h⟩ := accept_next h; cases h; exact ⟨hc, .poll rfl⟩
  | edge l ts el =>
    simp only [exec, execEdge] at h
    obtain ⟨hc, h⟩ := accept_next h
    refine ⟨hc, ?_⟩
    split at h <;> cases h
    exact .edge l ts el rfl
  | setser v => simp only [exec, execSetser] at h; obtain ⟨hc, h⟩ := accept_next h; cases h; exact ⟨hc, .serial v rfl rfl⟩
  | setch v => simp only [exec, execSetch] at h; obtain ⟨hc, h⟩ := accept_next h; cases h; exact ⟨hc, .channel v rfl rfl⟩
  | winStartH el => simp only [exec, execWinStartH] at h; obtain ⟨hc, h⟩ := accept_next h; cases h; exact ⟨hc, .verdict _ rfl⟩
  | winStartL el => simp only [exec, execWinStartL] at h; obtain ⟨hc, h⟩ := accept_next h; cases h; exact ⟨hc, .verdict _ rfl⟩
  | winLong el => simp only [exec, execWinLong] at h; obtain ⟨hc, h⟩ := accept_next h; cases h; exact ⟨hc, .verdict _ rfl⟩
  | winShort el => simp only [exec, execWinShort] at h; obtain ⟨hc, h⟩ := accept_next h; cases h; exact ⟨hc, .verdict _ rfl⟩

/-- An instruction keeps what every action and every direct effect keeps. -/
theorem StepKeeps.of_exec {P : State → Prop} (hP : StepKeeps P) {i : Instr} {s t : State} (hs : P s)
    (h : exec i s = .next t) : P t := by
  obtain ⟨-, h⟩ := exec_next h
  have hs : P (returnWith .none s) := hP.ret _ _ hs
  cases h with
  | acts k _ h => exact hP.of_run hs h
  | init hi he h => subst h; exact hP.ret _ _ (hP.init _ he hs)
  | bare b hi hu h => subst h; exact hP.ret _ _ (hP.tx b _ hs)
  | drive gs h => subst h; exact hP.ret _ _ (hP.of_driveAll gs hs)
  | frame p h => subst h; exact hP.ret _ _ (hP.txframe p _ hs)
  | cells p h => subst h; exact hP.ret _ _ (hP.cells p _ hs)
  | lineOn h => subst h; exact hP.ret _ _ (hP.lineOn _ hs)
  | lineOff h => subst h; exact hP.ret _ _ (hP.lineOff _ hs)
  | arm h => subst h; exact hP.ret _ _ (hP.arm _ hs)
  | poll h => subst h; exact hP.ret _ _ (hP.poll _ hs)
  | edge l ts el h => subst h; exact hP.ret _ _ (hP.edge l ts el _ hs)
  | serial v hi h => subst h; exact hP.ret _ _ (hP.serial v _ hs)
  | channel v hi h => subst h; exact hP.ret _ _ (hP.channel v _ hs)
  | raise hi h => subst h; exact hP.raise _ _ hs
  | verdict b h => subst h; exact hP.ret _ _ hs

/-- A call that begins takes its first action, or is one. -/
theorem startCall_next {i : Instr} {s t : State} (h : startCall i s = .next t) :
    CanCall s ∧ ((∃ k, callActs s i = some k ∧ tick { s with host := { s.host with ret := .none, pend := k } } = .next t) ∨
      (callActs s i = none ∧ exec i s = .next t)) := by
  unfold startCall at h
  split at h
  · exact ⟨(accept_next h).1, .inl ⟨_, ‹_›, (accept_next h).2⟩⟩
  · exact ⟨(exec_next h).1, .inr ⟨‹_›, h⟩⟩

/-- Every next state of a step is a rest, an action of the call in flight, or a call that begins. -/
theorem step_next {s t : State} (h : step s = .next t) :
    s.ses.sess_phase ≠ .halted ∧
      ((s.host.pend = [] ∧ s.host.calls = [] ∧ t = s) ∨
        (s.host.pend ≠ [] ∧ tick s = .next t) ∨
        (s.host.pend = [] ∧ ∃ i rest, decode s.host.calls = .ok (i, rest) ∧
          startCall i { s with host := { s.host with calls := rest } } = .next t)) := by
  unfold step at h
  split at h
  · cases h
  · rename_i a k hp hn
    exact ⟨fun hh => hn hh, .inr (.inl ⟨by rw [hp]; exact List.cons_ne_nil _ _, h⟩)⟩
  · rename_i hp hn
    refine ⟨fun hh => hn hh, ?_⟩
    unfold fetch at h
    cases hc : s.host.calls with
    | nil =>
      rw [hc] at h
      cases h
      exact .inl ⟨hp, rfl, rfl⟩
    | cons b bs =>
      simp only [hc] at h
      cases hd : decode (b :: bs) with
      | error e => simp [hd] at h
      | ok p =>
        simp only [hd] at h
        exact .inr (.inr ⟨hp, p.1, p.2, rfl, h⟩)

/-- A step keeps what every action and every direct effect keeps. -/
theorem StepKeeps.of_step {P : State → Prop} (hP : StepKeeps P) {s t : State} (hs : P s)
    (h : step s = .next t) : P t := by
  obtain ⟨-, ⟨-, -, h⟩ | ⟨-, h⟩ | ⟨-, i, rest, -, h⟩⟩ := step_next h
  · rw [h]; exact hs
  · exact hP.of_tick hs h
  · have hs := hP.calls rest s hs
    obtain ⟨-, ⟨k, -, h⟩ | ⟨-, h⟩⟩ := startCall_next h
    · exact hP.of_tick (hP.pend k _ (hP.ret .none _ hs)) h
    · exact hP.of_exec hs h

end Sys2Proof.Machine
end

