-- ==== Sys2Proof/Laws/Wave.lean ====
section
/-! SUPPORT. Laws of waveforms and of the decoder reading them: the segments and the edge events of bit
cells, and what the events of a frame's cells do to the decoder. -/

namespace Sys2Proof.Machine

/-- How long a bit's high half lasts (R100). -/
def highWidth (b : Bool) : Nat := if b then 733 else 366

/-- How long its low half lasts (R100). -/
def lowWidth (b : Bool) : Nat := if b then 366 else 733

theorem bitCell_eq (b : Bool) : bitCell b = [(.high, highWidth b), (.low, lowWidth b)] := by cases b <;> rfl

theorem highWidth_add_lowWidth (b : Bool) : highWidth b + lowWidth b = 1099 := by cases b <;> rfl

theorem cells_high (bits : List Bool) (k : Nat) : (bits.flatMap bitCell)[2*k]? = bits[k]?.map fun b =>
    (Level.high, highWidth b) := by
  induction bits generalizing k with
  | nil => simp
  | cons b bs ih =>
    rw [List.flatMap_cons, bitCell_eq]
    cases k with
    | zero => simp
    | succ k => simpa [Nat.mul_succ] using ih k

theorem cells_low (bits : List Bool) (k : Nat) : (bits.flatMap bitCell)[2*k+1]? = bits[k]?.map fun b =>
    (Level.low, lowWidth b) := by
  induction bits generalizing k with
  | nil => simp
  | cons b bs ih =>
    rw [List.flatMap_cons, bitCell_eq]
    cases k with
    | zero => simp
    | succ k => simpa [Nat.mul_succ] using ih k

theorem length_cells (bits : List Bool) : (bits.flatMap bitCell).length = 2 * bits.length := by
  induction bits with
  | nil => rfl
  | cons b bs ih => rw [List.flatMap_cons, bitCell_eq]; simp [ih]; omega

theorem packetBits_get (p : Packet) (k : Nat) (hk : k < 40) : (packetBits p)[k]? = some
    (p.getLsbD (39 - k)) := by
  simp [packetBits, hk]

/-- The edges of cells on a line that is LOW before them. -/
theorem lineEdges_cells (bits : List Bool) (prev now : Nat) (rest : List Segment) :
   lineEdges .low prev now (bits.flatMap bitCell ++ rest) =
    (match bits with
     | [] => lineEdges .low prev now rest
     | b :: bs => ⟨.high, now, now - prev⟩ :: ⟨.low, now + highWidth b, highWidth b⟩ ::
         lineEdges .low (now + highWidth b) (now + 1099) (bs.flatMap bitCell ++ rest)) := by
  cases bits with
  | nil => rfl
  | cons b bs =>
    rw [List.flatMap_cons, bitCell_eq]
    simp [lineEdges, Nat.add_assoc, highWidth_add_lowWidth]

theorem length_lineEdges_cells (bits : List Bool) (prev now : Nat) :
    (lineEdges .low prev now (bits.flatMap bitCell)).length = 2 * bits.length := by
  induction bits generalizing prev now with
  | nil => rfl
  | cons b bs ih =>
    have := lineEdges_cells (b :: bs) prev now []
    simp only [List.append_nil] at this
    rw [this]; simp [ih]; omega

theorem lineEdges_cells_get (bits : List Bool) (prev now k : Nat) (rest : List Segment) (b : Bool)
    (hb : bits[k]? = some b) :
   ((lineEdges .low prev now (bits.flatMap bitCell ++ rest))[2*k]?.map fun e => (e.lvl, e.ts)) = some (.high, now + 1099 * k) ∧
   (lineEdges .low prev now (bits.flatMap bitCell ++ rest))[2*k+1]? =
     some ⟨.low, now + 1099*k + highWidth b, highWidth b⟩ := by
  induction bits generalizing prev now k with
  | nil => simp at hb
  | cons c bs ih =>
    rw [lineEdges_cells]
    cases k with
    | zero => simp at hb; simp [hb]
    | succ k =>
      have := ih (now + highWidth c) (now + 1099) k (by simpa using hb)
      simp only [Nat.mul_succ, List.getElem?_cons_succ]
      rw [show 1099 * k + 1099 = 1099 + 1099 * k by omega]
      simpa only [Nat.add_assoc] using this

/-- The first two edges of a frame, and its cells. -/
theorem lineEdges_frame (p : Packet) (prev t0 : Nat) (rest : List Segment) : lineEdges .low prev t0
    (frame p ++ rest) =
   ⟨.high, t0 + 8796, t0 + 8796 - prev⟩ :: ⟨.low, t0 + 13554, 4758⟩ ::
     lineEdges .low (t0 + 13554) (t0 + 15020) ((packetBits p).flatMap bitCell ++ rest) := by
  rw [frame_eq]; simp [lineEdges]

/-- The edges of cells do not depend on what follows them. -/
theorem lineEdges_cells_append (bits : List Bool) (prev now : Nat) (rest : List Segment) :
   lineEdges .low prev now (bits.flatMap bitCell ++ rest) = lineEdges .low prev now (bits.flatMap bitCell) ++
     lineEdges .low
       (match bits.getLast? with
        | none => prev
        | some b => now + 1099 * bits.length - lowWidth b)
       (now + 1099 * bits.length) rest := by
  induction bits generalizing prev now with
  | nil => rfl
  | cons c bs ih =>
    have := lineEdges_cells (c :: bs) prev now []
    simp only [List.append_nil] at this
    rw [lineEdges_cells, this]
    simp only [List.cons_append, ih]
    cases bs with
    | nil => have := highWidth_add_lowWidth c; simp; congr 1; omega
    | cons d ds =>
      rw [List.getLast?_cons_cons]
      cases hq : (d :: ds).getLast? with
      | none => simp at hq
      | some b =>
        have : now + 1099 + 1099 * (d :: ds).length = now + 1099 * (c :: d :: ds).length := by simp only [List.length_cons]; omega
        simp only [this]

theorem packetBits_getLast (p : Packet) : (packetBits p).getLast? = some (p.getLsbD 0) := by
  rw [List.getLast?_eq_getElem?, length_packetBits]
  exact packetBits_get p 39 (by omega)

/-- An event that may follow is taken whole. -/
theorem exec_edge {l : Level} {ts el : Nat} {s : State} (hc : CanCall s)
    (hf : edgeFollows s.dec.last_edge l ts = true) :
   exec (.edge l ts el) s = .next (returnWith .success (takeEdge l ts el (returnWith .none s))) := by
  have : exec (.edge l ts el) s = accept s fun s =>
    if edgeFollows s.dec.last_edge l ts then .next (returnWith .success (takeEdge l ts el s))
    else .refused .eventsIllFormed := by unfold exec execEdge; rfl
  rw [this, accept_of_canCall hc]
  simp [returnWith, hf]

/-- A state with another decoder and other received packets, a call having returned. -/
def withDecoder (s : State) (d : Ookdec) (rx : List (Packet × Nat)) : State :=
  { s with dec := d, ghost := { s.ghost with rx_out := rx }, host := { s.host with ret := .success } }

theorem takeAll_cons {l : Level} {ts el : Nat} {s : State} (hc : CanCall s)
    (hf : edgeFollows s.dec.last_edge l ts = true) (es : List EdgeEvent) :
   takeAll (⟨l, ts, el⟩ :: es) s = takeAll es (returnWith .success (takeEdge l ts el (returnWith .none s))) := by
  rw [takeAll, exec_edge hc hf]

theorem classify_highWidth (i : Fin 40) (b : Bool) (s : State) : classify i
    (highWidth b) s = { s with dec := { s.dec with acc := shiftIn s.dec.acc b, dstate := .bitL i } } := by
  cases b <;> simp [classify, highWidth, show inLong 733 = true by decide, show inLong 366 = false by decide,
    show inShort 366 = true by decide]

theorem inComplement_lowWidth (b : Bool) : inComplement b (lowWidth b) = true := by cases b <;> rfl

theorem shiftIn_bit0 (a : Packet) (b : Bool) : (shiftIn a b).getLsbD 0 = b := by simp [shiftIn]

/-- The falling edge of a bit cell. -/
theorem takeAll_high (i : Fin 40) (b : Bool) (ts : Nat) (s : State) (hc : CanCall s)
    (hd : s.dec.dstate = .bitH i) (hl : s.dec.last_edge = some (.high, ts)) :
   ∀ es, takeAll (⟨.low, ts + highWidth b, highWidth b⟩ :: es) s = takeAll es (withDecoder s
     { s.dec with dstate := .bitL i, acc := shiftIn s.dec.acc b, last_edge := some (.low, ts + highWidth b) }
     s.ghost.rx_out) := by
  intro es
  rw [takeAll_cons hc (by simp [hl, edgeFollows])]
  congr 1
  simp only [takeEdge, transition, returnWith, hd, classify_highWidth, withDecoder]

/-- The rising edge after a bit cell that is not the last. -/
theorem takeAll_low (i : Fin 40) (hi : i.val < 39) (ts : Nat) (s : State) (hc : CanCall s)
    (hd : s.dec.dstate = .bitL i) {t0 : Nat} (hl : s.dec.last_edge = some (.low, t0)) (ht : t0 ≤ ts) :
   ∀ es, takeAll (⟨.high, ts, lowWidth (s.dec.acc.getLsbD 0)⟩ :: es) s = takeAll es (withDecoder s
     { s.dec with dstate := .bitH ⟨i.val + 1, by omega⟩, last_edge := some (.high, ts) } s.ghost.rx_out) := by
  intro es
  rw [takeAll_cons hc (by simp [hl, edgeFollows, ht])]
  congr 1
  simp only [takeEdge, transition, returnWith, hd, withDecoder, complement, inComplement_lowWidth, if_true, dif_pos hi, setDState]

/-- The events of cells up to the last high half: all bits are in the accumulator. -/
theorem takeAll_cells (bs : List Bool) (i : Fin 40) (b : Bool) (ts : Nat) (s : State)
    (hi : i.val + bs.length = 39) (hc : CanCall s) (hd : s.dec.dstate = .bitH i)
    (hl : s.dec.last_edge = some (.high, ts)) :
   ∃ now, ∀ tail, takeAll (⟨.low, ts + highWidth b, highWidth b⟩ ::
       lineEdges .low (ts + highWidth b) (ts + 1099) (bs.flatMap bitCell ++ tail)) s =
     takeAll (lineEdges .low now (ts + 1099 * (bs.length + 1)) tail) (withDecoder s
       { s.dec with dstate := .bitL 39, acc := (b :: bs).foldl shiftIn s.dec.acc, last_edge := some (.low, now) }
       s.ghost.rx_out)
     ∧ now + lowWidth ((b :: bs).getLast (by simp)) = ts + 1099 * (bs.length + 1) := by
  induction bs generalizing i b ts s with
  | nil =>
    refine ⟨ts + highWidth b, fun tail => ⟨?_, by have := highWidth_add_lowWidth b; simp; omega⟩⟩
    rw [takeAll_high i b ts s hc hd hl]
    have : i = 39 := by ext; simpa using hi
    simp [this]
  | cons c bs ih =>
    simp only [List.length_cons] at hi
    have key := ih ⟨i.val + 1, by omega⟩ c (ts + 1099) (withDecoder s
      { s.dec with
        dstate := .bitH ⟨i.val + 1, by omega⟩, acc := shiftIn s.dec.acc b, last_edge := some (.high, ts + 1099) }
      s.ghost.rx_out) (by simp; omega) hc rfl rfl
    obtain ⟨now, hk⟩ := key
    refine ⟨now, fun tail => ⟨?_, ?_⟩⟩
    · rw [takeAll_high i b ts s hc hd hl, lineEdges_cells]
      have hlo : ts + 1099 - (ts + highWidth b) = lowWidth b := by have := highWidth_add_lowWidth b; omega
      simp only [hlo]
      have := takeAll_low i (by omega) (ts + 1099) (withDecoder s
        { s.dec with dstate := .bitL i, acc := shiftIn s.dec.acc b, last_edge := some (.low, ts + highWidth b) }
        s.ghost.rx_out) hc rfl rfl (by have := highWidth_add_lowWidth b; omega)
      simp only [withDecoder, shiftIn_bit0] at this ⊢
      rw [this]
      have := (hk tail).1
      simp only [withDecoder] at this
      rw [this]
      simp only [List.length_cons, List.foldl_cons]
      rw [show ts + 1099 + 1099 * (bs.length + 1) = ts + 1099 * (bs.length + 1 + 1) by omega]
    · have := (hk []).2
      rw [List.getLast_cons_cons, this, List.length_cons]
      generalize bs.length = n
      omega

/-- What shifting bits in leaves in each place. -/
theorem foldl_shiftIn_get (bits : List Bool) (acc : Packet) (j : Nat) (hj : j < 40) :
    (bits.foldl shiftIn acc).getLsbD j = if j < bits.length then bits[bits.length - 1 - j]?.getD false else acc.getLsbD
    (j - bits.length) := by
  induction bits generalizing acc with
  | nil => simp
  | cons b bs ih =>
    rw [List.foldl_cons, ih, List.length_cons]
    by_cases h : j < bs.length
    · rw [if_pos h, if_pos (by omega), show bs.length + 1 - 1 - j = (bs.length - 1 - j) + 1 by omega]
      simp
    · rw [if_neg h]
      by_cases h2 : j = bs.length
      · subst h2; simp [shiftIn]
      · rw [if_neg (by omega), shiftIn]
        have h3 : j - bs.length = (j - (bs.length + 1)) + 1 := by omega
        simp [h3]
        omega

theorem foldl_shiftIn_packet (p : Packet) : (packetBits p).foldl shiftIn 0 = p := by
  apply BitVec.eq_of_getLsbD_eq
  intro j hj
  rw [foldl_shiftIn_get _ _ _ hj, length_packetBits, if_pos hj, packetBits_get p _ (by omega)]
  simp; congr 1; omega

/-- The events of a frame up to its last high half: the packet is in the accumulator. -/
theorem takeAll_frame (p : Packet) (t1 t2 t3 t4 e1 last : Nat) (h12 : t1 ≤ t2) (h23 : t2 ≤ t3)
    (hm : t3 - t2 = 1466) (h4 : t3 + 43960 = t4) (hlst : last + lowWidth (p.getLsbD 0) = t4) (s : State)
    (hc : CanCall s) (hd : s.dec.dstate = .invalid) (hl : s.dec.last_edge = none) (tail) :
   takeAll (⟨.high, t1, e1⟩ :: ⟨.low, t2, 4758⟩ :: lineEdges .low t2 t3 ((packetBits p).flatMap bitCell ++ tail)) s =
     takeAll (lineEdges .low last t4 tail) (withDecoder s
       { s.dec with dstate := .bitL 39, acc := p, rx_ts := t3, last_edge := some (.low, last) }
       s.ghost.rx_out) := by
  rw [takeAll_cons hc (by simp [hl, edgeFollows])]
  simp only [takeEdge, transition, returnWith, hd, setDState]
  rw [takeAll_cons (by exact hc) (by simp [edgeFollows, h12])]
  simp only [takeEdge, transition, returnWith, setDState, show inStartH 4758 = true by decide, if_true]
  rw [lineEdges_cells]
  cases hb : packetBits p with
  | nil => have := length_packetBits p; simp [hb] at this
  | cons b bs =>
    have hlen : bs.length = 39 := by have := length_packetBits p; simpa [hb] using this
    simp only
    rw [takeAll_cons (by exact hc) (by simp [edgeFollows, h23])]
    simp only [takeEdge, transition, returnWith, setDState, hm, show inStartL 1466 = true by decide, if_true, enterBit0]
    obtain ⟨now, hk⟩ := takeAll_cells bs 0 b t3 (withDecoder s
      { s.dec with dstate := .bitH 0, rx_ts := t3, acc := 0, last_edge := some (.high, t3) }
      s.ghost.rx_out) (by simp [hlen]) hc rfl rfl
    have h1 := (hk tail).1
    have h2 := (hk tail).2
    have hlast : (b :: bs).getLast (by simp) = p.getLsbD 0 := by
      have : (b :: bs).getLast? = some (p.getLsbD 0) := by
        rw [← hb, packetBits_getLast]
      rw [List.getLast?_eq_some_getLast (by simp)] at this
      simpa using this
    rw [hlast, hlen] at h2
    have hnow : now = last := by omega
    have hf : (b :: bs).foldl shiftIn 0 = p := by rw [← hb, foldl_shiftIn_packet]
    simp only [withDecoder] at h1 ⊢
    have e : t3 + 1099 * (39 + 1) = t4 := by omega
    rw [hf, hlen, hnow, e] at h1
    rw [h1]

end Sys2Proof.Machine
end

