-- ==== Sys2Proof/Tests/Slice0.lean ====
section
/-! SUPPORT. Tests: ill-formed terms, words written out by hand, single steps against the vectors of
spec/95_test_vectors.md, and for every obligation with hypotheses a state and operands that meet them. -/

open Sys2Proof Sys2Proof.Machine

namespace Sys2Proof.Tests

set_option Elab.async false

/-! ## A configuration and states -/

/-- The example configuration EX of spec/95_test_vectors.md; values EX does not give are invented. -/
def ex : Config where
  flag_read_burst := 0xC0
  flag_write_burst := 0x40
  op_reset := 0x30
  op_idle := 0x36
  op_receive_mode := 0x34
  op_transmit_mode := 0x35
  op_calibrate := 0x33
  op_flush := 0x3A
  op_no_op := 0x3D
  op_others := []
  addr_freq_hi := 0x0D
  addr_freq_mid := 0x0E
  addr_freq_lo := 0x0F
  addr_pa_table := 0x3E
  addr_fifo := 0x3F
  addr_identity := [0x31]
  addr_config := []
  sclk_hz := (1000000, 1)
  t_reset_select_us := 3
  t_reset_settle_us := 40
  idle_sclk := .high
  idle_sdo := .low
  dummy_tx := 0x00
  startup_ops := [.strobe .reset, .carrier, .powerTable]
  pa_table := [0x00, 0xC0]
  chip_id_check := [(.identity 0, 0x14)]
  code_down_press := 0x33
  code_down_release := 0x3C
  code_stop := 0x55
  poll_period := 10
  time_bits := none
  fail_status := ⟨0⟩

/-- RDY LOW at the next eight samples. -/
def lows : Feed Level := ⟨[.low, .low, .low, .low, .low, .low, .low, .low], 0⟩

/-- After reset with the configuration EX; RDY is LOW, the chip answers 0x14. -/
def fresh : State :=
  { State.reset with
    cfg := ex
    env := { State.reset.env with rdy := lows, sdi := ⟨[0x14, 0x14, 0x14, 0x14], 0⟩ } }

/-- After INIT. -/
def ready : State :=
  { fresh with drv := ⟨0, 0, .released, .high, .low, .busctl, .idle, true⟩ }

/-- After INIT, RDY giving these levels. -/
def readyWith (l : List Level) : State := { ready with env := { ready.env with rdy := ⟨l, 0⟩ } }

/-- The line driven. -/
def driven : State := { ready with enc := { ready.enc with tx_mode := .driven } }

/-- A decoder state, a last event, an accumulator. -/
def decoding (d : DState) (last : Option (Level × Nat)) (acc : Packet) : State :=
  { ready with dec := { ready.dec with dstate := d, last_edge := last, acc := acc } }

/-- One sample of RXD coming, after the given time. -/
def listening (lvl : Level) (dt : Nat) : State := { ready with env := { ready.env with rx := ⟨[⟨dt, lvl⟩], 0⟩ } }

/-- With a serial. -/
def paired : State := { ready with ses := { ready.ses with serial := some 0x123456 } }

/-- What a step leaves, seen through `f`; nothing if it has no next state. -/
def seen {α : Type} (o : Host.Outcome State Fault Refusal) (f : State → α) : Option α :=
  match o with
  | .next s => some (f s)
  | _ => none

/-- Why a step is refused. -/
def refusal (o : Host.Outcome State Fault Refusal) : Option Refusal :=
  match o with
  | .refused r => some r
  | _ => none

/-! ## Well-formedness: each check refuses an ill-formed term -/

theorem test_wf_pulse_zero : Instr.wellFormed (.pulse .high 0) = false := by decide
theorem test_wf_pulse_one : Instr.wellFormed (.pulse .high 1) = true := by decide
theorem test_wf_pfreq_zero_denominator : Instr.wellFormed (.pfreq ⟨5, 0⟩) = false := by decide
theorem test_wf_pfreq_negative : Instr.wellFormed (.pfreq ⟨-1, 1⟩) = true := by decide

/-! ## Words written out by hand

The two command codes are the spec's bytes (R99); the others follow the table of log entry 2. -/

theorem test_word_up_press : decodeTableWord 8 0x11 = some .codeUpPress := by decide
theorem test_word_up_release : decodeTableWord 8 0x1E = some .codeUpRelease := by decide
theorem test_word_init : decode [0x40] = .ok (.init, []) := by decide
theorem test_word_exec : decode [0x41, 0x07, 0x02] = .ok (.exec (.other 2), []) := by decide
theorem test_word_read : decode [0x42, 0x05, 0x00] = .ok (.read (.identity 0), []) := by decide
theorem test_word_write : decode [0x43, 0x06, 0x03, 0xA5] = .ok (.write (.config 3) 0xA5, []) := by decide
theorem test_word_wburst : decode [0x44, 0x03, 0x01, 0x00, 0x01, 0xC0, 0x00] = .ok (.wburst .paTable [0x00, 0xC0], []) := by
  decide
theorem test_word_wburst_empty : decode [0x44, 0x04, 0x00, 0x99] = .ok (.wburst .fifo [], [0x99]) := by decide
theorem test_word_pfreq : decode [0x45, 0x00, 0x80, 0xD3, 0x02, 0x64] = .ok (.pfreq ⟨43392, 100⟩, []) := by decide
theorem test_word_pfreq_negative : decode [0x45, 0x01, 0x01, 0x02] = .ok (.pfreq ⟨-1, 2⟩, []) := by decide
theorem test_word_pfreq_no_rational : decode [0x45, 0x00, 0x01, 0x00] = .error .zeroDenominator := by decide
theorem test_word_pulse : decode [0x46, 0x01, 0xDD, 0x05] = .ok (.pulse .high 733, []) := by decide
theorem test_word_pulse_zero : decode [0x46, 0x01, 0x00] = .error .zeroDuration := by decide
theorem test_word_txframe : decode [0x47, 0xA1, 0xB2, 0xC3, 0x05, 0x11] = .ok (.txframe 0xA1B2C30511, []) := by decide
theorem test_word_txburst : decode [0x48, 0x80, 0, 0, 0, 0x01] = .ok (.txburst 0x8000000001, []) := by decide
theorem test_word_txen : decode [0x49] = .ok (.txen, []) := by decide
theorem test_word_txdis : decode [0x4A] = .ok (.txdis, []) := by decide
theorem test_word_decreset : decode [0x4B] = .ok (.decreset, []) := by decide
theorem test_word_poll : decode [0x4C] = .ok (.poll, []) := by decide
theorem test_word_edge : decode [0x4D, 0x00, 0x89, 0x06, 0x96, 0x25] = .ok (.edge .low 777 4758, []) := by decide
theorem test_word_setser : decode [0x4E, 0xA1, 0xB2, 0xC3] = .ok (.setser 0xA1B2C3, []) := by decide
theorem test_word_setch : decode [0x4F, 0x07] = .ok (.setch 0x07, []) := by decide
theorem test_word_send_one : decode [0x50, 0x55, 0x00] = .ok (.send 0x55 none, []) := by decide
theorem test_word_send_two : decode [0x50, 0x11, 0x01, 0x1E] = .ok (.send 0x11 (some 0x1E), []) := by decide
theorem test_word_sniff : decode [0x51] = .ok (.sniff, []) := by decide
theorem test_word_startup : decode [0x52] = .ok (.startup, []) := by decide
theorem test_word_up : decode [0x53] = .ok (.up, []) := by decide
theorem test_word_down : decode [0x54] = .ok (.down, []) := by decide
theorem test_word_stop : decode [0x55] = .ok (.stop, []) := by decide
theorem test_word_fmtS : decode [0x56, 0x01] = .ok (.fmtS .idle, []) := by decide
theorem test_word_fmtHRead : decode [0x57, 0x01] = .ok (.fmtHRead .freqMid, []) := by decide
theorem test_word_fmtHWrite : decode [0x58, 0x02] = .ok (.fmtHWrite .freqLo, []) := by decide
theorem test_word_fmtD : decode [0x59, 0xB0] = .ok (.fmtD 0xB0, []) := by decide
theorem test_word_fmtFreq : decode [0x5A, 0x10, 0xB0, 0x71] = .ok (.fmtFreq 0x10B071, []) := by decide
theorem test_word_fmtPacket : decode [0x5B, 0xA1, 0xB2, 0xC3, 0x05, 0x11] = .ok (.fmtPacket 0xA1B2C3 0x05 0x11, []) := by
  decide
theorem test_word_codeDownPress : decode [0x5E] = .ok (.codeDownPress, []) := by decide
theorem test_word_codeDownRelease : decode [0x5F] = .ok (.codeDownRelease, []) := by decide
theorem test_word_codeStop : decode [0x60] = .ok (.codeStop, []) := by decide
theorem test_word_symHeader : decode [0x61] = .ok (.symHeader, []) := by decide
theorem test_word_symStart : decode [0x62] = .ok (.symStart, []) := by decide
theorem test_word_symBit1 : decode [0x63] = .ok (.symBit1, []) := by decide
theorem test_word_symBit0 : decode [0x64] = .ok (.symBit0, []) := by decide
theorem test_word_winStartH : decode [0x65, 0xED, 0x29] = .ok (.winStartH 5357, []) := by decide
theorem test_word_winStartL : decode [0x66, 0x7F] = .ok (.winStartL 127, []) := by decide
theorem test_word_winLong : decode [0x67, 0x80, 0x01] = .ok (.winLong 128, []) := by decide
theorem test_word_winShort : decode [0x68, 0x00] = .ok (.winShort 0, []) := by decide
theorem test_word_unknown : decode [0x00] = .error .unknownOpcode := by decide
theorem test_word_truncated : decode [0x43, 0x00] = .error .truncated := by decide
theorem test_word_runs_first :
    step (fresh.withFetchWord 8 0x11) =
      exec .codeUpPress { fresh with host := { fresh.host with calls := List.replicate 8 0 } } := by
  rfl

/-! ## Single steps, against spec/95_test_vectors.md -/

/-- V1. -/
theorem test_exec_idle : seen (exec (.exec .idle) ready) (·.ghost.bus_log) =
    some [.selOn, .rdy, .tx 0x36, .rdy, .selOff] := by decide +kernel

/-- V2. -/
theorem test_read_version : seen (exec (.read (.identity 0)) ready) (fun t => (t.ghost.bus_log, t.host.ret)) =
    some ([.selOn, .rdy, .tx 0xF1, .rx 0x14, .selOff], .byte 0x14) := by decide +kernel

/-- V3. -/
theorem test_write_freq_hi : seen (exec (.write .freqHi 0x10) ready) (·.ghost.bus_log) =
    some [.selOn, .rdy, .tx 0x4D, .tx 0x10, .selOff] := by decide +kernel

/-- V4. -/
theorem test_wburst_patable : seen (exec (.wburst .paTable [0x00, 0xC0]) ready) (·.ghost.bus_log) =
    some [.selOn, .rdy, .tx 0x7E, .tx 0x00, .tx 0xC0, .selOff] := by decide +kernel

/-- V5. -/
theorem test_wburst_empty : seen (exec (.wburst .paTable []) ready) (·.ghost.bus_log) =
    some [.selOn, .rdy, .tx 0x7E, .selOff] := by decide +kernel

/-- V7. -/
theorem test_exec_stuck : seen (exec (.exec .idle) (readyWith [.high])) (fun t => (t.ghost.bus_log, t.drv.drv_phase)) =
    some ([.selOn], .wait1) := by decide +kernel

/-- V8. -/
theorem test_exec_stuck_second :
    seen (exec (.exec .transmitMode) (readyWith [.low, .high])) (fun t => (t.ghost.bus_log, t.drv.drv_phase)) =
      some ([.selOn, .rdy, .tx 0x35], .wait2) := by decide +kernel

/-- V10: the levels of `sdo`, and the byte shifted in. -/
theorem test_byte_on_the_wires : seen (exec (.fmtD 0xB0) ready) (fun t =>
      (t.ghost.line_log.filterMap (fun e => match e with | .sdo l => some l | _ => none), t.drv.sh_in, t.drv.sclk)) =
    some ([.high, .low, .high, .high, .low, .low, .low, .low], 0x14, .high) := by decide +kernel

/-- V11. -/
theorem test_init : seen (exec .init fresh) (fun t => (t.ghost.bus_log, t.drv.drv_init, t.drv.pin_mode, t.env.now)) =
    some ([.resetPulse], true, .busctl, 43) := by decide +kernel

/-- V12. -/
theorem test_before_init : refusal (exec (.exec .idle) fresh) = some .driverNotInitialised := by decide +kernel
theorem test_init_twice : refusal (exec .init ready) = some .alreadyInitialised := by decide +kernel

/-- V13. -/
theorem test_pfreq : seen (exec (.pfreq ⟨43392, 100⟩) ready) (·.ghost.bus_log) =
    some [.selOn, .rdy, .tx 0x4D, .tx 0x10, .selOff, .selOn, .rdy, .tx 0x4E, .tx 0xB0, .selOff,
      .selOn, .rdy, .tx 0x4F, .tx 0x71, .selOff] := by decide +kernel

/-- V14: halves round up, the largest word, the smallest refused frequency. -/
theorem test_freqWord_half : freqWord ⟨28437383, 65536⟩ = .ok 0x10B072 := by decide +kernel
theorem test_freqWord_315 : freqWord ⟨315, 1⟩ = .ok 0x0C1D8A := by decide +kernel
theorem test_freqWord_largest : freqWord ⟨66559998, 10000⟩ = .ok 0xFFFFFF := by decide +kernel
theorem test_freqWord_refused : freqWord ⟨13 * (2 ^ 25 - 1), 65536⟩ = .error .frequencyOutOfRange := by decide +kernel

/-- V20: the first segments, the last, and the length. -/
theorem test_txframe : seen (exec (.txframe 0xA1B2C30511) driven) (fun t =>
      (t.ghost.tx_log.take 5, t.ghost.tx_log.getLast?, t.ghost.tx_log.length, t.env.now)) =
    some ([(.low, 8796), (.high, 4758), (.low, 1466), (.high, 733), (.low, 366)], some (.low, 366), 83, 58980) := by
  decide +kernel

/-- V23: the length of a burst. -/
theorem test_txburst : seen (exec (.txburst 0xA1B2C30511) driven) (fun t => (t.ghost.tx_log.length, t.env.now)) =
    some (415, 294900) := by decide +kernel

/-- V24. -/
theorem test_pulse : seen (exec (.pulse .high 733) driven) (fun t => (t.ghost.tx_log, t.env.now)) =
    some ([(.high, 733)], 733) := by decide +kernel
theorem test_pulse_hiz : refusal (exec (.pulse .high 733) ready) = some .lineNotDriven := by decide +kernel

/-- R100. -/
theorem test_symStart : seen (exec .symStart driven) (·.ghost.tx_log) = some [(.high, 4758), (.low, 1466)] := by
  decide +kernel
theorem test_symBit0 : seen (exec .symBit0 driven) (·.ghost.tx_log) = some [(.high, 366), (.low, 733)] := by
  decide +kernel

/-- V37. -/
theorem test_edge_start_h : seen (exec (.edge .low 50 4758) (decoding .startH none 0)) (·.dec.dstate) = some .startL := by
  decide +kernel
theorem test_edge_start_l :
    seen (exec (.edge .high 777 1466) (decoding .startL none 5)) (fun t => (t.dec.dstate, t.dec.rx_ts, t.dec.acc)) =
      some (.bitH 0, 777, 0) := by decide +kernel
theorem test_edge_bit_h :
    seen (exec (.edge .low 20000 700) (decoding (.bitH 7) none 0x50)) (fun t => (t.dec.dstate, t.dec.acc)) =
      some (.bitL 7, 0xA1) := by decide +kernel
theorem test_edge_bit_h_between :
    seen (exec (.edge .low 20000 550) (decoding (.bitH 7) none 0x50)) (·.dec.dstate) = some .invalid := by decide +kernel
theorem test_edge_bit_l :
    seen (exec (.edge .high 20000 733) (decoding (.bitL 7) none 1)) (·.dec.dstate) = some .invalid := by decide +kernel
theorem test_edge_emit :
    seen (exec (.edge .high 20000 733) (decoding (.bitL 39) none 0xA1B2C30510)) (fun t => (t.dec.dstate, t.ghost.rx_out)) =
      some (.invalid, [(0xA1B2C30510, 0)]) := by decide +kernel

/-- V38: a change of level is an event. -/
theorem test_poll : seen (exec .poll (listening .high 20)) (fun t => (t.dec.dstate, t.dec.prev_ts, t.dec.prev_level)) =
    some (.startH, 20, .high) := by decide +kernel

/-- S4. -/
theorem test_win_short_edge : seen (exec (.winShort 486) ready) (·.host.ret) = some (.verdict false) := by decide +kernel
theorem test_win_short_in : seen (exec (.winShort 485) ready) (·.host.ret) = some (.verdict true) := by decide +kernel

/-- V50. -/
theorem test_setser_zero : seen (exec (.setser 0) fresh) (·.ses.serial) = some (some 0) := by decide +kernel
theorem test_setch : seen (exec (.setch 0x07) fresh) (·.ses.channel) = some 0x07 := by decide +kernel

/-- V51. -/
theorem test_send_one : seen (exec (.send 0x55 none) paired) (fun t =>
      (t.enc.tx_pkt, t.ghost.tx_log.length, t.ghost.bus_log, t.ses.radio_mode)) =
    some (0x1234560555, 417,
      [.selOn, .rdy, .tx 0x35, .rdy, .selOff, .selOn, .rdy, .tx 0x36, .rdy, .selOff], .idle) := by decide +kernel

/-- S6, P4. -/
theorem test_send_no_serial : seen (exec (.send 0x11 none) ready) (fun t => (t.host.ret, t.ghost.bus_log, t.ghost.tx_log)) =
    some (.raised .noSerialConfigured, [], []) := by decide +kernel

/-- P1. -/
theorem test_startup : seen (exec .startup fresh) (fun t => (t.ghost.bus_log, t.ses.radio_mode, t.host.ret)) =
    some ([.resetPulse, .selOn, .rdy, .tx 0xF1, .rx 0x14, .selOff, .selOn, .rdy, .tx 0x30, .rdy, .selOff,
      .selOn, .rdy, .tx 0x4D, .tx 0x10, .selOff, .selOn, .rdy, .tx 0x4E, .tx 0xB0, .selOff,
      .selOn, .rdy, .tx 0x4F, .tx 0x71, .selOff, .selOn, .rdy, .tx 0x7E, .tx 0x00, .tx 0xC0, .selOff],
      .unknown, .success) := by decide +kernel

/-- P5. -/
theorem test_startup_wrong_chip :
    seen (exec .startup { fresh with env := { fresh.env with sdi := ⟨[0, 0], 0⟩ } }) (fun t =>
      (t.ghost.bus_log, t.ses.sess_phase, t.host.ret)) =
    some ([.resetPulse, .selOn, .rdy, .tx 0xF1, .rx 0x00, .selOff], .halted,
      .raised (.chipIdentityMismatch (.identity 0) 0x00)) := by decide +kernel

/-- V52. -/
theorem test_sniff_cancelled :
    seen (exec .sniff { ready with env := { ready.env with rx := ⟨[⟨5, .low⟩], 0⟩, cancel := ⟨[true], 0⟩ } })
      (fun t => (t.ghost.bus_log, t.dec.dstate, t.host.ret)) =
    some ([.selOn, .rdy, .tx 0x34, .rdy, .selOff, .selOn, .rdy, .tx 0x36, .rdy, .selOff], .invalid, .success) := by
  decide +kernel

/-! ## Witnesses: states and operands that meet the hypotheses of the obligations -/

theorem ready_for : ReadyFor 8 ready := by
  intro k hk
  interval_cases k <;> rfl

theorem ready_for_le (n : Nat) (h : n ≤ 8) : ReadyFor n ready := fun k hk => ready_for k (by omega)

theorem ready_usable : CanCall ready ∧ BusUsable ready := ⟨⟨rfl, rfl, rfl⟩, rfl, rfl, by decide⟩

theorem witness_StepRunsTheDecodedCall :
    CanCall ready ∧ ready.ses.sess_phase ≠ .halted ∧ ready.host.pend = [] ∧ ready.host.calls = [] ∧
      decode (fresh.withFetchWord 8 0x11).host.calls = .ok (.codeUpPress, List.replicate 8 0) ∧
      callActs ready .codeUpPress = none ∧ decode [0x41, 0x01] = .ok (.exec .idle, []) ∧
      callActs ready (.exec .idle) = some [.bus (.strobe 0x36), .finish] ∧
      decode ({ ready with host := { ready.host with calls := [0x00] } } : State).host.calls = .error .unknownOpcode ∧
      ({ ready with host := { ready.host with pend := [.finish] } } : State).host.pend ≠ [] := by
  refine ⟨⟨rfl, rfl, rfl⟩, ?_⟩
  decide

theorem witness_DecodeUndoesEncode : Instr.wellFormed (.pulse .low 1) = true ∧ Instr.wellFormed (.pfreq ⟨0, 1⟩) = true := by
  decide

theorem witness_DecodedCallsAreWellFormed : decode [0x46, 0x00, 0x01] = .ok (.pulse .low 1, []) := by decide

theorem witness_InitPulsesTheChip : CanCall fresh ∧ fresh.drv.drv_init = false ∧ configOk fresh.cfg = true :=
  ⟨⟨rfl, rfl, rfl⟩, rfl, by decide⟩

theorem witness_ExecRunsAStrobeTransaction :
    CanCall ready ∧ BusUsable ready ∧ strobeByte ready.cfg .idle = some 0x36 ∧ ReadyFor 2 ready :=
  ⟨ready_usable.1, ready_usable.2, rfl, ready_for_le 2 (by omega)⟩

theorem witness_ExecRunsAStrobeTransaction_stuck :
    CanCall (readyWith [.high]) ∧ BusUsable (readyWith [.high]) ∧ rdyAhead (readyWith [.high]) 0 = .high ∧
      CanCall (readyWith [.low, .high]) ∧ BusUsable (readyWith [.low, .high]) ∧
      rdyAhead (readyWith [.low, .high]) 0 = .low ∧ rdyAhead (readyWith [.low, .high]) 1 = .high :=
  ⟨⟨rfl, rfl, rfl⟩, ⟨rfl, rfl, by decide⟩, rfl, ⟨rfl, rfl, rfl⟩, ⟨rfl, rfl, by decide⟩, rfl, rfl⟩

theorem witness_ReadReturnsTheChipsByte :
    CanCall ready ∧ BusUsable ready ∧ regAddr ready.cfg (.identity 0) = some 0x31 ∧ rdyAhead ready 0 = .low ∧
      CanCall (readyWith [.high]) ∧ BusUsable (readyWith [.high]) ∧
      regAddr (readyWith [.high]).cfg (.identity 0) = some 0x31 ∧ rdyAhead (readyWith [.high]) 0 = .high :=
  ⟨ready_usable.1, ready_usable.2, rfl, rfl, ⟨rfl, rfl, rfl⟩, ⟨rfl, rfl, by decide⟩, rfl, rfl⟩

theorem witness_WriteSendsHeaderAndByte :
    CanCall ready ∧ BusUsable ready ∧ regAddr ready.cfg .freqHi = some 0x0D ∧ rdyAhead ready 0 = .low ∧
      CanCall (readyWith [.high]) ∧ BusUsable (readyWith [.high]) ∧
      regAddr (readyWith [.high]).cfg .freqHi = some 0x0D ∧ rdyAhead (readyWith [.high]) 0 = .high :=
  ⟨ready_usable.1, ready_usable.2, rfl, rfl, ⟨rfl, rfl, rfl⟩, ⟨rfl, rfl, by decide⟩, rfl, rfl⟩

theorem witness_BurstSendsHeaderAndBuffer :
    CanCall ready ∧ BusUsable ready ∧ regAddr ready.cfg .fifo = some 0x3F ∧ rdyAhead ready 0 = .low ∧
      CanCall (readyWith [.high]) ∧ BusUsable (readyWith [.high]) ∧
      regAddr (readyWith [.high]).cfg .fifo = some 0x3F ∧ rdyAhead (readyWith [.high]) 0 = .high :=
  ⟨ready_usable.1, ready_usable.2, rfl, rfl, ⟨rfl, rfl, rfl⟩, ⟨rfl, rfl, by decide⟩, rfl, rfl⟩

/-- V14's boundaries: the largest word, and the smallest frequency refused. -/
theorem witness_FrequencyWordRoundsHalfUp :
    ((66559998 : Int) : Rat) / ((10000 : Nat) : Rat) * 65536 / 26 + 1 / 2 < 2 ^ 24 ∧
      (2 : Rat) ^ 24 ≤ ((13 * (2 ^ 25 - 1) : Int) : Rat) / ((65536 : Nat) : Rat) * 65536 / 26 + 1 / 2 ∧
      (-1 : Int) < 0 := by
  norm_num

theorem witness_PfreqWritesHighMiddleLow :
    CanCall ready ∧ BusUsable ready ∧ freqWord ⟨43392, 100⟩ = .ok 0x10B071 ∧ ReadyFor 3 ready :=
  ⟨ready_usable.1, ready_usable.2, by decide +kernel, ready_for_le 3 (by omega)⟩

theorem witness_PfreqWritesHighMiddleLow_stuck :
    BusUsable (readyWith [.low, .low, .high]) ∧ ReadyFor 2 (readyWith [.low, .low, .high]) ∧
      rdyAhead (readyWith [.low, .low, .high]) 2 = .high ∧ ReadyFor 1 (readyWith [.low, .high]) ∧
      rdyAhead (readyWith [.low, .high]) 1 = .high ∧ ReadyFor 0 (readyWith [.high]) ∧
      rdyAhead (readyWith [.high]) 0 = .high := by
  refine ⟨⟨rfl, rfl, by decide⟩, ?_, rfl, ?_, rfl, ?_, rfl⟩ <;> intro k hk <;> interval_cases k <;> rfl

theorem witness_PfreqOutOfRangeIsRefused :
    CanCall ready ∧ (⟨-1, 1⟩ : Mhz).den ≠ 0 ∧ (⟨-1, 1⟩ : Mhz).num < 0 ∧
      (2 : Rat) ^ 24 ≤ ((13 * (2 ^ 25 - 1) : Int) : Rat) / ((65536 : Nat) : Rat) * 65536 / 26 + 1 / 2 :=
  ⟨ready_usable.1, by decide, by decide, by norm_num⟩

theorem witness_FrequencyBytesGoToTheirRegisters : CanCall ready ∧ BusUsable ready ∧ ReadyFor 3 ready :=
  ⟨ready_usable.1, ready_usable.2, ready_for_le 3 (by omega)⟩

theorem witness_BareBytesGoOnTheWires :
    CanCall ready ∧ BusUsable ready ∧ bareByteOf ready.cfg (.fmtS .idle) = some 0x36 ∧
      bareByteOf ready.cfg (.fmtHRead (.identity 0)) = some 0xF1 ∧
      bareByteOf ready.cfg (.fmtHWrite .freqHi) = some 0x4D ∧ bareByteOf ready.cfg (.fmtD 0xB0) = some 0xB0 :=
  ⟨ready_usable.1, ready_usable.2, by decide, by decide, by decide, by decide⟩

theorem witness_NamesOutsideTheSetsAreRefused :
    CanCall ready ∧ regOf (.read (.identity 1)) = some (.identity 1) ∧ regAddr ready.cfg (.identity 1) = none ∧
      strobeOf (.exec (.other 0)) = some (.other 0) ∧ strobeByte ready.cfg (.other 0) = none :=
  ⟨ready_usable.1, rfl, rfl, rfl, rfl⟩

/-- Before INIT, with a serial. -/
def freshPaired : State := { fresh with ses := { fresh.ses with serial := some 0 } }

theorem witness_BusCallsBeforeInitAreRefused :
    CanCall freshPaired ∧ freshPaired.drv.drv_init = false ∧ usesBus (.exec .idle) = true ∧
      (codesOf freshPaired.cfg .up).isSome ∧ freshPaired.ses.serial ≠ none ∧ CanCall ready ∧
      ready.drv.drv_init = true :=
  ⟨⟨rfl, rfl, rfl⟩, rfl, rfl, rfl, by decide, ready_usable.1, rfl⟩

theorem witness_ClashingFlagsAreRefused :
    CanCall { ready with cfg := { ex with flag_write_burst := 0xC0 } } ∧
      ({ ex with flag_write_burst := 0xC0 } : Config).flag_read_burst = 0xC0 ∧
      CanCall { ready with cfg := { ex with addr_fifo := 0x7F } } ∧ (∃ a ∈ regAddrs { ex with addr_fifo := 0x7F },
        a &&& (({ ex with addr_fifo := 0x7F } : Config).flag_read_burst |||
          ({ ex with addr_fifo := 0x7F } : Config).flag_write_burst) ≠ 0) ∧
      usesBus (.exec .idle) = true :=
  ⟨⟨rfl, rfl, rfl⟩, rfl, ⟨rfl, rfl, rfl⟩, by decide, rfl⟩

theorem witness_HaltedBlockAcceptsNothing :
    ({ ready with ses := { ready.ses with sess_phase := .halted } } : State).ses.sess_phase = .halted := rfl

/-- A SEND before its first strobe; a call with its return before it; a transaction that no call has come to. -/
theorem witness_NoCallWhileOneIsInFlight :
    ({ ready with ses := { ready.ses with sess_phase := .sending } } : State).ses.sess_phase ≠ .halted ∧
      ({ ready with ses := { ready.ses with sess_phase := .sending } } : State).ses.sess_phase ≠ .idle ∧
      ({ ready with host := { ready.host with pend := [.finish] } } : State).ses.sess_phase ≠ .halted ∧
      ({ ready with host := { ready.host with pend := [.finish] } } : State).host.pend ≠ [] ∧
      ({ ready with drv := { ready.drv with drv_phase := .wait1 } } : State).ses.sess_phase = .idle ∧
      ({ ready with drv := { ready.drv with drv_phase := .wait1 } } : State).host.pend = [] ∧
      ({ ready with drv := { ready.drv with drv_phase := .wait1 } } : State).drv.drv_phase ≠ .idle := by
  decide

/-- A strobe transaction stuck in its first wait, in EX. -/
def stuck (l : List Level) : State :=
  { readyWith l with
    drv := { ready.drv with sel := .asserted, drv_phase := .wait1 }
    host := { ready.host with pend := [.bus (.strobe 0x36), .finish] } }

/-- The same stuck in its second wait. -/
def stuck2 (l : List Level) : State := { stuck l with drv := { (stuck l).drv with drv_phase := .wait2 } }

theorem witness_ReadyWaitHoldsWhileHigh :
    (stuck [.low, .low]).ses.sess_phase ≠ .halted ∧ (stuck [.low, .low]).host.pend = .bus (.strobe 0x36) :: [.finish] ∧
      (stuck [.low, .low]).drv.drv_phase = .wait1 ∧ ReadyFor 2 (stuck [.low, .low]) ∧
      rdyAhead (stuck [.high]) 0 = .high ∧ (stuck2 [.low]).host.pend = .bus (.strobe 0x36) :: [.finish] ∧
      (stuck2 [.low]).drv.drv_phase = .wait2 ∧ rdyAhead (stuck2 [.low]) 0 = .low ∧
      rdyAhead (stuck2 [.high]) 0 = .high := by
  refine ⟨by decide, rfl, rfl, ?_, rfl, rfl, rfl, rfl, rfl⟩
  intro k hk
  interval_cases k <;> rfl

theorem witness_PulseHoldsTheLine :
    CanCall driven ∧ 1 ≤ 1 ∧ driven.enc.tx_mode = .driven ∧ CanCall ready ∧ ready.enc.tx_mode = .hiz :=
  ⟨⟨rfl, rfl, rfl⟩, le_refl 1, rfl, ⟨rfl, rfl, rfl⟩, rfl⟩

theorem witness_TxframeDrivesTheFrame :
    CanCall driven ∧ driven.enc.tx_mode = .driven ∧ CanCall ready ∧ ready.enc.tx_mode = .hiz :=
  ⟨⟨rfl, rfl, rfl⟩, rfl, ⟨rfl, rfl, rfl⟩, rfl⟩

theorem witness_TxburstDrivesFiveFrames :
    CanCall driven ∧ driven.enc.tx_mode = .driven ∧ CanCall ready ∧ ready.enc.tx_mode = .hiz :=
  ⟨⟨rfl, rfl, rfl⟩, rfl, ⟨rfl, rfl, rfl⟩, rfl⟩

theorem witness_LineTurnsOnLowAndOffToZ : CanCall ready := ready_usable.1

theorem witness_SymbolsDriveTheirSegments :
    CanCall driven ∧ symbolOf .symBit1 = some [(.high, 733), (.low, 366)] ∧ driven.enc.tx_mode = .driven ∧
      ready.enc.tx_mode = .hiz :=
  ⟨⟨rfl, rfl, rfl⟩, rfl, rfl, rfl⟩

theorem witness_PacketCellsGoOut :
    CanCall driven ∧ driven.enc.tx_mode = .driven ∧ CanCall ready ∧ ready.enc.tx_mode = .hiz :=
  ⟨⟨rfl, rfl, rfl⟩, rfl, ⟨rfl, rfl, rfl⟩, rfl⟩

theorem witness_DecresetArmsTheDetector : CanCall (listening .high 7) := ⟨rfl, rfl, rfl⟩

theorem witness_PollRaisesAnEventOnAChange :
    CanCall (listening .high 20) ∧ (rxNext (listening .high 20)).lvl ≠ (listening .high 20).dec.prev_level ∧
      (rxNext (listening .low 20)).lvl = (listening .low 20).dec.prev_level :=
  ⟨⟨rfl, rfl, rfl⟩, by decide, rfl⟩

theorem witness_InvalidArmsOnARisingEdge :
    CanCall (decoding .invalid (some (.low, 5)) 0) ∧ (decoding .invalid (some (.low, 5)) 0).dec.dstate = .invalid ∧
      edgeFollows (some (.low, 5)) .high 5 = true ∧ edgeFollows (some (.high, 5)) .low 5 = true :=
  ⟨⟨rfl, rfl, rfl⟩, rfl, by decide, by decide⟩

theorem witness_StartMarkerHighCheck :
    CanCall (decoding .startH (some (.high, 5)) 0) ∧ (decoding .startH (some (.high, 5)) 0).dec.dstate = .startH ∧
      edgeFollows (some (.high, 5)) .low 5 = true :=
  ⟨⟨rfl, rfl, rfl⟩, rfl, by decide⟩

/-- R104: both ends of the window, and the spans just outside. -/
theorem witness_StartMarkerHighCheck_bounds :
    [4158, 4159, 5357, 5358].map (fun el =>
        seen (exec (.edge .low 5 el) (decoding .startH (some (.high, 5)) 0)) (·.dec.dstate)) =
      [some .invalid, some .startL, some .startL, some .invalid] := by decide +kernel

theorem witness_StartMarkerLowCheck :
    CanCall (decoding .startL (some (.low, 5)) 0) ∧ (decoding .startL (some (.low, 5)) 0).dec.dstate = .startL ∧
      edgeFollows (some (.low, 5)) .high 6 = true :=
  ⟨⟨rfl, rfl, rfl⟩, rfl, by decide⟩

/-- R104: both ends of the window, and the spans just outside. -/
theorem witness_StartMarkerLowCheck_bounds :
    [1106, 1107, 1825, 1826].map (fun el =>
        seen (exec (.edge .high 6 el) (decoding .startL (some (.low, 5)) 0)) (·.dec.dstate)) =
      [some .invalid, some (.bitH 0), some (.bitH 0), some .invalid] := by decide +kernel

theorem witness_HighHalfIsClassified :
    CanCall (decoding (.bitH 39) (some (.high, 5)) 0) ∧ (decoding (.bitH 39) (some (.high, 5)) 0).dec.dstate = .bitH 39 ∧
      edgeFollows (some (.high, 5)) .low 857 = true :=
  ⟨⟨rfl, rfl, rfl⟩, rfl, by decide⟩

theorem witness_LowHalfIsTheComplement :
    CanCall (decoding (.bitL 38) (some (.low, 5)) 1) ∧ (decoding (.bitL 38) (some (.low, 5)) 1).dec.dstate = .bitL 38 ∧
      edgeFollows (some (.low, 5)) .high 490 = true ∧ (decoding (.bitL 38) none 1).dec.acc.getLsbD 0 = true ∧
      (decoding (.bitL 39) none 2).dec.acc.getLsbD 0 = false ∧ (38 : Fin 40).val < 39 ∧ (39 : Fin 40).val = 39 :=
  ⟨⟨rfl, rfl, rfl⟩, rfl, by decide, by decide, by decide, by decide, by decide⟩

/-- R104: both ends of the window of each complement, and the spans just outside; the last bit emits. -/
theorem witness_LowHalfIsTheComplement_bounds :
    [246, 247, 485, 486].map (fun el =>
        seen (exec (.edge .high 490 el) (decoding (.bitL 38) (some (.low, 5)) 1)) (·.dec.dstate)) =
      [some .invalid, some (.bitH 39), some (.bitH 39), some .invalid] ∧
    [613, 614, 852, 853].map (fun el =>
        seen (exec (.edge .high 860 el) (decoding (.bitL 39) (some (.low, 5)) 2)) (·.ghost.rx_out)) =
      [some [], some [(2, 0)], some [(2, 0)], some []] := by decide +kernel

theorem witness_UnreachableArmsGoToInvalid :
    CanCall (decoding .startH none 0) ∧ edgeFollows none .high 3 = true ∧
      (decoding .startH none 0).dec.dstate = .startH ∧ (decoding (.bitH 7) none 0).dec.dstate = .bitH 7 ∧
      (decoding .startL none 0).dec.dstate = .startL ∧ (decoding (.bitL 7) none 0).dec.dstate = .bitL 7 :=
  ⟨⟨rfl, rfl, rfl⟩, rfl, rfl, rfl, rfl, rfl⟩

theorem witness_HandMadeEventsMustAlternate :
    CanCall (decoding .invalid (some (.low, 5)) 0) ∧ (decoding .invalid (some (.low, 5)) 0).dec.last_edge = some (.low, 5) ∧
      4 < 5 :=
  ⟨⟨rfl, rfl, rfl⟩, rfl, by omega⟩

/-- Both ends of each window, and the spans just outside. -/
theorem witness_WindowsAcceptTheirSpans :
    CanCall ready ∧ windowOf (.winStartH 4159) = some (4159, 5357, 4159) ∧
      windowOf (.winStartH 5358) = some (4159, 5357, 5358) ∧ windowOf (.winStartL 1825) = some (1107, 1825, 1825) ∧
      windowOf (.winLong 613) = some (614, 852, 613) ∧ windowOf (.winShort 485) = some (247, 485, 485) :=
  ⟨ready_usable.1, rfl, rfl, rfl, rfl, rfl⟩

theorem witness_DecoderReadsAnEncodedFrame :
    0 ≤ 0 ∧ CanCall ready ∧ ready.dec.dstate = .invalid ∧ ready.dec.last_edge = none :=
  ⟨le_refl 0, ready_usable.1, rfl, rfl⟩

theorem witness_BackToBackFramesAreNotReported :
    0 ≤ 0 ∧ CanCall ready ∧ ready.dec.dstate = .invalid ∧ ready.dec.last_edge = none :=
  ⟨le_refl 0, ready_usable.1, rfl, rfl⟩

theorem witness_SettersWriteTheirRegister : CanCall fresh := ⟨rfl, rfl, rfl⟩

theorem witness_SendWithoutSerialFailsUntouched :
    CanCall ready ∧ (codesOf ready.cfg .stop).isSome ∧ ready.ses.serial = none :=
  ⟨ready_usable.1, rfl, rfl⟩

/-- With a serial, RDY HIGH at the next sample but `n`. -/
def pairedHigh (n : Nat) : State :=
  { paired with env := { paired.env with rdy := ⟨List.replicate n .low ++ [.high], 0⟩ } }

theorem pairedHigh_for : ∀ n < 4, ReadyFor n (pairedHigh n) ∧ rdyAhead (pairedHigh n) n = .high := by
  intro n hn
  interval_cases n <;> refine ⟨fun k hk => ?_, rfl⟩ <;> interval_cases k <;> rfl

theorem witness_SendTransmitsFiveFramesPerCode :
    CanCall paired ∧ BusUsable paired ∧ codesOf paired.cfg (.send 0x55 none) = some (0x55, none) ∧
      codesOf paired.cfg .up = some (0x11, some 0x1E) ∧ paired.ses.serial = some 0x123456 ∧ ReadyFor 4 paired ∧
      ∀ n < 4, CanCall (pairedHigh n) ∧ BusUsable (pairedHigh n) ∧ (pairedHigh n).ses.serial = some 0x123456 ∧
        ReadyFor n (pairedHigh n) ∧ rdyAhead (pairedHigh n) n = .high :=
  ⟨⟨rfl, rfl, rfl⟩, ⟨rfl, rfl, by decide⟩, rfl, rfl, rfl, ready_for_le 4 (by omega), fun n hn =>
    ⟨⟨rfl, rfl, rfl⟩, ⟨rfl, rfl, (by decide : configOk ex = true)⟩, rfl, pairedHigh_for n hn⟩⟩

/-- After INIT, the cancellation predicate giving this reading. -/
def cancelling (c : Bool) : State := { ready with env := { ready.env with cancel := ⟨[c], 0⟩ } }

theorem witness_SniffArmsAndListens :
    CanCall (cancelling true) ∧ BusUsable (cancelling true) ∧ ReadyFor 4 (cancelling true) ∧
      cancelNext (cancelling true) = true ∧ CanCall (cancelling false) ∧ BusUsable (cancelling false) ∧
      ReadyFor 2 (cancelling false) ∧ cancelNext (cancelling false) = false :=
  ⟨⟨rfl, rfl, rfl⟩, ⟨rfl, rfl, by decide⟩, ready_for_le 4 (by omega), rfl, ⟨rfl, rfl, rfl⟩, ⟨rfl, rfl, by decide⟩,
    ready_for_le 2 (by omega), rfl⟩

/-- SNIFF's loop, in EX. -/
def sniffing (c : Bool) : State :=
  { ready with
    ses := { ready.ses with sess_phase := .sniffing, radio_mode := .rx }
    env := { ready.env with cancel := ⟨[c], 0⟩ }
    host := { ready.host with pend := .sniffLoop :: (modeActs ex .idle ++ [.phase .idle, .finish]) } }

theorem witness_SniffIterationReadsCancelFirst :
    (sniffing true).ses.sess_phase = .sniffing ∧ cancelNext (sniffing false) = false ∧
      (sniffing true).host.pend = .sniffLoop :: (modeActs (sniffing true).cfg .idle ++ [.phase .idle, .finish]) ∧
      BusUsable (sniffing true) ∧ cancelNext (sniffing true) = true ∧ ReadyFor 2 (sniffing true) :=
  ⟨rfl, rfl, rfl, ⟨rfl, rfl, by decide⟩, rfl, ready_for_le 2 (by omega)⟩

theorem witness_StartupRunsItsThreeParts :
    CanCall fresh ∧ fresh.drv.drv_init = false ∧ configOk fresh.cfg = true ∧
      (∀ pair ∈ fresh.cfg.chip_id_check, (regAddr fresh.cfg pair.1).isSome) ∧
      (∀ j, ∀ h : j < fresh.cfg.chip_id_check.length,
        sdiAhead fresh (2 * j + 1) = fresh.cfg.chip_id_check[j].2) ∧
      (∀ op ∈ fresh.cfg.startup_ops, startupOpOk fresh.cfg op = true) ∧
      ReadyFor (fresh.cfg.chip_id_check.length + (fresh.cfg.startup_ops.map startupOpWaits).sum) fresh := by
  refine ⟨⟨rfl, rfl, rfl⟩, rfl, by decide, by decide, ?_, by decide +kernel, ready_for_le 7 (by omega)⟩
  intro j h
  have : j = 0 := by have : fresh.cfg.chip_id_check.length = 1 := rfl; omega
  subst this
  rfl

/-- Before INIT, a chip whose second identity byte is not the one expected. -/
def wrongChip : State :=
  { fresh with
    cfg := { ex with addr_identity := [0x30, 0x31], chip_id_check := [(.identity 0, 0x00), (.identity 1, 0x14)] }
    env := { fresh.env with sdi := ⟨[0x0F, 0x00, 0x0F, 0x13], 0⟩ } }

theorem witness_WrongChipHaltsTheBlock :
    ∃ h : 1 < wrongChip.cfg.chip_id_check.length, CanCall wrongChip ∧ wrongChip.drv.drv_init = false ∧
      configOk wrongChip.cfg = true ∧
      (∀ pair ∈ wrongChip.cfg.chip_id_check.take 2, (regAddr wrongChip.cfg pair.1).isSome) ∧ ReadyFor 2 wrongChip ∧
      (∀ l, ∀ hl : l < 1, sdiAhead wrongChip (2 * l + 1) = wrongChip.cfg.chip_id_check[l].2) ∧
      sdiAhead wrongChip (2 * 1 + 1) ≠ wrongChip.cfg.chip_id_check[1].2 := by
  refine ⟨by decide, ⟨rfl, rfl, rfl⟩, rfl, by decide, by decide, ready_for_le 2 (by omega), ?_, by decide⟩
  intro l hl
  obtain rfl : l = 0 := by omega
  rfl

/-- A step with a next state from a state that meets the invariants: a strobe stuck in its first wait. -/
theorem stuck_steps : ∃ t, step (stuck [.low, .low]) = .next t := ⟨_, rfl⟩

theorem witness_OneTransactionAtATime :
    OneTransaction (stuck [.low, .low]) ∧ ∃ t, step (stuck [.low, .low]) = .next t :=
  ⟨⟨rfl, by decide⟩, stuck_steps⟩

/-- The same with the history that led there. -/
def stuckLogged : State :=
  { stuck [.low, .low] with ghost := { ready.ghost with bus_log := [.resetPulse, .selOn] } }

theorem witness_BytesOnlyInsideTransactions :
    BusLogBracketed stuckLogged ∧
      (stuckLogged.host.pend = [] → ∀ i rest, decode stuckLogged.host.calls = .ok (i, rest) → isBareByte i = false) ∧
      ∃ t, step stuckLogged = .next t :=
  ⟨⟨⟨rfl, by decide⟩, rfl⟩, fun h => by simp [stuckLogged, stuck] at h, ⟨_, rfl⟩⟩

/-- A rising edge coming while bit 38's low half is read. -/
def reading : State :=
  { decoding (.bitL 38) (some (.low, 0)) 1 with host := { ready.host with calls := [0x4D, 0x01, 0xEE, 0x02, 0xEE, 0x02] } }

theorem witness_AccumulatorHoldsTheBitsRead :
    AccumulatorBounded reading.dec ∧ ∃ t, step reading = .next t :=
  ⟨by show (1 : Packet).toNat < 2 ^ 39; decide, ⟨_, rfl⟩⟩

theorem witness_ClockIdlesHighAfterInit : LinesIdle ready ∧ ready.drv.drv_init = true ∧ ∃ t, step ready = .next t :=
  ⟨fun _ => ⟨rfl, rfl, by decide⟩, rfl, ⟨_, rfl⟩⟩

theorem witness_FramesAreWholeAndTimeIsMonotonic :
    EncoderAtRest reading.enc ∧ TimeOrdered reading ∧ ∃ t, step reading = .next t :=
  ⟨⟨rfl, by decide⟩, le_refl 0, ⟨_, rfl⟩⟩

theorem witness_HistoriesOnlyGrow : ∃ t, step stuckLogged = .next t := ⟨_, rfl⟩

theorem witness_SessionRegistersChangeByTheirSettersOnly :
    (∃ t, step ({ paired with host := { ready.host with calls := [0x4E, 0xA1, 0xB2, 0xC3] } } : State) = .next t) ∧
      (∃ t, step ({ paired with host := { ready.host with calls := [0x4F, 0x07] } } : State) = .next t) ∧
      paired.ses.serial ≠ none :=
  ⟨⟨_, rfl⟩, ⟨_, rfl⟩, by decide⟩

/-- A STARTUP with its identity check left to make, the byte read being another than expected. -/
def checking : State := { ready with host := { ready.host with pend := [.check (.identity 0) 0x14, .finish] } }

/-- A call with its return alone before it. -/
def returning : State := { ready with host := { ready.host with pend := [.finish] } }

theorem witness_OnlySendAndStartupRaise :
    (∃ t, exec .stop ready = .next t ∧ t.host.ret = .raised .noSerialConfigured ∧ t.host.pend = []) ∧
      (∃ t, exec .startup { fresh with env := { fresh.env with sdi := ⟨[0, 0], 0⟩ } } = .next t ∧
        t.host.ret = .raised (.chipIdentityMismatch (.identity 0) 0)) ∧
      (∃ t, exec .startup { fresh with env := { fresh.env with rdy := ⟨[.high], 0⟩ } } = .next t ∧
        .check (.identity 0) 0x14 ∈ t.host.pend) ∧
      checking.host.pend ≠ [] ∧
      (∃ t, step checking = .next t ∧ t.host.ret = .raised (.chipIdentityMismatch (.identity 0) 0)) ∧
      CallReturns returning ∧ returning.host.pend ≠ [] ∧ (∃ t, step returning = .next t ∧ t.host.pend = []) ∧
      ∃ t, step ({ ready with host := { ready.host with calls := [0x4F, 0x07] } } : State) = .next t ∧ t.host.pend = [] :=
  ⟨⟨_, rfl, rfl, rfl⟩, ⟨_, rfl, rfl⟩, ⟨_, rfl, by decide⟩, by decide, ⟨_, rfl, rfl⟩, rfl, by decide, ⟨_, rfl, rfl⟩,
    ⟨_, rfl, rfl⟩⟩

/-- R243: zero for success, not zero for a condition. -/
theorem test_status : statusOf ex .success = some 0 ∧ statusOf ex (.raised .noSerialConfigured) = some 1 := by decide

/-- A read, and a burst of two bytes, in EX at a place of theirs. -/
def within (x : Txn) (p : DrvPhase) : State :=
  { ready with
    drv := { ready.drv with sel := if p = .idle then .released else .asserted, drv_phase := p }
    host := { ready.host with pend := [.bus x, .finish] } }

/-- A burst in EX with some of its frames complete. -/
def bursting (n : Nat) (m : TxMode) : State :=
  { ready with
    enc := { ready.enc with tx_mode := m, rep_cnt := n }
    host := { ready.host with pend := [.frames 0, .finish] } }

theorem witness_SequencersPickTheAction :
    (within (.strobe 0x36) .hdr).ses.sess_phase ≠ .halted ∧
      (within (.strobe 0x36) .hdr).host.pend = .bus (.strobe 0x36) :: [.finish] ∧
      BusUsable (within (.read 0xF1) .idle) ∧ (within (.strobe 0x36) .hdr).drv.drv_phase = .hdr ∧
      0 < (Txn.read 0xF1).dataBytes ∧ ¬ 0 < (Txn.write 0x7E []).dataBytes ∧
      (∀ b, Txn.read 0xF1 ≠ .strobe b) ∧ (within (.read 0xF1) (.data 0)).drv.drv_phase = .data 0 ∧
      dataEvent (.read 0xF1) 0 0x14 = some (.rx 0x14) ∧ dataEvent (.write 0x7E [0x00, 0xC0]) 1 0 = some (.tx 0xC0) ∧
      0 + 1 < (Txn.write 0x7E [0x00, 0xC0]).dataBytes ∧ ¬ 1 + 1 < (Txn.write 0x7E [0x00, 0xC0]).dataBytes ∧
      callActs driven (.txburst 0) = some [.burst, .frames 0, .finish] ∧
      (bursting 4 .driven).host.pend = .frames 0 :: [.finish] ∧ (bursting 4 .driven).ses.sess_phase ≠ .halted ∧
      (bursting 4 .driven).enc.rep_cnt < 5 ∧ (bursting 4 .driven).enc.tx_mode = .driven ∧
      (bursting 0 .hiz).enc.rep_cnt < 5 ∧ (bursting 0 .hiz).enc.tx_mode = .hiz ∧ 5 ≤ (bursting 5 .driven).enc.rep_cnt :=
  ⟨by decide, rfl, ⟨rfl, rfl, by decide⟩, rfl, by decide, by decide, nofun, rfl, rfl, rfl, by decide, by decide, rfl,
    rfl, by decide, by decide, rfl, by decide, rfl, by decide⟩

/-- R23, R134: the steps of EXEC IDLE: select and the first wait, the strobe's byte, the second wait, the return. -/
theorem test_steps_exec :
    ∃ s, step { ready with host := { ready.host with calls := [0x41, 0x01] } } = .next s ∧
      s.drv.drv_phase = .wait1 ∧ s.ghost.bus_log = [.selOn] ∧
      ∃ t, steps 2 s = .next t ∧ t.drv.drv_phase = .wait2 ∧ t.ghost.bus_log = [.selOn, .rdy, .tx 0x36] ∧
      ∃ u, steps 2 t = .next u ∧ u.drv.drv_phase = .idle ∧ u.host.pend = [] ∧ u.host.ret = .success :=
  ⟨_, rfl, rfl, rfl, _, rfl, rfl, rfl, _, rfl, rfl, rfl, rfl⟩

end Sys2Proof.Tests
end

section

namespace Sys2Proof.Machine

/-- Settles O41 (R11): each bound of the absolute value, read over the integers, is one of the two bounds of
`matchUs_iff` over the naturals. -/
theorem matchIsStrict : Obligations.MatchIsStrict := by
  intro d t b
  have upper : (d : Int) - t < b ↔ d < t + b := by omega
  have lower : -(b : Int) < d - t ↔ t < d + b := by omega
  rw [matchUs_iff, abs_lt, upper, lower, and_comm]

end Sys2Proof.Machine
end

section

namespace Sys2Proof.Machine

/-! ## Reset -/

theorem reset_busLogBracketed : BusLogBracketed State.reset :=
  ⟨⟨rfl, by simp [State.reset]⟩, rfl⟩

/-- Settles O51 (R36): each invariant is read off the values of `State.reset`; `drv_init` is false there, so
`LinesIdle` asks nothing, and nothing is left of a call. -/
theorem resetMeetsTheInvariants : Obligations.ResetMeetsTheInvariants :=
  ⟨reset_busLogBracketed, trivial, nofun, ⟨rfl, Nat.zero_le _⟩, Nat.le_refl 0, rfl⟩

/-! ## The histories and the configuration -/

/-- `t` has the configuration of `s`, and its histories go on from those of `s` (R33). -/
structure HistoryFrom (s t : State) : Prop where
  cfg : t.cfg = s.cfg
  bus : s.ghost.bus_log <+: t.ghost.bus_log
  tx : s.ghost.tx_log <+: t.ghost.tx_log
  rx : s.ghost.rx_out <+: t.ghost.rx_out
  line : s.ghost.line_log <+: t.ghost.line_log

namespace HistoryFrom

variable {s t u : State}

theorem refl (s : State) : HistoryFrom s s :=
  ⟨rfl, List.prefix_rfl, List.prefix_rfl, List.prefix_rfl, List.prefix_rfl⟩

/-- What leaves the configuration and the histories alone keeps them grown. -/
theorem same (h : HistoryFrom s t) (hc : u.cfg = t.cfg) (hg : u.ghost = t.ghost) : HistoryFrom s u := by
  obtain ⟨cfg, bus, tx, rx, line⟩ := h
  exact ⟨hc.trans cfg, hg ▸ bus, hg ▸ tx, hg ▸ rx, hg ▸ line⟩

/-- Entries of BUSDRV's two histories. -/
theorem busEntries (h : HistoryFrom s t) (l : List BusEvent) (m : List LineEvent) (hc : u.cfg = t.cfg)
    (hg : u.ghost = { t.ghost with bus_log := t.ghost.bus_log ++ l, line_log := t.ghost.line_log ++ m }) :
    HistoryFrom s u := by
  obtain ⟨cfg, bus, tx, rx, line⟩ := h
  refine ⟨hc.trans cfg, ?_, ?_, ?_, ?_⟩ <;> rw [hg]
  · exact bus.trans (List.prefix_append _ _)
  · exact tx
  · exact rx
  · exact line.trans (List.prefix_append _ _)

/-- Entries of `tx_log`. -/
theorem txEntries (h : HistoryFrom s t) (l : List (TriLevel × Nat)) (hc : u.cfg = t.cfg)
    (hg : u.ghost = { t.ghost with tx_log := t.ghost.tx_log ++ l }) : HistoryFrom s u := by
  obtain ⟨cfg, bus, tx, rx, line⟩ := h
  refine ⟨hc.trans cfg, ?_, ?_, ?_, ?_⟩ <;> rw [hg]
  · exact bus
  · exact tx.trans (List.prefix_append _ _)
  · exact rx
  · exact line

/-- More packets received. -/
theorem received (h : HistoryFrom s t) {out : List (Packet × Nat)} (hp : t.ghost.rx_out <+: out)
    (hc : u.cfg = t.cfg) (hg : u.ghost = { t.ghost with rx_out := out }) : HistoryFrom s u := by
  obtain ⟨cfg, bus, tx, rx, line⟩ := h
  refine ⟨hc.trans cfg, ?_, ?_, ?_, ?_⟩ <;> rw [hg]
  · exact bus
  · exact tx
  · exact rx.trans hp
  · exact line

end HistoryFrom

/-- Every action and every direct effect leaves the histories alone or appends to them. -/
theorem historyFrom_kept (s : State) : StepKeeps (HistoryFrom s) where
  select t _ h := h.busEntries [.selOn] [.sel .asserted] rfl rfl
  rdy t h := h.same rfl rfl
  met t h := h.busEntries [.rdy] [] rfl (by simp)
  place p t h := h.same rfl rfl
  tx b t h := h.busEntries [.tx b] (byteLines b) (by rw [txByte_eq]) (by rw [txByte_eq])
  rx t h := h.busEntries [.rx (sdiAhead t 0)] (byteLines t.cfg.dummy_tx) (by rw [rxByte_eq]) (by rw [rxByte_eq])
  close t h := h.busEntries [.selOff] [.sel .released] rfl rfl
  init t _ h := h.busEntries [.resetPulse] _ (by rw [initPulse_eq]) (by rw [initPulse_eq])
  raise c t h := h.same rfl rfl
  radio m t h := h.same rfl rfl
  phase p t h := h.same rfl rfl
  lineOn t h := h.txEntries [(.low, 0)] rfl rfl
  lineOff t h := h.txEntries [(.z, 0)] rfl rfl
  burst t h := h.same rfl rfl
  frame p t _ h := h.txEntries (segmentLog (frame p)) (by rw [burstFrame_eq]) (by rw [burstFrame_eq])
  arm t h := h.same rfl rfl
  cancel t h := h.same rfl rfl
  poll t h := by
    obtain ⟨d, out, he, hp, -⟩ := pollLine_frame t
    exact h.received hp (by rw [he]) (by rw [he])
  ret r t h := h.same rfl rfl
  pend k t h := h.same rfl rfl
  calls c t h := h.same rfl rfl
  drive g t h := h.txEntries [(triOf g.1, g.2)] rfl rfl
  txframe p t h := h.txEntries (segmentLog (frame p)) (by rw [sendFrame_eq]) (by rw [sendFrame_eq])
  cells p t h := h.txEntries (segmentLog (packetCells p)) (by rw [sendCells_eq]) (by rw [sendCells_eq])
  edge l ts el t h := by
    obtain ⟨d, out, he, hp, -⟩ := takeEdge_frame l ts el t
    exact h.received hp (by rw [he]) (by rw [he])
  serial v t h := h.same rfl rfl
  channel v t h := h.same rfl rfl

/-- Settles O57 (R20, R33): a step keeps what every action and every direct effect keeps. -/
theorem historiesOnlyGrow : Obligations.HistoriesOnlyGrow := by
  intro s t h
  obtain ⟨cfg, bus, tx, rx, line⟩ := (historyFrom_kept s).of_step (.refl s) h
  exact ⟨cfg, bus, tx, rx, line⟩

/-! ## The lines after INIT -/

/-- The lines idle as after INIT, and INIT is done if it was by then. -/
def LinesKept (done : Bool) (t : State) : Prop := LinesIdle t ∧ (done = true → t.drv.drv_init = true)

/-- What leaves the configuration, the pin mode and `drv_init` alone, and a HIGH clock HIGH, keeps the lines. -/
theorem LinesKept.same {done : Bool} {s t : State} (h : LinesKept done s) (hc : t.cfg = s.cfg)
    (hi : t.drv.drv_init = s.drv.drv_init) (hp : t.drv.pin_mode = s.drv.pin_mode)
    (hk : s.drv.sclk = .high → t.drv.sclk = .high) : LinesKept done t := by
  refine ⟨fun hd => ?_, fun hd => hi.trans (h.2 hd)⟩
  obtain ⟨pins, clock, meaning⟩ := h.1 (hi.symm.trans hd)
  exact ⟨hp.trans pins, hk clock, hc ▸ meaning⟩

/-- INIT's pulse ends with the clock HIGH under the bus controller, and INIT takes no configuration without a
meaning (R92, R130). -/
theorem initPulse_linesKept (done : Bool) {s : State} (he : initEntry s = none) : LinesKept done (initPulse s) := by
  obtain ⟨-, meaning⟩ := initEntry_eq_none.1 he
  rw [initPulse_eq]
  exact ⟨fun _ => ⟨rfl, rfl, meaning⟩, fun _ => rfl⟩

/-- Beside INIT, only a byte on the wires moves the clock, and it ends HIGH (R94). -/
theorem linesKept_kept (done : Bool) : StepKeeps (LinesKept done) where
  select s _ h := h.same rfl rfl rfl id
  rdy s h := h.same rfl rfl rfl id
  met s h := h.same rfl rfl rfl id
  place p s h := h.same rfl rfl rfl id
  tx b s h := by rw [txByte_eq]; exact h.same rfl rfl rfl fun _ => rfl
  rx s h := by rw [rxByte_eq]; exact h.same rfl rfl rfl fun _ => rfl
  close s h := h.same rfl rfl rfl id
  init s he _ := initPulse_linesKept done he
  raise c s h := h.same rfl rfl rfl id
  radio m s h := h.same rfl rfl rfl id
  phase p s h := h.same rfl rfl rfl id
  lineOn s h := h.same rfl rfl rfl id
  lineOff s h := h.same rfl rfl rfl id
  burst s h := h.same rfl rfl rfl id
  frame p s _ h := by rw [burstFrame_eq]; exact h.same rfl rfl rfl id
  arm s h := h.same rfl rfl rfl id
  cancel s h := h.same rfl rfl rfl id
  poll s h := by
    obtain ⟨d, out, he, -⟩ := pollLine_frame s
    rw [he]; exact h.same rfl rfl rfl id
  ret r s h := h.same rfl rfl rfl id
  pend k s h := h.same rfl rfl rfl id
  calls c s h := h.same rfl rfl rfl id
  drive g s h := h.same rfl rfl rfl id
  txframe p s h := by rw [sendFrame_eq]; exact h.same rfl rfl rfl id
  cells p s h := by rw [sendCells_eq]; exact h.same rfl rfl rfl id
  edge l ts el s h := by
    obtain ⟨d, out, he, -⟩ := takeEdge_frame l ts el s
    rw [he]; exact h.same rfl rfl rfl id
  serial v s h := h.same rfl rfl rfl id
  channel v s h := h.same rfl rfl rfl id

/-- Settles O55 (R22, R94, R130): a step keeps what every action and every direct effect keeps. -/
theorem clockIdlesHighAfterInit : Obligations.ClockIdlesHighAfterInit := fun s _ hs h =>
  (linesKept_kept s.drv.drv_init).of_step ⟨hs, id⟩ h

/-! ## The registers of SESSION -/

/-- SESSION's registers hold these values (R29). -/
def HasRegisters (ser : Option Serial) (ch : Byte) (t : State) : Prop := t.ses.serial = ser ∧ t.ses.channel = ch

/-- No action writes SESSION's registers. -/
theorem hasRegisters_kept (ser : Option Serial) (ch : Byte) : ActKeeps (HasRegisters ser ch) where
  select _ _ h := h
  rdy _ h := h
  met _ h := h
  place _ _ h := h
  tx b s h := by rw [txByte_eq]; exact h
  rx s h := by rw [rxByte_eq]; exact h
  close _ h := h
  init s _ h := by rw [initPulse_eq]; exact h
  raise _ _ h := h
  radio _ _ h := h
  phase _ _ h := h
  lineOn _ h := h
  lineOff _ h := h
  burst _ h := h
  frame p s _ h := by rw [burstFrame_eq]; exact h
  arm _ h := h
  cancel _ h := h
  poll s h := by
    obtain ⟨d, out, he, -⟩ := pollLine_frame s
    rw [he]; exact h
  ret _ _ h := h
  pend _ _ h := h

/-- SESSION's registers after an instruction: SETSER writes the one, SETCH the other, nothing else either. -/
def RegistersAfter (i : Instr) (r : Session) (t : State) : Prop :=
  HasRegisters r.serial r.channel t ∨
    (∃ v, i = .setser v ∧ HasRegisters (some v) r.channel t) ∨
    ∃ v, i = .setch v ∧ HasRegisters r.serial v t

theorem exec_registersAfter {i : Instr} {s t : State} (h : exec i s = .next t) : RegistersAfter i s.ses t := by
  have keeps := hasRegisters_kept s.ses.serial s.ses.channel
  have same : HasRegisters s.ses.serial s.ses.channel (returnWith .none s) := ⟨rfl, rfl⟩
  obtain ⟨-, h⟩ := exec_next h
  cases h with
  | acts k _ h => exact .inl (keeps.of_run same h)
  | init _ he h => subst h; exact .inl (keeps.ret _ _ (keeps.init _ he same))
  | bare b _ _ h => subst h; exact .inl (keeps.ret _ _ (keeps.tx b _ same))
  | drive gs h => subst h; rw [driveAll_eq]; exact .inl same
  | frame p h => subst h; rw [sendFrame_eq]; exact .inl same
  | cells p h => subst h; rw [sendCells_eq]; exact .inl same
  | lineOn h => subst h; exact .inl same
  | lineOff h => subst h; exact .inl same
  | arm h => subst h; exact .inl same
  | poll h => subst h; exact .inl (keeps.ret _ _ (keeps.poll _ same))
  | edge l ts el h =>
    obtain ⟨d, out, he, -⟩ := takeEdge_frame l ts el (returnWith .none s)
    subst h; rw [he]; exact .inl same
  | serial v hi h => subst h; exact .inr (.inl ⟨v, hi, rfl, rfl⟩)
  | channel v hi h => subst h; exact .inr (.inr ⟨v, hi, rfl, rfl⟩)
  | raise _ h => subst h; exact .inl same
  | verdict b h => subst h; exact .inl same

/-- A step leaves SESSION's registers alone, or is a call that begins, which does to them what it does. -/
theorem step_registers {s t : State} (h : step s = .next t) :
    HasRegisters s.ses.serial s.ses.channel t ∨
      (s.host.pend = [] ∧ ∃ i rest, decode s.host.calls = .ok (i, rest) ∧ RegistersAfter i s.ses t) := by
  have keeps := hasRegisters_kept s.ses.serial s.ses.channel
  obtain ⟨-, ⟨-, -, rfl⟩ | ⟨-, h⟩ | ⟨hp, i, rest, hd, h⟩⟩ := step_next h
  · exact .inl ⟨rfl, rfl⟩
  · exact .inl (keeps.of_tick ⟨rfl, rfl⟩ h)
  · obtain ⟨-, ⟨k, -, h⟩ | ⟨-, h⟩⟩ := startCall_next h
    · exact .inl (keeps.of_tick (s := { s with host := { calls := rest, pend := k, ret := .none } }) ⟨rfl, rfl⟩ h)
    · have after := exec_registersAfter h
      exact .inr ⟨hp, i, rest, hd, after⟩

/-- Settles O58 (R29): by what a step does to the two registers. -/
theorem sessionRegistersChangeByTheirSettersOnly : Obligations.SessionRegistersChangeByTheirSettersOnly := by
  intro s t h
  obtain ⟨hs, hc⟩ | ⟨hp, i, rest, hd, ⟨hs, hc⟩ | ⟨v, rfl, hs, hc⟩ | ⟨v, rfl, hs, hc⟩⟩ := step_registers h
  · exact ⟨.inl hs, .inl hc, hs ▸ id⟩
  · exact ⟨.inl hs, .inl hc, hs ▸ id⟩
  · exact ⟨.inr ⟨v, rest, hp, hd, hs⟩, .inl hc, fun _ => by simp [hs]⟩
  · exact ⟨.inl hs, .inr ⟨v, rest, hp, hd, hc⟩, hs ▸ id⟩

end Sys2Proof.Machine
end

section

namespace Sys2Proof.Machine

/-! ## A step of the call in flight -/

theorem step_eq_tick {s : State} (hn : s.ses.sess_phase ≠ .halted) (hp : s.host.pend ≠ []) : step s = tick s := by
  unfold step
  split
  · exact absurd ‹_› hn
  · rfl
  · exact absurd ‹_› hp

section

variable {a : Act} {k : List Act} {s s' : State} (hn : s.ses.sess_phase ≠ .halted) (hp : s.host.pend = a :: k)
include hn hp

theorem step_pend : step s = tick s := step_eq_tick hn (by rw [hp]; exact List.cons_ne_nil a k)

/-- An action that is done takes its entry off. -/
theorem step_go (h : act a s = .go s') : step s = .next { s' with host := { s'.host with pend := k } } := by
  simp only [step_pend hn hp, tick, hp, h]

/-- An action of an entry that is not done leaves it first. -/
theorem step_more (h : act a s = .more s') : step s = .next { s' with host := { s'.host with pend := a :: k } } := by
  simp only [step_pend hn hp, tick, hp, h]

theorem step_refuse {r : Refusal} (h : act a s = .refuse r) : step s = .refused r := by
  simp only [step_pend hn hp, tick, hp, h]

end

/-! ## A byte of a transaction -/

/-- After a byte `b` on the wires that stands in `bus_log` as `e`. -/
def byteDone (b : Byte) (e : BusEvent) (s : State) : State :=
  { s with
    drv := s.drv.shifted b (sdiAhead s 0)
    env := { s.env with sdi := Feed.after Config.freeSdi 1 s.env.sdi }
    ghost := { s.ghost with bus_log := s.ghost.bus_log ++ [e], line_log := s.ghost.line_log ++ byteLines b } }

theorem txByte_eq_byteDone (b : Byte) (s : State) : txByte b s = byteDone b (.tx b) s := txByte_eq b s

theorem rxByte_eq_byteDone (s : State) : rxByte s = byteDone s.cfg.dummy_tx (.rx (sdiAhead s 0)) s := rxByte_eq s

/-- A data byte that stands in `bus_log` is one byte on the wires. -/
theorem dataByte_of_dataEvent {x : Txn} {j : Nat} {s : State} {e : BusEvent}
    (h : dataEvent x j (sdiAhead s 0) = some e) : ∃ b, dataByte x j s = byteDone b e s := by
  cases x with
  | strobe b => cases h
  | read hd =>
    simp only [dataEvent] at h
    split at h <;> cases h
    exact ⟨_, rxByte_eq_byteDone s⟩
  | write hd bs =>
    obtain ⟨b, hb, rfl⟩ := Option.map_eq_some_iff.1 h
    exact ⟨b, by simp only [dataByte, hb, txByte_eq_byteDone]⟩

/-- A byte, and what follows it: data byte `j`, if the transaction has one, or the end of it. -/
theorem step_byte_toData {a : Act} {k : List Act} {s : State} (hn : s.ses.sess_phase ≠ .halted)
    (hp : s.host.pend = a :: k) {x : Txn} {j : Nat} {b : Byte} {e : BusEvent}
    (h : act a s = toData x j (byteDone b e s)) :
    ∃ t, step s = .next t ∧ BusFrame s t ∧
      if j < x.dataBytes then
        t.drv.sel = s.drv.sel ∧ t.drv.drv_phase = .data j ∧ t.host.pend = a :: k ∧
          t.ghost.bus_log = s.ghost.bus_log ++ [e]
      else
        t.drv.sel = .released ∧ t.drv.drv_phase = .idle ∧ t.host.pend = k ∧
          t.ghost.bus_log = s.ghost.bus_log ++ [e, .selOff] := by
  unfold toData at h
  split at h
  · rename_i hj
    refine ⟨_, step_more hn hp h, by simp [BusFrame, byteDone], ?_⟩
    simp [hj, byteDone]
  · rename_i hj
    refine ⟨_, step_go hn hp h, by simp [BusFrame, byteDone, closeBus_eq], ?_⟩
    simp [hj, byteDone, closeBus_eq]

/-- HDR of a read or a write: the header goes out, and the data follows. -/
theorem act_header {s : State} {x : Txn} (hx : ∀ b, x ≠ .strobe b) (hd : s.drv.drv_phase = .hdr) :
    act (.bus x) s = toData x 0 (byteDone x.firstByte (.tx x.firstByte) s) := by
  rw [act_hdr x hd, txByte_eq_byteDone]
  cases x with
  | strobe b => exact absurd rfl (hx b)
  | read h => rfl
  | write h bs => rfl

/-! ## The sequencers, place by place -/

section

variable {k : List Act} {s : State} (hn : s.ses.sess_phase ≠ .halted)
include hn

/-- IDLE: select is asserted. -/
theorem step_bus_idle {x : Txn} (hp : s.host.pend = .bus x :: k) (hu : BusUsable s) :
    ∃ t, step s = .next t ∧ BusFrame s t ∧ t.drv.sel = .asserted ∧ t.drv.drv_phase = .wait1 ∧
      t.host.pend = .bus x :: k ∧ t.ghost.bus_log = s.ghost.bus_log ++ [.selOn] :=
  ⟨_, step_more hn hp (act_idle x hu), by simp [BusFrame], rfl, rfl, rfl, rfl⟩

/-- HDR of a strobe: its byte goes out, and the second wait follows. -/
theorem step_strobe_hdr {b : Byte} (hp : s.host.pend = .bus (.strobe b) :: k) (hd : s.drv.drv_phase = .hdr) :
    ∃ t, step s = .next t ∧ BusFrame s t ∧ t.drv.sel = s.drv.sel ∧ t.drv.drv_phase = .wait2 ∧
      t.host.pend = .bus (.strobe b) :: k ∧ t.ghost.bus_log = s.ghost.bus_log ++ [.tx b] := by
  have h : act (.bus (.strobe b)) s = .more (setPhase .wait2 (byteDone b (.tx b) s)) := by
    rw [act_hdr _ hd, txByte_eq_byteDone]; rfl
  exact ⟨_, step_more hn hp h, by simp [BusFrame, byteDone], rfl, rfl, rfl, rfl⟩

/-- A pass of a burst's loop drives the next frame whole. -/
theorem step_frame {p : Packet} (hp : s.host.pend = .frames p :: k) (hr : s.enc.rep_cnt < REPEAT)
    (hd : s.enc.tx_mode = .driven) : step s = .next { s with
      enc := { s.enc with tx_pkt := p, tx_level := .low, seg_idx := none, rep_cnt := s.enc.rep_cnt + 1 }
      env := { s.env with now := s.env.now + 58980 }
      ghost := { s.ghost with tx_log := s.ghost.tx_log ++ segmentLog (frame p) } } := by
  rw [step_more hn hp (act_frame p hr hd), ← hp]

/-- The call in flight stays at its entry, goes on to the next, or ends with the halt. -/
theorem step_pend_after {a : Act} {t : State} (hp : s.host.pend = a :: k) (h : step s = .next t) :
    t.host.pend = a :: k ∨ t.host.pend = k ∨ (t.host.pend = [] ∧ t.ses.sess_phase = .halted) := by
  rw [step_pend hn hp] at h
  obtain ⟨s', ⟨-, rfl⟩ | ⟨-, rfl⟩ | ⟨ha, rfl⟩⟩ := tick_next hp h
  · exact .inr (.inl rfl)
  · exact .inl rfl
  · obtain ⟨r, e, -, -, rfl⟩ := act_ended ha
    exact .inr (.inr ⟨rfl, rfl⟩)

end

/-- Settles O60 (R23): place by place of `drv_phase` and of `rep_cnt`. -/
theorem sequencersPickTheAction : Obligations.SequencersPickTheAction := by
  intro s a k hn hp
  refine ⟨?_, ?_, ?_, ?_, ?_, ?_, ?_, fun t => step_pend_after hn hp⟩
  · rintro x rfl - hu
    exact step_bus_idle hn hp hu
  · rintro b rfl hd
    exact step_strobe_hdr hn hp hd
  · rintro x rfl hx hd
    exact step_byte_toData hn hp (act_header hx hd)
  · rintro x j e rfl hd he
    obtain ⟨b, hb⟩ := dataByte_of_dataEvent he
    exact step_byte_toData hn hp (by rw [act_data x hd, hb])
  · rintro rfl
    exact step_go hn hp rfl
  · rintro p rfl hr
    exact ⟨step_frame hn hp hr, fun hz => step_refuse hn hp (act_frame_hiz p hr hz)⟩
  · rintro p rfl hr
    exact step_go hn hp (act_burst_over p (Nat.not_lt.2 hr))

end Sys2Proof.Machine
end

section

namespace Sys2Proof.Machine

/-! ## No call writes HALTED by itself -/

/-- No action of the list writes HALTED: only a condition halts the block (R264). -/
def NoHalt (k : List Act) : Prop := Act.phase .halted ∉ k

@[simp] theorem noHalt_nil : NoHalt [] := List.not_mem_nil

@[simp] theorem noHalt_cons {a : Act} {k : List Act} : NoHalt (a :: k) ↔ a ≠ .phase .halted ∧ NoHalt k := by
  simp only [NoHalt, List.mem_cons, not_or, ne_eq, eq_comm]

@[simp] theorem noHalt_append {k l : List Act} : NoHalt (k ++ l) ↔ NoHalt k ∧ NoHalt l := by
  simp only [NoHalt, List.mem_append, not_or]

theorem noHalt_flatMap {α : Type} {f : α → List Act} (h : ∀ x, NoHalt (f x)) (xs : List α) : NoHalt (xs.flatMap f) := by
  induction xs with
  | nil => exact noHalt_nil
  | cons x xs ih => exact noHalt_append.2 ⟨h x, ih⟩

@[simp] theorem strobeActs_noHalt (c : Config) (st : Strobe) : NoHalt (strobeActs c st) := by
  unfold strobeActs; split <;> simp

@[simp] theorem readActs_noHalt (c : Config) (r : Reg) : NoHalt (readActs c r) := by
  unfold readActs; split <;> simp

@[simp] theorem writeActs_noHalt (c : Config) (r : Reg) (bs : List Byte) : NoHalt (writeActs c r bs) := by
  unfold writeActs; split <;> simp

@[simp] theorem freqActs_noHalt (c : Config) (w : FreqWord) : NoHalt (freqActs c w) := by simp [freqActs]

@[simp] theorem pfreqActs_noHalt (c : Config) (m : Mhz) : NoHalt (pfreqActs c m) := by
  unfold pfreqActs; split <;> simp

@[simp] theorem modeActs_noHalt (c : Config) (st : Strobe) : NoHalt (modeActs c st) := by
  unfold modeActs radioActs; split <;> simp

@[simp] theorem burstActs_noHalt (p : Packet) : NoHalt (burstActs p) := by simp [burstActs]

@[simp] theorem secondBurst_noHalt (p : Option Packet) : NoHalt (secondBurst p) := by
  cases p <;> simp [secondBurst]

theorem startupOpActs_noHalt (c : Config) (op : StartupOp) : NoHalt (startupOpActs c op) := by
  cases op <;> simp [startupOpActs]

theorem startupActs_noHalt (c : Config) : NoHalt (startupActs c) := by
  have checks := noHalt_flatMap (f := checkActs c) (by simp [checkActs]) c.chip_id_check
  have ops := noHalt_flatMap (startupOpActs_noHalt c) c.startup_ops
  simp [startupActs, checks, ops]

theorem busActs_noHalt {c : Config} {i : Instr} {k : List Act} (h : busActs c i = some k) : NoHalt k := by
  cases i with
  | startup => cases h; exact startupActs_noHalt c
  | _ =>
    cases h <;>
      simp [execActs, readCallActs, writeCallActs, pfreqCallActs, freqCallActs, burstCallActs, sniffActs]

theorem callActs_noHalt {s : State} {i : Instr} {k : List Act} (h : callActs s i = some k) : NoHalt k := by
  unfold callActs at h
  split at h
  · cases h; simp [sendActs]
  · cases h
  · exact busActs_noHalt h

/-! ## What an action does to sess_phase -/

theorem BusFrame.place {s u : State} (h : BusFrame s u) (p : DrvPhase) : BusFrame s (setPhase p u) := h

theorem BusFrame.close {s u : State} (h : BusFrame s u) : BusFrame s (closeBus u) := h

theorem toData_frame {x : Txn} {j : Nat} {s u s' : State} (hu : BusFrame s u) (h : (toData x j u).leaves s') :
    BusFrame s s' := by
  unfold toData at h
  split at h
  · rw [Progress.leaves_more h]; exact hu.place _
  · rw [Progress.leaves_go h]; exact hu.close

theorem txByte_frame (b : Byte) (s : State) : BusFrame s (txByte b s) := by simp [txByte_eq, BusFrame]

theorem dataByte_frame (x : Txn) (j : Nat) (s : State) : BusFrame s (dataByte x j s) := by
  cases x with
  | strobe b => simp [dataByte, BusFrame]
  | read h => simp [dataByte, rxByte_eq, BusFrame]
  | write h bs =>
    cases hb : bs[j]? with
    | none => simp [dataByte, hb, BusFrame]
    | some b => simp only [dataByte, hb, txByte_frame]

/-- An action of a transaction is one of the bus only. -/
theorem busAct_frame {x : Txn} {s s' : State} (h : (busAct x s).leaves s') : BusFrame s s' := by
  unfold busAct at h
  split at h
  · split at h
    · exact (Progress.leaves_refuse h).elim
    · rw [Progress.leaves_more h]; simp [BusFrame]
  · unfold waitReady at h
    split at h
    · rw [Progress.leaves_more h]; simp [BusFrame, drawRdy_eq]
    · rw [Progress.leaves_again h]; simp [BusFrame, drawRdy_eq]
  · unfold afterFirst at h
    split at h
    · rw [Progress.leaves_more h]; exact (txByte_frame _ s).place _
    · exact toData_frame (txByte_frame _ s) h
    · exact toData_frame (txByte_frame _ s) h
  · exact toData_frame (dataByte_frame x _ s) h
  · unfold waitReady at h
    split at h
    · rw [Progress.leaves_go h]; simp [BusFrame, drawRdy_eq, closeBus_eq]
    · rw [Progress.leaves_again h]; simp [BusFrame, drawRdy_eq]

/-- `sess_phase` is written by its own action, and by the end of a call with a condition. -/
theorem act_sess_phase {a : Act} {s s' : State} (h : (act a s).leaves s') :
    s'.ses.sess_phase = s.ses.sess_phase ∨ a = .phase s'.ses.sess_phase ∨ act a s = .ended s' := by
  cases a with
  | bus x =>
    obtain ⟨-, -, -, ses, -⟩ := busAct_frame h
    exact .inl (by rw [ses])
  | init =>
    simp only [act] at h
    split at h
    · exact (Progress.leaves_refuse h).elim
    · rw [Progress.leaves_go h, initPulse_eq]; exact .inl rfl
  | check r e =>
    simp only [act] at h ⊢
    split at h
    · rw [Progress.leaves_go h]; exact .inl rfl
    · rename_i hne
      rw [Progress.leaves_ended h, if_neg hne]; exact .inr (.inr rfl)
  | phase p => rw [Progress.leaves_go h]; exact .inr (.inl rfl)
  | frames p =>
    simp only [act, burstAct] at h
    split at h
    · split at h
      · rw [Progress.leaves_more h, burstFrame_eq]; exact .inl rfl
      · exact (Progress.leaves_refuse h).elim
    · rw [Progress.leaves_go h]; exact .inl rfl
  | sniffLoop =>
    simp only [act, sniffHead] at h
    split at h
    · rw [Progress.leaves_go h]; exact .inl rfl
    · obtain ⟨d, out, he, -⟩ := pollLine_frame (drawCancel s).2
      rw [Progress.leaves_again h, he]; exact .inl rfl
  | refuse r => exact (Progress.leaves_refuse h).elim
  | _ => rw [Progress.leaves_go h]; exact .inl rfl

/-! ## The steps of a call are its actions -/

/-- Nothing in flight writes HALTED, and a halted block has nothing in flight: while a call is in flight the
block takes its steps. -/
def GoesOn (s : State) : Prop := NoHalt s.host.pend ∧ (s.ses.sess_phase = .halted → s.host.pend = [])

theorem tick_goesOn {s t : State} (hs : GoesOn s) (h : tick s = .next t) : GoesOn t := by
  cases hp : s.host.pend with
  | nil => simp only [tick, hp] at h; cases h; exact hs
  | cons a k =>
    obtain ⟨calm, halted⟩ := hs
    rw [hp] at calm halted
    have running : ∀ s', (act a s).leaves s' → act a s ≠ .ended s' → s'.ses.sess_phase ≠ .halted := by
      intro s' hl hne hh
      obtain e | e | e := act_sess_phase hl
      · exact absurd (halted (e.symm.trans hh)) (List.cons_ne_nil a k)
      · exact (noHalt_cons.1 calm).1 (hh ▸ e)
      · exact hne e
    obtain ⟨s', ⟨ha, rfl⟩ | ⟨ha | ha, rfl⟩ | ⟨ha, rfl⟩⟩ := tick_next hp h
    · exact ⟨(noHalt_cons.1 calm).2, fun hh => absurd hh (running s' (.inl ha) (by simp [ha]))⟩
    · exact ⟨calm, fun hh => absurd hh (running s' (.inr (.inl ha)) (by simp [ha]))⟩
    · exact ⟨calm, fun hh => absurd hh (running s' (.inr (.inr (.inl ha))) (by simp [ha]))⟩
    · obtain ⟨r, e, -, -, rfl⟩ := act_ended ha
      exact ⟨noHalt_nil, fun _ => rfl⟩

theorem steps_next {n : Nat} {s s' : State} (h : step s = .next s') : steps (n + 1) s = steps n s' := by
  rw [steps, h]

theorem steps_one (s : State) : steps 1 s = step s := by
  rw [steps]
  cases step s <;> rfl

/-- Actions of the call in flight are steps, until nothing of it is left. -/
theorem ticks_eq_steps (n : Nat) {s : State} (hs : GoesOn s) : ∃ m, steps m s = ticks n s := by
  induction n generalizing s with
  | zero => exact ⟨0, rfl⟩
  | succ n ih =>
    by_cases hp : s.host.pend = []
    · have idle : tick s = .next s := by simp only [tick, hp]
      rw [ticks_next idle]
      exact ih hs
    · have hstep : step s = tick s := step_eq_tick (fun hh => hp (hs.2 hh)) hp
      cases ht : tick s with
      | next t =>
        obtain ⟨m, hm⟩ := ih (tick_goesOn hs ht)
        exact ⟨m + 1, by rw [steps_next (hstep.trans ht), hm, ticks_next ht]⟩
      | refused r => exact ⟨1, by rw [steps_one, hstep, ticks, ht]⟩
      | fault f => exact absurd ht outcome_ne_fault

/-- A step that is the first action of a list leads, with further steps, to what the whole list leads to. -/
theorem steps_eq_run {s u : State} {k : List Act} (hk : NoHalt k) (hu : u.ses.sess_phase ≠ .halted)
    (h : step s = tick { u with host := { u.host with pend := k } }) : ∃ n, steps (n + 1) s = run k u := by
  obtain ⟨n, hrun, hn⟩ := run_eq_ticks k u
  have goes : GoesOn { u with host := { u.host with pend := k } } := ⟨hk, fun hh => absurd hh hu⟩
  rw [hrun]
  cases n with
  | zero =>
    obtain rfl := hn.2 rfl
    exact ⟨0, (steps_one s).trans h⟩
  | succ n =>
    cases ht : tick { u with host := { u.host with pend := k } } with
    | next t =>
      obtain ⟨m, hm⟩ := ticks_eq_steps n (tick_goesOn goes ht)
      exact ⟨m, by rw [steps_next (h.trans ht), hm, ticks_next ht]⟩
    | refused r => exact ⟨0, by rw [steps_one, h, ticks, ht]⟩
    | fault f => exact absurd ht outcome_ne_fault

/-! ## The host's next call -/

theorem fetch_call {s : State} {i : Instr} {rest : List Byte} (h : decode s.host.calls = .ok (i, rest)) :
    fetch s = .call i { s with host := { s.host with calls := rest } } := by
  unfold fetch
  split
  · rename_i hc; rw [hc] at h; cases h
  · rename_i hc; simp only [← hc, h]

theorem fetch_bad {s : State} {e : DecodeError} (hc : s.host.calls ≠ []) (h : decode s.host.calls = .error e) :
    fetch s = .bad e := by
  unfold fetch
  split
  · exact absurd ‹_› hc
  · rename_i hc; simp only [← hc, h]

/-- With nothing in flight a step takes what the host puts forward. -/
theorem step_fetch {s : State} (hn : s.ses.sess_phase ≠ .halted) (hp : s.host.pend = []) :
    step s = match fetch s with
      | .nothing => .next s
      | .bad e => .refused (.undecodable e)
      | .call i s' => startCall i s' := by
  unfold step
  split
  · exact absurd ‹_› hn
  · rename_i hc _; rw [hp] at hc; cases hc
  · rfl

theorem step_call {s : State} {i : Instr} {rest : List Byte} (hn : s.ses.sess_phase ≠ .halted)
    (hp : s.host.pend = []) (h : decode s.host.calls = .ok (i, rest)) :
    step s = startCall i { s with host := { s.host with calls := rest } } := by
  rw [step_fetch hn hp, fetch_call h]

/-- A call of one action is that action. -/
theorem startCall_of_none {i : Instr} {s : State} (h : callActs s i = none) : startCall i s = exec i s := by
  simp only [startCall, h]

/-- An accepted call of more begins with its first. -/
theorem startCall_of_some {i : Instr} {s : State} {k : List Act} (h : callActs s i = some k) (hc : CanCall s) :
    startCall i s = tick { s with host := { s.host with ret := .none, pend := k } } := by
  simp only [startCall, h, accept_of_canCall hc]
  rfl

/-- A call that is not accepted is refused at its beginning, as exec refuses it. -/
theorem startCall_refused (i : Instr) {s : State} (hc : ¬ CanCall s) : startCall i s = exec i s := by
  obtain ⟨r, hr⟩ := accept_refused hc
  obtain ⟨f, hf⟩ := exec_accept i s
  unfold startCall
  split
  · rw [hr, hf, hr]
  · rfl

/-- Steps lead from a call's beginning to what exec answers. -/
theorem steps_eq_exec {s u : State} {i : Instr} (h : step s = startCall i u) : ∃ n, steps (n + 1) s = exec i u := by
  have one (e : startCall i u = exec i u) : ∃ n, steps (n + 1) s = exec i u := ⟨0, (steps_one s).trans (h.trans e)⟩
  by_cases hc : CanCall u
  · cases hk : callActs u i with
    | none => exact one (startCall_of_none hk)
    | some k =>
      rw [exec_of_callActs hc hk]
      refine steps_eq_run (callActs_noHalt hk) ?_ (h.trans (startCall_of_some hk hc))
      simp [hc.1]
  · exact one (startCall_refused i hc)

/-- Settles O2 (R23, R132): a run of a call is its actions one after the other, and none of them but the last
leaves the block halted or with nothing in flight, so that each is a step. -/
theorem stepRunsTheDecodedCall : Obligations.StepRunsTheDecodedCall := by
  intro s hn
  refine ⟨fun i rest hp hd => ?_, fun e hp hc hd => ?_, fun hp hc => ?_, step_eq_tick hn⟩
  · have hstep := step_call hn hp hd
    exact ⟨fun h => hstep.trans (startCall_of_none h), fun k h hc => hstep.trans (startCall_of_some h hc),
      steps_eq_exec hstep⟩
  · rw [step_fetch hn hp, fetch_bad hc hd]
  · rw [step_fetch hn hp, fetch, hc]

end Sys2Proof.Machine
end

section

namespace Sys2Proof.Machine

/-! ## A call with a name that is no member -/

section

variable {c : Config} {r : Reg} {st : Strobe}

theorem readHeader_of_absent (h : regAddr c r = none) : readHeader c r = none := by simp only [readHeader, h]

theorem writeHeader_of_absent (h : regAddr c r = none) : writeHeader c r = none := by simp only [writeHeader, h]

theorem readActs_of_absent (h : regAddr c r = none) : readActs c r = [.refuse .notInRegs] := by
  simp only [readActs, readHeader_of_absent h]

theorem writeActs_of_absent (h : regAddr c r = none) (bs : List Byte) : writeActs c r bs = [.refuse .notInRegs] := by
  simp only [writeActs, writeHeader_of_absent h]

theorem strobeActs_of_absent (h : strobeByte c st = none) : strobeActs c st = [.refuse .notInStrobes] := by
  simp only [strobeActs, h]

end

/-- A call whose first actions come to a refusal is refused so. -/
theorem exec_of_refuse {i : Instr} {s : State} {r : Refusal} {l k : List Act} (hc : CanCall s)
    (h : callActs s i = some (l ++ k)) (hl : l = [.refuse r]) : exec i s = .refused r := by
  subst hl
  exact (exec_of_callActs hc h).trans (run_refuse rfl)

/-- A byte row without its byte is refused, whatever the entry check says. -/
theorem sendBare_none {s : State} (hc : CanCall s) (r : Refusal) : sendBare none r s = .refused r :=
  accept_of_canCall hc _

theorem exec_of_absent_reg {i : Instr} {s : State} {r : Reg} (hc : CanCall s) (hi : regOf i = some r)
    (hr : regAddr s.cfg r = none) : exec i s = .refused .notInRegs := by
  cases i <;> cases hi
  case read => exact exec_of_refuse hc rfl (readActs_of_absent hr)
  case write b => exact exec_of_refuse hc rfl (writeActs_of_absent hr [b])
  case wburst bs => exact exec_of_refuse hc rfl (writeActs_of_absent hr bs)
  case fmtHRead =>
    rw [exec, execFmtHRead, readHeader_of_absent hr]
    exact sendBare_none hc _
  case fmtHWrite =>
    rw [exec, execFmtHWrite, writeHeader_of_absent hr]
    exact sendBare_none hc _

theorem exec_of_absent_strobe {i : Instr} {s : State} {st : Strobe} (hc : CanCall s) (hi : strobeOf i = some st)
    (hst : strobeByte s.cfg st = none) : exec i s = .refused .notInStrobes := by
  cases i <;> cases hi
  case exec => exact exec_of_refuse hc rfl (strobeActs_of_absent hst)
  case fmtS =>
    rw [exec, execFmtS, hst]
    exact sendBare_none hc _

/-- Settles O16 (R62, D7): a call of EXEC, READ, WRITE or WBURST then begins with the refusal, and a byte row has
no byte to send. -/
theorem namesOutsideTheSetsAreRefused : Obligations.NamesOutsideTheSetsAreRefused := fun _ _ hc =>
  ⟨fun _ => exec_of_absent_reg hc, fun _ => exec_of_absent_strobe hc⟩

end Sys2Proof.Machine
end

section

namespace Sys2Proof.Machine

/-! ## The bus between transactions -/

/-- No transaction is in flight, select is released, and `bus_log` is bracketed up to there (R69). -/
structure BusAtRest (s : State) : Prop where
  phase : s.drv.drv_phase = .idle
  sel : s.drv.sel = .released
  log : bracketed false s.ghost.bus_log = some false

theorem inPlace_idle (k : List Act) : inPlace .idle k = true := by
  unfold inPlace
  split <;> rfl

/-- Between transactions it does not matter what is left of the call. -/
theorem BusAtRest.busLogBracketed {s : State} (h : BusAtRest s) : BusLogBracketed s := by
  obtain ⟨hp, hs, hl⟩ := h
  refine ⟨⟨?_, by simp [hp, hs]⟩, by simp [hl, hs]⟩
  rw [hp]
  exact inPlace_idle _

theorem BusLogBracketed.atRest {s : State} (h : BusLogBracketed s) (hp : s.drv.drv_phase = .idle) : BusAtRest s := by
  obtain ⟨⟨-, hsel⟩, hl⟩ := h
  have hs : s.drv.sel ≠ .asserted := fun ha => hsel.1 ha hp
  refine ⟨hp, ?_, by simpa [hs] using hl⟩
  cases hv : s.drv.sel with
  | asserted => exact absurd hv hs
  | released => rfl

/-- What leaves BUSDRV and `bus_log` alone leaves the bus at rest. -/
theorem BusAtRest.same {s t : State} (h : BusAtRest s) (hd : t.drv = s.drv) (hl : t.ghost.bus_log = s.ghost.bus_log) :
    BusAtRest t := by
  obtain ⟨phase, sel, log⟩ := h
  exact ⟨hd ▸ phase, hd ▸ sel, hl ▸ log⟩

/-- An action that is none of a transaction leaves the bus at rest: INIT's pulse stands outside every bracket. -/
theorem BusAtRest.of_act {a : Act} {s s' : State} (h : BusAtRest s) (ha : ∀ x, a ≠ .bus x)
    (hl : (act a s).leaves s') : BusAtRest s' := by
  obtain ⟨hp, ⟨hs, hg⟩ | ⟨hs, hg⟩⟩ := act_off_bus ha hl
  · exact ⟨hp.trans h.phase, hs.trans h.sel, hg ▸ h.log⟩
  · exact ⟨hp.trans h.phase, hs, by rw [hg, bracketed_append, h.log]; rfl⟩

/-! ## An action of the call in flight -/

/-- What an action of a transaction appends goes on from a bracketed history. -/
theorem BusEffect.log_bracketed {s s' : State} {v : Select} (he : BusEffect s s' v)
    (hl : bracketed false s.ghost.bus_log = some (decide (s.drv.sel = .asserted))) :
    bracketed false s'.ghost.bus_log = some (decide (s'.drv.sel = .asserted)) := by
  obtain ⟨hsel, l, hlog, hb⟩ := he
  rw [hlog, bracketed_append, hl, hsel]
  exact hb

/-- An action of a transaction keeps `bus_log` bracketed: BUSDRV stays in the transaction, or is at rest. -/
theorem tick_bus_bracketed {x : Txn} {k : List Act} {s t : State} (hb : BusLogBracketed s)
    (hp : s.host.pend = .bus x :: k) (h : tick s = .next t) : BusLogBracketed t := by
  obtain ⟨⟨hx, hsel⟩, hl⟩ := hb
  rw [hp] at hx
  obtain ⟨s', ⟨ha, rfl⟩ | ⟨ha | ha, rfl⟩ | ⟨ha, -⟩⟩ := tick_next hp h
  · obtain ⟨hi, he⟩ := (busAct_effect hx hsel).2.1 ha
    have hr : bracketed false s'.ghost.bus_log = some false := by simpa [he.sel] using he.log_bracketed hl
    exact BusAtRest.busLogBracketed ⟨hi, he.sel, hr⟩
  · obtain ⟨hx', hi, he⟩ := (busAct_effect hx hsel).1 ha
    exact ⟨⟨hx', iff_of_true he.sel hi⟩, he.log_bracketed hl⟩
  · obtain ⟨hd, hg⟩ := (busAct_effect hx hsel).2.2 ha
    refine ⟨⟨?_, ?_⟩, ?_⟩
    · simpa [hd] using hx
    · simpa [hd] using hsel
    · simpa [hd, hg] using hl
  · obtain ⟨r, e, hc, -⟩ := act_ended ha
    cases hc

/-- Any other action finds the bus at rest, and leaves it so. -/
theorem tick_off_bus_atRest {a : Act} {k : List Act} {s t : State} (hb : BusAtRest s) (hp : s.host.pend = a :: k)
    (ha : ∀ x, a ≠ .bus x) (h : tick s = .next t) : BusAtRest t := by
  obtain ⟨s', ⟨hs, rfl⟩ | ⟨hs | hs, rfl⟩ | ⟨hs, rfl⟩⟩ := tick_next hp h
  · exact (hb.of_act ha (.inl hs)).same rfl rfl
  · exact (hb.of_act ha (.inr (.inl hs))).same rfl rfl
  · exact (hb.of_act ha (.inr (.inr (.inl hs)))).same rfl rfl
  · exact hb.of_act ha (.inr (.inr (.inr hs)))

/-- An action of the call in flight keeps `bus_log` bracketed (R69, R95). -/
theorem tick_busLogBracketed {s t : State} (hb : BusLogBracketed s) (h : tick s = .next t) : BusLogBracketed t := by
  cases hp : s.host.pend with
  | nil => simp only [tick, hp] at h; cases h; exact hb
  | cons a k =>
    by_cases ha : ∃ x, a = .bus x
    · obtain ⟨x, rfl⟩ := ha
      exact tick_bus_bracketed hb hp h
    · have ha : ∀ x, a ≠ .bus x := fun x e => ha ⟨x, e⟩
      have hi : s.drv.drv_phase = .idle := by
        obtain ⟨⟨place, -⟩, -⟩ := hb
        rw [hp] at place
        cases a with
        | bus x => exact absurd rfl (ha x)
        | _ => exact of_decide_eq_true place
      exact (tick_off_bus_atRest (hb.atRest hi) hp ha h).busLogBracketed

/-! ## A call of one action -/

/-- An instruction of one action, the byte rows apart, leaves the bus at rest (log entry 1). -/
theorem exec_atRest {i : Instr} {s t : State} (hb : BusAtRest s) (hn : callActs s i = none)
    (hi : isBareByte i = false) (h : exec i s = .next t) : BusAtRest t := by
  have hb : BusAtRest (returnWith .none s) := hb.same rfl rfl
  obtain ⟨-, h⟩ := exec_next h
  cases h with
  | acts k hk _ => cases hn.symm.trans hk
  | init _ he h =>
    have hl : (act .init (returnWith .none s)).leaves (initPulse (returnWith .none s)) := .inl (by simp only [act, he])
    subst h; exact (hb.of_act (a := .init) (fun _ => nofun) hl).same rfl rfl
  | bare b hi' _ _ => cases hi.symm.trans hi'
  | drive gs h => subst h; rw [driveAll_eq]; exact hb.same rfl rfl
  | frame p h => subst h; rw [sendFrame_eq]; exact hb.same rfl rfl
  | cells p h => subst h; rw [sendCells_eq]; exact hb.same rfl rfl
  | lineOn h => subst h; exact hb.same rfl rfl
  | lineOff h => subst h; exact hb.same rfl rfl
  | arm h => subst h; exact hb.same rfl rfl
  | poll h =>
    obtain ⟨d, out, he, -⟩ := pollLine_frame (returnWith .none s)
    subst h; rw [he]; exact hb.same rfl rfl
  | edge l ts el h =>
    obtain ⟨d, out, he, -⟩ := takeEdge_frame l ts el (returnWith .none s)
    subst h; rw [he]; exact hb.same rfl rfl
  | serial v _ h => subst h; exact hb.same rfl rfl
  | channel v _ h => subst h; exact hb.same rfl rfl
  | raise _ h => subst h; exact hb.same rfl rfl
  | verdict b h => subst h; exact hb.same rfl rfl

/-- A call that begins, the byte rows apart, keeps `bus_log` bracketed: it begins with the bus at rest. -/
theorem startCall_busLogBracketed {i : Instr} {s t : State} (hb : BusLogBracketed s) (hi : isBareByte i = false)
    (h : startCall i s = .next t) : BusLogBracketed t := by
  obtain ⟨⟨-, -, hp⟩, ⟨k, -, h⟩ | ⟨hn, h⟩⟩ := startCall_next h
  · refine tick_busLogBracketed (BusAtRest.busLogBracketed ?_) h
    exact (hb.atRest hp).same rfl rfl
  · exact (exec_atRest (hb.atRest hp) hn hi h).busLogBracketed

/-- Settles O53 (R69, R95), by the kinds of step: a rest, an action of the call in flight, a call that begins. -/
theorem bytesOnlyInsideTransactions : Obligations.BytesOnlyInsideTransactions := by
  intro s t hb hc h
  obtain ⟨-, ⟨-, -, rfl⟩ | ⟨-, h⟩ | ⟨hp, i, rest, hd, h⟩⟩ := step_next h
  · exact hb
  · exact tick_busLogBracketed hb h
  · exact startCall_busLogBracketed (by exact hb) (hc hp i rest hd) h

end Sys2Proof.Machine
end

section

namespace Sys2Proof

/-! ## A call's bytes, item by item -/

theorem andThen_of_ok {α β : Type} {r : Parsed α} {a : α} {bs : List Byte} (h : r = .ok (a, bs))
    (f : α → List Byte → Parsed β) : r.andThen f = f a bs := by
  rw [h, Parsed.andThen]

/-- A duration that PULSE may have is read back (R171). -/
theorem takeDuration_putNat {d : Nat} (hd : 1 ≤ d) (rest : List Byte) :
    takeDuration (putNat d ++ rest) = .ok (d, rest) := by
  rw [takeDuration, andThen_of_ok (takeNat_putNat d rest), if_neg (by omega)]

/-- A rational frequency is read back (R143). -/
theorem takeMhz_put {m : Mhz} (hm : m.wellFormed = true) (rest : List Byte) :
    takeMhz (putInt m.num ++ (putNat m.den ++ rest)) = .ok (m, rest) := by
  have hden : m.den ≠ 0 := bne_iff_ne.1 hm
  rw [takeMhz, andThen_of_ok (takeInt_putInt m.num _), andThen_of_ok (takeNat_putNat m.den rest), if_neg hden]

/-- The opcode bytes of two rows differ: each stands for its own row. -/
theorem ofCode_code (op : Op) : Op.ofCode op.code = some op := by
  cases op <;> rfl

theorem decode_code_cons (op : Op) (bs : List Byte) : decode (op.code :: bs) = decodeOperands op bs := by
  simp only [decode, andThen_of_ok (takeByte_cons op.code bs), ofCode_code]

/-- The operand bytes of a well-formed instruction are read back, row by row. -/
theorem decodeOperands_operands {i : Instr} (hi : i.wellFormed = true) (rest : List Byte) :
    decodeOperands i.op (i.operands ++ rest) = .ok (i, rest) := by
  cases i with
  | exec st | fmtS st => exact andThen_of_ok (takeStrobe_putStrobe st rest) _
  | read r | fmtHRead r | fmtHWrite r => exact andThen_of_ok (takeReg_putReg r rest) _
  | txframe p | txburst p => rw [Instr.op, Instr.operands, decodeOperands, andThen_of_ok (take40_put40 p rest)]
  | setser v | fmtFreq v => rw [Instr.op, Instr.operands, decodeOperands, andThen_of_ok (take24_put24 v rest)]
  | winStartH el | winStartL el | winLong el | winShort el => exact andThen_of_ok (takeNat_putNat el rest) _
  | setch b | fmtD b => rfl
  | send c o => exact andThen_of_ok (takeOption_putOption o rest) _
  | fmtPacket v ch c =>
    rw [Instr.op, Instr.operands, decodeOperands, List.append_assoc, andThen_of_ok (take24_put24 v _)]
    rfl
  | write r b =>
    simp only [Instr.operands, List.append_assoc]
    exact andThen_of_ok (takeReg_putReg r _) _
  | wburst r bs =>
    simp only [Instr.operands, List.append_assoc]
    exact (andThen_of_ok (takeReg_putReg r _) _).trans (andThen_of_ok (takeBytes_putBytes bs rest) _)
  | pfreq m =>
    simp only [Instr.operands, List.append_assoc]
    exact andThen_of_ok (takeMhz_put hi rest) _
  | pulse l d =>
    simp only [Instr.operands, List.append_assoc]
    exact (andThen_of_ok (takeLevel_putLevel l _) _).trans
      (andThen_of_ok (takeDuration_putNat (of_decide_eq_true hi) rest) _)
  | edge l ts el =>
    simp only [Instr.operands, List.append_assoc]
    exact (andThen_of_ok (takeLevel_putLevel l _) _).trans
      ((andThen_of_ok (takeNat_putNat ts _) _).trans (andThen_of_ok (takeNat_putNat el rest) _))
  | init | txen | txdis | decreset | poll | sniff | startup | up | down | stop => rfl
  | codeUpPress | codeUpRelease | codeDownPress | codeDownRelease | codeStop => rfl
  | symHeader | symStart | symBit1 | symBit0 => rfl

/-- Settles O4 (R108; log entry 2): the first byte tells the row, and the row's operands are read back. -/
theorem decodeUndoesEncode : Obligations.DecodeUndoesEncode := fun i rest hi =>
  (decode_code_cons i.op (i.operands ++ rest)).trans (decodeOperands_operands hi rest)

/-- Settles O3 (R99, R108; log entry 2): the decoder run on each word. -/
theorem handWrittenWordsDecode : Obligations.HandWrittenWordsDecode :=
  ⟨rfl, rfl, rfl, rfl, rfl, rfl, rfl⟩

end Sys2Proof
end

section

namespace Sys2Proof.Machine

/-! ## A frame's segments and edges -/

/-- Settles O23 (R101), by `frame_eq`: three segments, and after them a pair for each of the packet's bits. -/
theorem frameHasItsSegments : Obligations.FrameHasItsSegments := by
  intro p
  have hlen : (frame p).length = 83 := by
    rw [frame_eq, List.length_cons, List.length_cons, List.length_cons, length_cells, length_packetBits]
  refine ⟨hlen, rfl, rfl, rfl, fun k hk => ?_, duration_frame p⟩
  have hbit : (packetBits p)[k]? = some (p.getLsbD (39 - k)) := packetBits_get p k hk
  have high := cells_high (packetBits p) k
  have low := cells_low (packetBits p) k
  rw [hbit] at high low
  rw [frame_eq, Nat.add_comm 3, show 4 + 2 * k = 2 * k + 1 + 3 by omega]
  exact ⟨high, low⟩

/-- The edges of a frame with nothing after it. -/
theorem lineEdges_frame_alone (p : Packet) (prev t0 : Nat) : lineEdges .low prev t0 (frame p) =
    ⟨.high, t0 + 8796, t0 + 8796 - prev⟩ :: ⟨.low, t0 + 13554, 4758⟩ ::
      lineEdges .low (t0 + 13554) (t0 + 15020) ((packetBits p).flatMap bitCell) := by
  simpa only [List.append_nil] using lineEdges_frame p prev t0 []

theorem length_lineEdges_frame (p : Packet) (prev t0 : Nat) : (lineEdges .low prev t0 (frame p)).length = 82 := by
  rw [lineEdges_frame_alone, List.length_cons, List.length_cons, length_lineEdges_cells, length_packetBits]

/-- The edges of a frame do not depend on what follows it, which begins in the low half of the packet's last bit. -/
theorem lineEdges_frame_append (p : Packet) (prev t0 : Nat) (rest : List Segment) :
    lineEdges .low prev t0 (frame p ++ rest) = lineEdges .low prev t0 (frame p) ++
      lineEdges .low (t0 + 58980 - lowWidth (p.getLsbD 0)) (t0 + 58980) rest := by
  rw [lineEdges_frame_alone, lineEdges_frame, lineEdges_cells_append, packetBits_getLast, length_packetBits]
  simp only [List.cons_append, Nat.add_assoc, Nat.reduceMul, Nat.reduceAdd]

/-- From the last falling edge of a frame to the end of the next frame's header (R102). -/
theorem span_at_join (t0 : Nat) (b : Bool) :
    t0 + 58980 + 8796 - (t0 + 58980 - lowWidth b) = if b then 9162 else 9529 := by
  cases b <;> simp only [lowWidth, if_true, Bool.false_eq_true, if_false] <;> omega

/-- Settles O30 (R102, R175): the second frame begins LOW, so that its first edge ends one span of the low half of
the first packet's bit 0 and of the header. -/
theorem framesMergeAtTheJoin : Obligations.FramesMergeAtTheJoin := by
  intro p q t0
  have hlen := length_lineEdges_frame p t0 t0
  rw [lineEdges_frame_append]
  refine ⟨?_, List.take_left' hlen⟩
  rw [List.getElem?_append_right hlen.le, hlen, lineEdges_frame_alone q, span_at_join]
  simp only [Nat.sub_self, List.getElem?_cons_zero, Nat.add_assoc, Nat.reduceAdd]

end Sys2Proof.Machine
end

section

namespace Sys2Proof.Machine

/-! ## The rows that drive segments of a frame -/

theorem onDrivenLine_driven {f : State → State} {s : State} (h : s.enc.tx_mode = .driven) :
    onDrivenLine f s = .next (returnWith .success (f s)) := by
  simp only [onDrivenLine, h]

theorem onDrivenLine_hiz {f : State → State} {s : State} (h : s.enc.tx_mode = .hiz) :
    onDrivenLine f s = .refused .lineNotDriven := by
  simp only [onDrivenLine, h]

/-- A symbol row drives its segments, and each symbol ends LOW (R100). -/
theorem exec_of_symbol {i : Instr} {gs : List Segment} (s : State) (hi : symbolOf i = some gs) :
    exec i s = accept s (onDrivenLine (driveAll gs)) ∧ ∀ l, endLevel l gs = .low := by
  cases i <;> cases hi <;> exact ⟨rfl, fun _ => rfl⟩

/-- Settles O27 (R100; log entries 1, 17), by what driving a list of segments does. -/
theorem symbolsDriveTheirSegments : Obligations.SymbolsDriveTheirSegments := by
  intro i gs s hc hi
  obtain ⟨he, hlow⟩ := exec_of_symbol s hi
  rw [he, accept_of_canCall hc]
  refine ⟨fun hm => ?_, fun hm => onDrivenLine_hiz (by exact hm)⟩
  rw [onDrivenLine_driven (by exact hm), driveAll_eq, hlow]
  rfl

/-- Three fields side by side as one number (R98). -/
theorem packet_toNat (v : Serial) (ch c : Byte) :
    (packet v ch c).toNat = v.toNat * 2 ^ 16 + ch.toNat * 2 ^ 8 + c.toNat := by
  rw [packet, BitVec.toNat_append, BitVec.toNat_append, ← Nat.shiftLeft_add_eq_or_of_lt ch.isLt,
    ← Nat.shiftLeft_add_eq_or_of_lt c.isLt, Nat.shiftLeft_eq, Nat.shiftLeft_eq]
  omega

theorem drop_frame (p : Packet) : (frame p).drop 3 = packetCells p := rfl

/-- A packet's cells leave the line LOW, whatever it was: there are forty of them. -/
theorem endLevel_packetCells (l : Level) (p : Packet) : endLevel l (packetCells p) = .low := by
  rw [packetCells_eq]
  cases h : packetBits p with
  | nil => exact absurd (length_packetBits p) (by simp [h])
  | cons b bits => rw [List.flatMap_cons, endLevel_append, endLevel_bitCell, endLevel_cells]

/-- Settles O28 (R98, R100, R101; log entries 1, 17), by what driving a packet's cells does. -/
theorem packetCellsGoOut : Obligations.PacketCellsGoOut := by
  intro v ch c s hc
  have he : exec (.fmtPacket v ch c) s = onDrivenLine (sendCells (packet v ch c)) (returnWith .none s) :=
    accept_of_canCall hc _
  refine ⟨packet_toNat v ch c, fun hm => ?_, fun hm => he.trans (onDrivenLine_hiz (by exact hm))⟩
  rw [he, onDrivenLine_driven (by exact hm), sendCells_eq, endLevel_packetCells, drop_frame]
  rfl

end Sys2Proof.Machine
end

section

namespace Sys2Proof.Machine

/-! ## The decoder's windows -/

/-- A window row's verdict is whether its span lies between its bounds (R104). -/
theorem exec_of_window {i : Instr} {lo hi el : Nat} (s : State) (h : windowOf i = some (lo, hi, el)) :
    exec i s = accept s fun s => .next (returnWith (.verdict (decide (lo ≤ el ∧ el ≤ hi))) s) := by
  cases i <;> cases h
  case winStartH => simp only [← inStartH_iff, Bool.decide_eq_true]; rfl
  case winStartL => simp only [← inStartL_iff, Bool.decide_eq_true]; rfl
  case winLong => simp only [← inLong_iff, Bool.decide_eq_true]; rfl
  case winShort => simp only [← inShort_iff, Bool.decide_eq_true]; rfl

/-- Settles O40 (R104; log entry 1): a window row does nothing but return its verdict. -/
theorem windowsAcceptTheirSpans : Obligations.WindowsAcceptTheirSpans := by
  intro i lo hi el s hc h
  rw [exec_of_window s h, accept_of_canCall hc]
  rfl

end Sys2Proof.Machine
end

section

namespace Sys2Proof.Machine

/-! ## Writes one after the other -/

/-- From `s` to `t`, `n` writes were done one after the other: each took one wait, `log` is what they left in
`bus_log`, and nothing else moved but the shifter and the lines (R95, R138). -/
structure Wrote (n : Nat) (log : List BusEvent) (s t : State) : Prop where
  frame : BusFrame s t
  host : t.host = s.host
  phase : t.drv.drv_phase = .idle
  sel : t.drv.sel = .released
  rdy : t.env.rdy = Feed.after Config.freeRdy n s.env.rdy
  log : t.ghost.bus_log = s.ghost.bus_log ++ log

section

variable {n m : Nat} {l l' : List BusEvent} {s t u : State}

theorem Wrote.usable (h : Wrote n l s t) (hu : BusUsable s) : BusUsable t := by
  obtain ⟨hi, -, hk⟩ := hu
  obtain ⟨hcfg, -, -, -, -, hinit, -⟩ := h.frame
  exact ⟨hinit.trans hi, h.phase, hcfg ▸ hk⟩

theorem Wrote.rdyAhead_eq (h : Wrote n l s t) (k : Nat) : rdyAhead t k = rdyAhead s (n + k) := by
  rw [rdyAhead, h.rdy, Feed.ahead_after, rdyAhead]

theorem BusFrame.trans (h : BusFrame s t) (h' : BusFrame t u) : BusFrame s u := by
  unfold BusFrame at *
  simp_all only [and_self]

theorem Wrote.trans (h : Wrote n l s t) (h' : Wrote m l' t u) : Wrote (n + m) (l ++ l') s u where
  frame := h.frame.trans h'.frame
  host := h'.host.trans h.host
  phase := h'.phase
  sel := h'.sel
  rdy := by rw [h'.rdy, h.rdy, Feed.after_after]
  log := by rw [h'.log, h.log, List.append_assoc]

end

theorem run_write_wrote {s : State} {r : Reg} {h : Byte} {c : Config} (hh : writeHeader c r = some h)
    (hu : BusUsable s) (hr : rdyAhead s 0 = .low) (bs : List Byte) (k : List Act) :
    ∃ t, run (writeActs c r bs ++ k) s = run k t ∧ Wrote 1 (writeLog h bs) s t := by
  obtain ⟨o, i, d, h⟩ := run_write hh hu hr bs k
  exact ⟨_, h, ⟨rfl, rfl, rfl, rfl, rfl, rfl, rfl, rfl, rfl, rfl, rfl, rfl⟩, rfl, rfl, rfl, rfl, rfl⟩

/-- What the three writes of a frequency word leave in `bus_log` (R97). -/
def freqLog (c : Config) (w : FreqWord) : List BusEvent :=
  writeLog (c.addr_freq_hi ||| c.flag_write_burst) [freqHigh w] ++
    writeLog (c.addr_freq_mid ||| c.flag_write_burst) [freqMiddle w] ++
    writeLog (c.addr_freq_lo ||| c.flag_write_burst) [freqLow w]

/-- The three writes of a frequency word, when the chip is ready at each (R97, R144). -/
theorem run_freq_wrote {s : State} (w : FreqWord) (hu : BusUsable s) (hr : ReadyFor 3 s) (c : Config) (k : List Act) :
    ∃ t, run (freqActs c w ++ k) s = run k t ∧ Wrote 3 (freqLog c w) s t := by
  simp only [freqActs, List.append_assoc]
  obtain ⟨t₁, run₁, high⟩ := run_write_wrote (c := c) (r := .freqHi) rfl hu (hr 0 (by omega)) [freqHigh w]
    (writeActs c .freqMid [freqMiddle w] ++ (writeActs c .freqLo [freqLow w] ++ k))
  obtain ⟨t₂, run₂, middle⟩ := run_write_wrote (c := c) (r := .freqMid) rfl (high.usable hu)
    ((high.rdyAhead_eq 0).trans (hr 1 (by omega))) [freqMiddle w] (writeActs c .freqLo [freqLow w] ++ k)
  have both := high.trans middle
  obtain ⟨t₃, run₃, low⟩ := run_write_wrote (c := c) (r := .freqLo) rfl (both.usable hu)
    ((both.rdyAhead_eq 0).trans (hr 2 (by omega))) [freqLow w] k
  exact ⟨t₃, run₁.trans (run₂.trans run₃), both.trans low⟩

/-- Settles O14 (R97; log entry 1): the three writes, and after them the return. -/
theorem frequencyBytesGoToTheirRegisters : Obligations.FrequencyBytesGoToTheirRegisters := by
  intro w s hc hu hr
  obtain ⟨t, run_t, wrote⟩ := run_freq_wrote w (s := returnWith .none s) (by exact hu) (by exact hr) s.cfg [.finish]
  refine ⟨{ t with host := { t.host with ret := .success, pend := [] } }, ?_, ?_, ?_, rfl, ?_⟩
  · exact (exec_of_callActs hc rfl).trans run_t
  · exact wrote.frame
  · exact ⟨wrote.sel, wrote.phase, rfl⟩
  · exact wrote.log

end Sys2Proof.Machine
end

section

namespace Sys2Proof.Machine

/-! ## The byte rows -/

/-- A byte row sends its byte alone (R91 to R93; log entry 1). -/
theorem exec_of_bare {i : Instr} (hi : isBareByte i = true) (s : State) :
    ∃ r, exec i s = sendBare (bareByteOf s.cfg i) r s := by
  cases i <;> cases hi <;> exact ⟨_, rfl⟩

theorem isBareByte_of_byte {c : Config} {i : Instr} {b : Byte} (h : bareByteOf c i = some b) : isBareByte i = true := by
  cases i with
  | fmtS _ | fmtHRead _ | fmtHWrite _ | fmtD _ => rfl
  | _ => cases h

theorem sendBare_some {s : State} (hc : CanCall s) (hu : BusUsable s) (b : Byte) (r : Refusal) :
    sendBare (some b) r s = .next (returnWith .success (txByte b (returnWith .none s))) := by
  have hu : busEntry (returnWith .none s) = none := busEntry_eq_none.2 hu
  rw [sendBare, accept_of_canCall hc]
  simp only [hu]

/-- Settles O15 (R94; log entries 1, 31, 34), by `txByte_eq`: its `byteLines` are the lines written out here. -/
theorem bareBytesGoOnTheWires : Obligations.BareBytesGoOnTheWires := by
  intro i b s hc hu hb
  obtain ⟨r, he⟩ := exec_of_bare (isBareByte_of_byte hb) s
  rw [he, hb, sendBare_some hc hu, txByte_eq]
  rfl

end Sys2Proof.Machine
end

section

namespace Sys2Proof.Machine

/-! ## A configuration that is refused -/

/-- A call's list begins where its first action is checked, or with a refusal. -/
inductive BeginsChecked : List Act → Prop
  | bus (x : Txn) (k : List Act) : BeginsChecked (.bus x :: k)
  | init (k : List Act) : BeginsChecked (.init :: k)
  | refuse (r : Refusal) (k : List Act) : BeginsChecked (.refuse r :: k)

theorem BeginsChecked.append {l : List Act} (h : BeginsChecked l) (k : List Act) : BeginsChecked (l ++ k) := by
  cases h with
  | bus x l => exact .bus x (l ++ k)
  | init l => exact .init (l ++ k)
  | refuse r l => exact .refuse r (l ++ k)

section

variable (c : Config)

theorem strobeActs_beginsChecked (st : Strobe) : BeginsChecked (strobeActs c st) := by
  unfold strobeActs; split <;> constructor

theorem readActs_beginsChecked (r : Reg) : BeginsChecked (readActs c r) := by
  unfold readActs; split <;> constructor

theorem writeActs_beginsChecked (r : Reg) (bs : List Byte) : BeginsChecked (writeActs c r bs) := by
  unfold writeActs; split <;> constructor

theorem freqActs_beginsChecked (w : FreqWord) : BeginsChecked (freqActs c w) :=
  ((writeActs_beginsChecked c .freqHi [freqHigh w]).append _).append _

theorem pfreqActs_beginsChecked (m : Mhz) : BeginsChecked (pfreqActs c m) := by
  unfold pfreqActs
  split
  · exact freqActs_beginsChecked c _
  · constructor

end

/-- Both entry checks refuse such a configuration, whatever else they would refuse (R92, D8). -/
theorem busEntry_of_not_configOk {s : State} (h : configOk s.cfg = false) : ∃ r, busEntry s = some r := by
  refine Option.ne_none_iff_exists'.1 fun he => ?_
  obtain ⟨-, -, hk⟩ := busEntry_eq_none.1 he
  exact Bool.false_ne_true (h.symm.trans hk)

theorem initEntry_of_not_configOk {s : State} (h : configOk s.cfg = false) : ∃ r, initEntry s = some r := by
  refine Option.ne_none_iff_exists'.1 fun he => ?_
  obtain ⟨-, hk⟩ := initEntry_eq_none.1 he
  exact Bool.false_ne_true (h.symm.trans hk)

theorem run_refused_of_not_configOk {s : State} {k : List Act} (h : configOk s.cfg = false)
    (hp : s.drv.drv_phase = .idle) (hk : BeginsChecked k) : ∃ r, run k s = .refused r := by
  cases hk with
  | bus x k =>
    obtain ⟨r, hr⟩ := busEntry_of_not_configOk h
    exact ⟨r, run_refuse (actOn_refuse (by simp only [act, busAct, hp, hr]))⟩
  | init k =>
    obtain ⟨r, hr⟩ := initEntry_of_not_configOk h
    exact ⟨r, run_refuse (actOn_refuse (by simp only [act, hr]))⟩
  | refuse r k => exact ⟨r, run_refuse rfl⟩

theorem exec_acts_refused {i : Instr} {s : State} {k : List Act} (hc : CanCall s) (h : configOk s.cfg = false)
    (hi : callActs s i = some k) (hk : BeginsChecked k) : ∃ r, exec i s = .refused r := by
  rw [exec_of_callActs hc hi]
  exact run_refused_of_not_configOk (by exact h) hc.2.2 hk

/-- SNIFF writes its phase first; its strobe is then refused. -/
theorem exec_sniff_refused {s : State} (hc : CanCall s) (h : configOk s.cfg = false) :
    ∃ r, exec .sniff s = .refused r := by
  obtain ⟨r, hr⟩ := run_refused_of_not_configOk (s := { returnWith .none s with ses.sess_phase := .sniffing })
    (by exact h) hc.2.2 (((strobeActs_beginsChecked s.cfg .receiveMode).append _).append _)
  exact ⟨r, (exec_of_callActs hc rfl).trans ((run_go rfl).trans hr)⟩

theorem exec_init_refused {s : State} (hc : CanCall s) (h : configOk s.cfg = false) :
    ∃ r, exec .init s = .refused r := by
  obtain ⟨r, hr⟩ := initEntry_of_not_configOk (s := returnWith .none s) h
  exact ⟨r, by simp only [exec, execInit, accept_of_canCall hc, hr]⟩

theorem exec_bare_refused {i : Instr} {s : State} (hc : CanCall s) (h : configOk s.cfg = false)
    (hi : isBareByte i = true) : ∃ r, exec i s = .refused r := by
  obtain ⟨absent, he⟩ := exec_of_bare hi s
  obtain ⟨r, hr⟩ := busEntry_of_not_configOk (s := returnWith .none s) h
  rw [he, sendBare, accept_of_canCall hc, hr]
  cases bareByteOf s.cfg i with
  | none => exact ⟨absent, rfl⟩
  | some b => exact ⟨r, rfl⟩

theorem exec_usesBus_refused {i : Instr} {s : State} (hc : CanCall s) (h : configOk s.cfg = false)
    (hi : usesBus i = true) : ∃ r, exec i s = .refused r := by
  have acts {k : List Act} := exec_acts_refused (i := i) (k := k) hc h
  cases i with
  | exec st => exact acts rfl ((strobeActs_beginsChecked _ st).append _)
  | read r => exact acts rfl ((readActs_beginsChecked _ r).append _)
  | write r b => exact acts rfl ((writeActs_beginsChecked _ r [b]).append _)
  | wburst r bs => exact acts rfl ((writeActs_beginsChecked _ r bs).append _)
  | pfreq m => exact acts rfl ((pfreqActs_beginsChecked _ m).append _)
  | fmtFreq w => exact acts rfl ((freqActs_beginsChecked _ w).append _)
  | fmtS _ | fmtHRead _ | fmtHWrite _ | fmtD _ => exact exec_bare_refused hc h rfl
  | _ => cases hi

/-- Equal masks, or an address that shares a bit with one, break R92. -/
theorem configOk_false_of_clash {c : Config} (h : c.flag_read_burst = c.flag_write_burst ∨
    ∃ a ∈ regAddrs c, a &&& (c.flag_read_burst ||| c.flag_write_burst) ≠ 0) : configOk c = false := by
  suffices hf : flagsOk c = false by rw [configOk, hf, Bool.false_and]
  obtain h | ⟨a, ha, hbit⟩ := h
  · rw [flagsOk, h, bne_self_eq_false, Bool.false_and]
  · rw [flagsOk, List.all_eq_false.2 ⟨a, ha, by simpa using hbit⟩, Bool.and_false]

/-- Settles O18 (R92, D8; log entry 5): each of these calls comes to an entry check before it does anything on the
bus. -/
theorem clashingFlagsAreRefused : Obligations.ClashingFlagsAreRefused := by
  intro i s hc clash hi
  have h := configOk_false_of_clash clash
  obtain hi | rfl | rfl | rfl := hi
  · exact exec_usesBus_refused hc h hi
  · exact exec_init_refused hc h
  · exact exec_acts_refused hc h rfl (.init _)
  · exact exec_sniff_refused hc h

end Sys2Proof.Machine
end

section

namespace Sys2Proof.Machine

/-! ## One transaction at a time -/

/-- No transaction is in flight and select is released (R147). -/
structure BusIdle (s : State) : Prop where
  phase : s.drv.drv_phase = .idle
  sel : s.drv.sel = .released

theorem OneTransaction.busIdle {s : State} (h : OneTransaction s) (hp : s.drv.drv_phase = .idle) : BusIdle s := by
  obtain ⟨-, hsel⟩ := h
  refine ⟨hp, ?_⟩
  cases hv : s.drv.sel with
  | asserted => exact absurd hp (hsel.1 hv)
  | released => rfl

/-- Between transactions it does not matter what is left of the call. -/
theorem BusIdle.oneTransaction {s : State} (h : BusIdle s) : OneTransaction s := by
  obtain ⟨hp, hs⟩ := h
  refine ⟨?_, by simp [hp, hs]⟩
  rw [hp]
  exact inPlace_idle _

/-- BUSDRV is in no transaction but the one the call has come to. -/
theorem OneTransaction.busIdle_off_bus {s : State} (h : OneTransaction s) (hk : ∀ x k, s.host.pend ≠ .bus x :: k) :
    BusIdle s := by
  have place := h.1
  unfold inPlace at place
  split at place
  · rename_i x k hp
    exact absurd hp (hk x k)
  · exact h.busIdle (of_decide_eq_true place)

/-- The phase left alone, and select too or released: so the bus stays idle. -/
theorem BusIdle.of_release {s t : State} (h : BusIdle s) (hp : t.drv.drv_phase = s.drv.drv_phase)
    (hs : t.drv.sel = s.drv.sel ∨ t.drv.sel = .released) : BusIdle t :=
  ⟨hp.trans h.phase, hs.elim (fun e => e.trans h.sel) id⟩

theorem BusIdle.of_act {a : Act} {s s' : State} (h : BusIdle s) (ha : ∀ x, a ≠ .bus x) (hl : (act a s).leaves s') :
    BusIdle s' := by
  obtain ⟨hp, hs⟩ := act_off_bus ha hl
  exact h.of_release hp (hs.imp And.left And.left)

/-- An action of the transaction the call has come to stays in it, or ends it. -/
theorem tick_bus_oneTransaction {x : Txn} {k : List Act} {s t : State} (ho : OneTransaction s)
    (hp : s.host.pend = .bus x :: k) (h : tick s = .next t) : OneTransaction t := by
  obtain ⟨hx, hsel⟩ := ho
  rw [hp] at hx
  obtain ⟨s', ha⟩ := tick_next hp h
  obtain ⟨more, go, again⟩ := busAct_effect (s' := s') hx hsel
  obtain ⟨ha, rfl⟩ | ⟨ha | ha, rfl⟩ | ⟨ha, -⟩ := ha
  · obtain ⟨hi, he⟩ := go ha
    exact BusIdle.oneTransaction ⟨hi, he.sel⟩
  · obtain ⟨hx', hi, he⟩ := more ha
    exact ⟨hx', iff_of_true he.sel hi⟩
  · obtain ⟨hd, -⟩ := again ha
    exact ⟨by simpa [hd] using hx, by simpa [hd] using hsel⟩
  · obtain ⟨r, e, hc, -⟩ := act_ended ha
    cases hc

/-- Any other action finds the bus idle, and leaves it so. -/
theorem tick_off_bus_idle {a : Act} {k : List Act} {s t : State} (hb : BusIdle s) (hp : s.host.pend = a :: k)
    (ha : ∀ x, a ≠ .bus x) (h : tick s = .next t) : BusIdle t := by
  obtain ⟨s', ⟨hs, rfl⟩ | ⟨hs | hs, rfl⟩ | ⟨hs, rfl⟩⟩ := tick_next hp h
  · exact (hb.of_act ha (.inl hs)).of_release rfl (.inl rfl)
  · exact (hb.of_act ha (.inr (.inl hs))).of_release rfl (.inl rfl)
  · exact (hb.of_act ha (.inr (.inr (.inl hs)))).of_release rfl (.inl rfl)
  · exact hb.of_act ha (.inr (.inr (.inr hs)))

theorem tick_oneTransaction {s t : State} (ho : OneTransaction s) (h : tick s = .next t) : OneTransaction t := by
  cases hp : s.host.pend with
  | nil => simp only [tick, hp] at h; cases h; exact ho
  | cons a k =>
    by_cases ha : ∃ x, a = .bus x
    · obtain ⟨x, rfl⟩ := ha
      exact tick_bus_oneTransaction ho hp h
    · have ha : ∀ x, a ≠ .bus x := fun x e => ha ⟨x, e⟩
      have idle : BusIdle s := ho.busIdle_off_bus fun x l e => ha x (List.cons.inj (hp.symm.trans e)).1
      exact (tick_off_bus_idle idle hp ha h).oneTransaction

/-- An instruction of one action leaves the phase alone, and select too, INIT's pulse apart. -/
theorem exec_one_action_bus {i : Instr} {s t : State} (hn : callActs s i = none) (h : exec i s = .next t) :
    t.drv.drv_phase = s.drv.drv_phase ∧ (t.drv.sel = s.drv.sel ∨ t.drv.sel = .released) := by
  obtain ⟨-, h⟩ := exec_next h
  cases h with
  | acts k hk _ => cases hn.symm.trans hk
  | init _ _ h => subst h; rw [initPulse_eq]; exact ⟨rfl, .inr rfl⟩
  | bare b _ _ h => subst h; rw [txByte_eq]; exact ⟨rfl, .inl rfl⟩
  | drive gs h => subst h; rw [driveAll_eq]; exact ⟨rfl, .inl rfl⟩
  | frame p h => subst h; rw [sendFrame_eq]; exact ⟨rfl, .inl rfl⟩
  | cells p h => subst h; rw [sendCells_eq]; exact ⟨rfl, .inl rfl⟩
  | poll h =>
    obtain ⟨d, out, he, -⟩ := pollLine_frame (returnWith .none s)
    subst h; rw [he]; exact ⟨rfl, .inl rfl⟩
  | edge l ts el h =>
    obtain ⟨d, out, he, -⟩ := takeEdge_frame l ts el (returnWith .none s)
    subst h; rw [he]; exact ⟨rfl, .inl rfl⟩
  | lineOn h | lineOff h | arm h | serial v _ h | channel v _ h | raise _ h | verdict b h =>
    subst h; exact ⟨rfl, .inl rfl⟩

/-- A call begins with the bus idle, so that nothing is left of a transaction before it. -/
theorem startCall_oneTransaction {i : Instr} {s t : State} (ho : OneTransaction s) (h : startCall i s = .next t) :
    OneTransaction t := by
  obtain ⟨⟨-, -, hp⟩, h⟩ := startCall_next h
  have idle := ho.busIdle hp
  obtain ⟨k, -, h⟩ | ⟨hn, h⟩ := h
  · have begun : BusIdle { s with host := { s.host with ret := .none, pend := k } } := idle.of_release rfl (.inl rfl)
    exact tick_oneTransaction begun.oneTransaction h
  · obtain ⟨phase, sel⟩ := exec_one_action_bus hn h
    exact (idle.of_release phase sel).oneTransaction

theorem step_oneTransaction {s t : State} (ho : OneTransaction s) (h : step s = .next t) : OneTransaction t := by
  obtain ⟨-, ⟨-, -, rfl⟩ | ⟨-, h⟩ | ⟨hp, i, rest, -, h⟩⟩ := step_next h
  · exact ho
  · exact tick_oneTransaction ho h
  · exact startCall_oneTransaction (by exact ho) h

/-- Settles O52 (R69, R147, R301): by the kinds of step; with no call left BUSDRV is in no transaction. -/
theorem oneTransactionAtATime : Obligations.OneTransactionAtATime := by
  intro s t ho h
  have after := step_oneTransaction ho h
  refine ⟨after, fun hp => ?_⟩
  obtain ⟨phase, sel⟩ := after.busIdle_off_bus (by simp [hp])
  exact ⟨phase, sel⟩

end Sys2Proof.Machine
end

section

namespace Sys2Proof.Machine

/-! ## INIT, and when a call is accepted -/

/-- Settles O6 (R130, D33; log entries 7, 15), by what INIT's pulse does. -/
theorem initPulsesTheChip : Obligations.InitPulsesTheChip := by
  intro s hc hi hk
  have he : initEntry (returnWith .none s) = none := initEntry_eq_none.2 ⟨hi, hk⟩
  rw [exec, execInit, accept_of_canCall hc]
  simp only [he, initPulse_eq]
  rfl

/-- Settles O20 (R147, R271, R301; log entry 11): every instruction asks first whether it is accepted. -/
theorem noCallWhileOneIsInFlight : Obligations.NoCallWhileOneIsInFlight := by
  intro i s hh
  obtain ⟨f, hf⟩ := exec_accept i s
  rw [hf]
  exact ⟨fun hb => accept_busy hh hb f, fun hi hp hd => accept_mid hi hp hd f⟩

/-! ## Calls of one transaction -/

/-- The return ends a call. -/
theorem run_finish (s : State) :
    run [.finish] s = .next { s with host := { s.host with ret := .success, pend := [] } } := rfl

theorem run_answer (s : State) :
    run [.answer] s = .next { s with host := { s.host with ret := .byte s.drv.sh_in, pend := [] } } := rfl

/-- Where a call was accepted nothing was in flight, and nothing is when it returned. -/
theorem CanCall.returned {s : State} (hc : CanCall s) (r : Ret) :
    { s.host with ret := r, pend := [] } = { s.host with ret := r } := by
  obtain ⟨-, hp, -⟩ := hc
  rw [← hp]

/-- A call that begins with a transaction is stuck in its first wait. -/
theorem exec_stuck {i : Instr} {s : State} {x : Txn} {l k : List Act} (hc : CanCall s) (hu : BusUsable s)
    (hi : callActs s i = some (l ++ k)) (hl : l = [.bus x]) (hr : rdyAhead s 0 = .high) :
    ∃ t, exec i s = .next t ∧ StuckIn .wait1 t ∧ BusFrame s t ∧ t.ghost.bus_log = s.ghost.bus_log ++ [.selOn] := by
  subst hl
  rw [exec_of_callActs hc hi]
  exact ⟨_, run_stuck (s := returnWith .none s) x hu hr k, ⟨rfl, rfl, List.cons_ne_nil _ _, rfl⟩,
    by simp [BusFrame], rfl⟩

theorem strobeActs_of_mem {c : Config} {st : Strobe} {b : Byte} (h : strobeByte c st = some b) :
    strobeActs c st = [.bus (.strobe b)] := by simp only [strobeActs, h]

theorem readHeader_of_mem {c : Config} {r : Reg} {a : Byte} (h : regAddr c r = some a) :
    readHeader c r = some (a ||| c.flag_read_burst) := by simp only [readHeader, h]

theorem writeHeader_of_mem {c : Config} {r : Reg} {a : Byte} (h : regAddr c r = some a) :
    writeHeader c r = some (a ||| c.flag_write_burst) := by simp only [writeHeader, h]

theorem readActs_of_mem {c : Config} {r : Reg} {a : Byte} (h : regAddr c r = some a) :
    readActs c r = [.bus (.read (a ||| c.flag_read_burst))] := by simp only [readActs, readHeader_of_mem h]

theorem writeActs_of_mem {c : Config} {r : Reg} {a : Byte} (h : regAddr c r = some a) (bs : List Byte) :
    writeActs c r bs = [.bus (.write (a ||| c.flag_write_burst) bs)] := by
  simp only [writeActs, writeHeader_of_mem h]

/-- Settles O7 (R91, R95, R134; log entries 15, 31, 34): the strobe transaction and the return, or stuck in a wait. -/
theorem execRunsAStrobeTransaction : Obligations.ExecRunsAStrobeTransaction := by
  intro st b s hc hu hb
  refine ⟨fun hr => ?_, exec_stuck hc hu rfl (strobeActs_of_mem hb), fun h0 h1 => ?_⟩ <;>
    rw [exec_of_callActs hc rfl, execActs]
  · rw [run_strobe hb (by exact hu) (by exact hr), run_finish]
    simp only [← hc.returned]
    rfl
  · rw [strobeActs_of_mem hb]
    exact ⟨_, run_stuck2 (s := returnWith .none s) b hu h0 h1 [.finish], ⟨rfl, rfl, List.cons_ne_nil _ _, rfl⟩,
      by simp [BusFrame, Busdrv.shifted], rfl⟩

/-- Settles O8 (R92, R95, R136, D9; log entries 15, 31, 34): the read transaction, and `sh_in` returned. -/
theorem readReturnsTheChipsByte : Obligations.ReadReturnsTheChipsByte := by
  intro r a s hc hu hr
  refine ⟨fun h0 => ?_, exec_stuck hc hu rfl (readActs_of_mem hr)⟩
  rw [exec_of_callActs hc rfl, readCallActs, run_read (readHeader_of_mem hr) (by exact hu) (by exact h0), run_answer]
  simp only [← hc.returned]
  rfl

/-- After a write of one byte, the shifter's registers included. -/
def wroteByte (h b : Byte) (s : State) : State :=
  { s with
    drv := { s.drv.shifted b (sdiAhead s 1) with sel := .released, drv_phase := .idle }
    env := { s.env with
      rdy := Feed.after Config.freeRdy 1 s.env.rdy, sdi := Feed.after Config.freeSdi 2 s.env.sdi }
    ghost := { s.ghost with
      bus_log := s.ghost.bus_log ++ writeLog h [b]
      line_log := s.ghost.line_log ++ ([.sel .asserted] ++ byteLines h ++ byteLines b ++ [.sel .released]) } }

theorem run_write_byte {s : State} {r : Reg} {h : Byte} {c : Config} (hh : writeHeader c r = some h)
    (hu : BusUsable s) (hr : rdyAhead s 0 = .low) (b : Byte) (k : List Act) :
    run (writeActs c r [b] ++ k) s = run k (wroteByte h b s) := by
  simp only [writeActs, hh, List.cons_append, List.nil_append]
  refine run_go ?_
  rw [show actBound (.bus (.write h [b])) = 3 + 2 from rfl, actOn_open _ hu hr, actOn_more (act_hdr _ rfl),
    actOn_go (act_data (k := 0) _ rfl)]
  simp [wroteByte, writeLog, opened, closeBus_eq, dataByte, txByte_eq, setPhase, Busdrv.shifted, Txn.firstByte,
    sdiAhead]

/-- Settles O9 (R92, R95, R138; log entries 15, 31, 34): the write of one byte, and the return. -/
theorem writeSendsHeaderAndByte : Obligations.WriteSendsHeaderAndByte := by
  intro r a b s hc hu hr
  refine ⟨fun h0 => ?_, exec_stuck hc hu rfl (writeActs_of_mem hr [b])⟩
  rw [exec_of_callActs hc rfl, writeCallActs, run_write_byte (writeHeader_of_mem hr) (by exact hu) (by exact h0),
    run_finish]
  simp only [← hc.returned]
  rfl

/-- Settles O10 (R96, R140, D11), by what a write of any bytes does; WRITE and WBURST have the same actions. -/
theorem burstSendsHeaderAndBuffer : Obligations.BurstSendsHeaderAndBuffer := by
  intro r a bs s hc hu hr
  refine ⟨fun h0 => ?_, exec_stuck hc hu rfl (writeActs_of_mem hr bs), fun b => rfl⟩
  obtain ⟨o, i, d, run_t⟩ := run_write (s := returnWith .none s) (writeHeader_of_mem hr) hu h0 bs [.finish]
  rw [exec_of_callActs hc rfl, writeCallActs]
  exact ⟨_, run_t.trans (run_finish _), by simp [BusFrame], ⟨rfl, rfl, rfl⟩, rfl, rfl, rfl, rfl, rfl, rfl⟩

end Sys2Proof.Machine
end

section

namespace Sys2Proof.Machine

/-! ## The frequency word over the rationals -/

/-- mhz × 65536 / 26 (R143). -/
def freqProduct (n : Int) (d : Nat) : Rat := (n : Rat) / (d : Rat) * 65536 / 26

/-- The model's quotient of naturals is the product rounded half up. -/
theorem roundHalfUp_eq_floor {n : Int} (hn : 0 ≤ n) {d : Nat} (hd : d ≠ 0) :
    roundHalfUp n.toNat d = ⌊freqProduct n d + 1 / 2⌋.toNat := by
  obtain ⟨n, rfl⟩ := Int.eq_ofNat_of_zero_le hn
  have quotient : freqProduct n d + 1 / 2 = ((131072 * n + 26 * d : Nat) : Rat) / ((52 * d : Nat) : Rat) := by
    have hd : (d : Rat) ≠ 0 := Nat.cast_ne_zero.2 hd
    simp only [freqProduct]
    push_cast
    field_simp
    ring
  rw [quotient, Int.floor_toNat, Nat.floor_div_eq_div]
  rfl

/-- It fits the word exactly if the product plus one half is below 2^24 (R145). -/
theorem roundHalfUp_lt_iff {n : Int} (hn : 0 ≤ n) {d : Nat} (hd : d ≠ 0) :
    roundHalfUp n.toNat d < 2 ^ 24 ↔ freqProduct n d + 1 / 2 < 2 ^ 24 := by
  have hq : 0 ≤ freqProduct n d := by unfold freqProduct; positivity
  rw [roundHalfUp_eq_floor hn hd, Int.floor_toNat, Nat.floor_lt (by positivity)]
  norm_num

theorem freqWord_of_neg {n : Int} (hn : n < 0) {d : Nat} (hd : d ≠ 0) :
    freqWord ⟨n, d⟩ = .error .frequencyOutOfRange := by
  simp only [freqWord, if_neg hd, if_pos hn]

theorem freqWord_of_nonneg {n : Int} (hn : 0 ≤ n) {d : Nat} (hd : d ≠ 0) : freqWord ⟨n, d⟩ =
    if freqProduct n d + 1 / 2 < 2 ^ 24 then .ok (BitVec.ofNat 24 ⌊freqProduct n d + 1 / 2⌋.toNat)
    else .error .frequencyOutOfRange := by
  simp only [freqWord, if_neg hd, if_neg (not_lt.2 hn), FREQ_WORD_BITS, roundHalfUp_lt_iff hn hd,
    ← roundHalfUp_eq_floor hn hd]

theorem freqWord_of_large {n : Int} {d : Nat} (hd : d ≠ 0) (h : 2 ^ 24 ≤ freqProduct n d + 1 / 2) :
    freqWord ⟨n, d⟩ = .error .frequencyOutOfRange := by
  obtain hn | hn := lt_or_ge n 0
  · exact freqWord_of_neg hn hd
  · rw [freqWord_of_nonneg hn hd, if_neg (not_lt.2 h)]

/-- Settles O11 (R143, R145, D6; log entry 18), by the word of a frequency that is not negative. -/
theorem frequencyWordRoundsHalfUp : Obligations.FrequencyWordRoundsHalfUp := fun _ _ hd =>
  ⟨fun hn h => (freqWord_of_nonneg hn hd).trans (if_pos h), freqWord_of_large hd, fun hn => freqWord_of_neg hn hd⟩

/-! ## PFREQ -/

theorem pfreqActs_of_error {m : Mhz} {r : Refusal} (h : freqWord m = .error r) (c : Config) :
    pfreqActs c m = [.refuse r] := by simp only [pfreqActs, h]

theorem pfreqActs_of_ok {m : Mhz} {w : FreqWord} (h : freqWord m = .ok w) (c : Config) :
    pfreqActs c m = freqActs c w := by simp only [pfreqActs, h]

/-- Settles O13 (R145, D6): such a frequency has no word. -/
theorem pfreqOutOfRangeIsRefused : Obligations.PfreqOutOfRangeIsRefused := by
  intro m s hc hd h
  have noWord : freqWord m = .error .frequencyOutOfRange := h.elim (freqWord_of_neg · hd) (freqWord_of_large hd)
  exact exec_of_refuse hc rfl (pfreqActs_of_error noWord s.cfg)

/-- From `s` to `t`, whole transactions left `log` in `bus_log`, and the next one is stuck in its first wait; nothing
moved but the shifter and the lines (R132). -/
structure StuckAfter (log : List BusEvent) (s t : State) : Prop where
  frame : BusFrame s t
  stuck : StuckIn .wait1 t
  log : t.ghost.bus_log = s.ghost.bus_log ++ log ++ [.selOn]

/-- A write that finds RDY HIGH is stuck at once. -/
theorem run_write_stuck {s : State} {r : Reg} {h : Byte} {c : Config} (hh : writeHeader c r = some h)
    (hu : BusUsable s) (hn : s.host.ret = .none) (hr : rdyAhead s 0 = .high) (bs : List Byte) (k : List Act) :
    ∃ t, run (writeActs c r bs ++ k) s = .next t ∧ StuckAfter [] s t := by
  simp only [writeActs, hh, List.cons_append, List.nil_append]
  exact ⟨_, run_stuck _ hu hr k, by simp [BusFrame], ⟨rfl, rfl, List.cons_ne_nil _ _, hn⟩, by simp⟩

/-- A write of a register with its header: the register, the header, the data bytes. -/
abbrev RegWrite := Reg × Byte × List Byte

/-- The actions of writes one after the other. -/
def writesActs (c : Config) (ws : List RegWrite) : List Act := ws.flatMap fun w => writeActs c w.1 w.2.2

/-- What each of them leaves in `bus_log`. -/
def writesLogs (ws : List RegWrite) : List (List BusEvent) := ws.map fun w => writeLog w.2.1 w.2.2

/-- Writes one after the other are stuck at the first that finds RDY HIGH, those before it complete. -/
theorem run_writes_stuck {c : Config} {k : List Act} {ws : List RegWrite} {j : Nat} {s : State}
    (hw : ∀ w ∈ ws, writeHeader c w.1 = some w.2.1) (hj : j < ws.length) (hu : BusUsable s)
    (hn : s.host.ret = .none) (hr : ReadyFor j s) (hh : rdyAhead s j = .high) :
    ∃ t, run (writesActs c ws ++ k) s = .next t ∧ StuckAfter ((writesLogs ws).take j).flatten s t := by
  induction ws generalizing j s with
  | nil => exact absurd hj (Nat.not_lt_zero j)
  | cons w ws ih =>
    obtain ⟨head, tail⟩ := List.forall_mem_cons.1 hw
    rw [writesActs, List.flatMap_cons, List.append_assoc]
    cases j with
    | zero => exact run_write_stuck head hu hn hh w.2.2 _
    | succ j =>
      obtain ⟨u, run_u, wrote⟩ := run_write_wrote head hu hr.head w.2.2 (writesActs c ws ++ k)
      have ahead (n : Nat) : rdyAhead u n = rdyAhead s (n + 1) := by rw [wrote.rdyAhead_eq, Nat.add_comm]
      obtain ⟨t, run_t, frame, stuck, log⟩ := ih tail (Nat.lt_of_succ_lt_succ hj) (wrote.usable hu)
        (wrote.host ▸ hn) (fun n hlt => (ahead n).trans (hr (n + 1) (Nat.succ_lt_succ hlt))) ((ahead j).trans hh)
      refine ⟨t, run_u.trans run_t, wrote.frame.trans frame, stuck, ?_⟩
      rw [log, wrote.log]
      simp [writesLogs]

/-- The three writes of a frequency word, high, middle, low (R97). -/
def freqWrites (c : Config) (w : FreqWord) : List RegWrite :=
  [(.freqHi, c.addr_freq_hi ||| c.flag_write_burst, [freqHigh w]),
    (.freqMid, c.addr_freq_mid ||| c.flag_write_burst, [freqMiddle w]),
    (.freqLo, c.addr_freq_lo ||| c.flag_write_burst, [freqLow w])]

theorem freqActs_eq (c : Config) (w : FreqWord) : freqActs c w = writesActs c (freqWrites c w) := by
  simp [freqActs, writesActs, freqWrites]

theorem freqWrites_header (c : Config) (w : FreqWord) : ∀ x ∈ freqWrites c w, writeHeader c x.1 = some x.2.1 := by
  simp [freqWrites, writeHeader, regAddr]

theorem freqLog_eq (c : Config) (w : FreqWord) : freqLog c w = (writesLogs (freqWrites c w)).flatten := by
  simp [freqLog, writesLogs, freqWrites]

/-- Settles O12 (R97, R144): the three writes, complete or stuck at the first that finds RDY HIGH. -/
theorem pfreqWritesHighMiddleLow : Obligations.PfreqWritesHighMiddleLow := by
  intro m w s hc hu hw
  have he : exec (.pfreq m) s = run (freqActs s.cfg w ++ [.finish]) (returnWith .none s) := by
    rw [exec_of_callActs hc rfl, pfreqCallActs, pfreqActs_of_ok hw]
  refine ⟨fun hr => ?_, fun j hj hr hh => ?_⟩ <;> rw [he]
  · obtain ⟨t, run_t, wrote⟩ := run_freq_wrote (s := returnWith .none s) w hu hr s.cfg [.finish]
    refine ⟨_, run_t.trans (run_finish t), wrote.frame, ⟨wrote.sel, wrote.phase, rfl⟩, ?_, rfl⟩
    exact wrote.log.trans (congrArg _ (freqLog_eq s.cfg w))
  · obtain ⟨t, run_t, frame, stuck, log⟩ := run_writes_stuck (s := returnWith .none s) (k := [.finish])
      (freqWrites_header s.cfg w) hj hu rfl hr hh
    exact ⟨t, freqActs_eq s.cfg w ▸ run_t, frame, stuck, log⟩

end Sys2Proof.Machine
end

section

namespace Sys2Proof.Machine

/-! ## The ready waits, as steps -/

/-- After the first wait of a transaction, met. -/
def metWait1 (s : State) : State :=
  { s with
    drv := { s.drv with drv_phase := .hdr }
    ghost := { s.ghost with bus_log := s.ghost.bus_log ++ [.rdy] }
    env := { s.env with rdy := Feed.after Config.freeRdy 1 s.env.rdy } }

/-- After the second wait of a strobe, met, with `k` left of the call: select is released with it. -/
def metWait2 (k : List Act) (s : State) : State :=
  { s with
    drv := { s.drv with sel := .released, drv_phase := .idle }
    ghost := { s.ghost with
      bus_log := s.ghost.bus_log ++ [.rdy, .selOff], line_log := s.ghost.line_log ++ [.sel .released] }
    env := { s.env with rdy := Feed.after Config.freeRdy 1 s.env.rdy }
    host := { s.host with pend := k } }

section

variable {x : Txn} {k : List Act} {s : State} (hn : s.ses.sess_phase ≠ .halted)
include hn

/-- A wait that finds RDY HIGH holds. -/
theorem step_wait_high (hp : s.host.pend = .bus x :: k) (hd : s.drv.drv_phase = .wait1 ∨ s.drv.drv_phase = .wait2)
    (hr : rdyAhead s 0 = .high) :
    step s = .next { s with env := { s.env with rdy := Feed.after Config.freeRdy 1 s.env.rdy } } := by
  simp only [step_pend hn hp, tick, hp, act_wait_high x hd hr]
  rw [← hp]

theorem step_wait1_low (hp : s.host.pend = .bus x :: k) (hd : s.drv.drv_phase = .wait1) (hr : rdyAhead s 0 = .low) :
    step s = .next (metWait1 s) := by
  rw [step_more hn hp (act_wait1_low x hd hr), ← hp]
  rfl

theorem step_wait2_low (hp : s.host.pend = .bus x :: k) (hd : s.drv.drv_phase = .wait2) (hr : rdyAhead s 0 = .low) :
    step s = .next (metWait2 k s) :=
  step_go hn hp (act_wait2_low x hd hr)

/-- A strobe's byte. -/
theorem step_strobe_byte {b : Byte} (hp : s.host.pend = .bus (.strobe b) :: k) (hd : s.drv.drv_phase = .hdr) :
    step s = .next (setPhase .wait2 (byteDone b (.tx b) s)) := by
  have h : act (.bus (.strobe b)) s = .more (setPhase .wait2 (byteDone b (.tx b) s)) := by
    rw [act_hdr _ hd, txByte_eq_byteDone]; rfl
  rw [step_more hn hp h, ← hp]
  rfl

/-- A met second wait, and then the return. -/
theorem steps_wait2_finish (hp : s.host.pend = [.bus x, .finish]) (hd : s.drv.drv_phase = .wait2)
    (hr : rdyAhead s 0 = .low) :
    ∃ t, steps 2 s = .next t ∧ BusFrame s t ∧ BusReleased t ∧ t.host.ret = .success ∧
      t.ghost.bus_log = s.ghost.bus_log ++ [.rdy, .selOff] := by
  have finish : step (metWait2 [.finish] s) = .next (returnWith .success (metWait2 [] s)) :=
    step_go (s := metWait2 [.finish] s) hn rfl rfl
  refine ⟨returnWith .success (metWait2 [] s), ?_, by simp [BusFrame, metWait2], ⟨rfl, rfl, rfl⟩, rfl, rfl⟩
  rw [steps_next (step_wait2_low hn hp hd hr), steps_one, finish]

/-- A strobe from its first wait on: the byte, and the second wait. -/
theorem steps_strobe_wait1_finish {b : Byte} (hp : s.host.pend = [.bus (.strobe b), .finish])
    (hd : s.drv.drv_phase = .wait1) (hr : ReadyFor 2 s) :
    ∃ t, steps 4 s = .next t ∧ BusFrame s t ∧ BusReleased t ∧ t.host.ret = .success ∧
      t.ghost.bus_log = s.ghost.bus_log ++ [.rdy, .tx b, .rdy, .selOff] := by
  have byte := step_strobe_byte (s := metWait1 s) (b := b) hn hp rfl
  have ready : rdyAhead (metWait1 s) 0 = .low := by rw [← hr 1 (by omega)]; exact Feed.ahead_after _ 1 s.env.rdy 0
  obtain ⟨t, steps_t, frame, released, ret, log⟩ :=
    steps_wait2_finish (s := setPhase .wait2 (byteDone b (.tx b) (metWait1 s))) hn hp rfl ready
  refine ⟨t, ?_, frame, released, ret, ?_⟩
  · rw [steps_next (step_wait1_low hn hp hd hr.head), steps_next byte, steps_t]
  · rw [log]
    simp [byteDone, metWait1]

end

/-- Settles O21 (R132, R302, R303; log entries 8, 13, 32, 35), by what a step in each wait does. -/
theorem readyWaitHoldsWhileHigh : Obligations.ReadyWaitHoldsWhileHigh := by
  intro s x k hn hp
  refine ⟨step_wait_high hn hp, step_wait1_low hn hp, step_wait2_low hn hp, ?_, ?_⟩
  · rintro b rfl rfl
    exact steps_strobe_wait1_finish hn hp
  · rintro rfl
    exact steps_wait2_finish hn hp

end Sys2Proof.Machine
end

section

namespace Sys2Proof

/-! ## The decoder's answers -/

/-- Whatever item the decoder of an item answers has the property. -/
def Parsed.Answers {α : Type} (P : α → Prop) (r : Parsed α) : Prop := ∀ a bs, r = .ok (a, bs) → P a

namespace Parsed.Answers

variable {α β : Type} {P : β → Prop} {Q : α → Prop} {r : Parsed α} {f : α → List Byte → Parsed β}

theorem ok {b : β} {bs : List Byte} (h : P b) : Parsed.Answers P (.ok (b, bs)) := by
  intro b' bs' e
  cases e
  exact h

theorem error {e : DecodeError} : Parsed.Answers P (.error e) := nofun

/-- What goes on with an item may use what holds of it. -/
theorem andThen (hr : r.Answers Q) (hf : ∀ a bs, Q a → (f a bs).Answers P) : (r.andThen f).Answers P := by
  intro b bs h
  obtain ⟨a, bs', ha, hb⟩ := andThen_ok h
  exact hf a bs' (hr a bs' ha) b bs hb

/-- Where nothing need be known of the item. -/
theorem after (hf : ∀ a bs, (f a bs).Answers P) : (r.andThen f).Answers P :=
  andThen (Q := fun _ => True) (fun _ _ _ => trivial) fun a bs _ => hf a bs

end Parsed.Answers

/-- A duration read is one PULSE may have (R171). -/
theorem takeDuration_answers (bs : List Byte) : (takeDuration bs).Answers fun d => 1 ≤ d := by
  refine .after fun d bs => ?_
  split
  · exact .error
  · exact .ok (Nat.one_le_iff_ne_zero.2 ‹d ≠ 0›)

/-- A frequency read is a rational (R143). -/
theorem takeMhz_answers (bs : List Byte) : (takeMhz bs).Answers fun m => m.wellFormed = true := by
  refine .after fun n bs => .after fun d bs => ?_
  split
  · exact .error
  · exact .ok (bne_iff_ne.2 ‹d ≠ 0›)

/-- The operands read make a well-formed instruction: PULSE's duration and PFREQ's frequency are the only ones with
a check. -/
theorem decodeOperands_answers (op : Op) (bs : List Byte) :
    (decodeOperands op bs).Answers fun i => i.wellFormed = true := by
  cases op with
  | pulse => exact .after fun l bs => .andThen (takeDuration_answers bs) fun d bs hd => .ok (decide_eq_true hd)
  | pfreq => exact .andThen (takeMhz_answers bs) fun m bs hm => .ok hm
  | init | txen | txdis | decreset | poll | sniff | startup | up | down | stop => exact .ok rfl
  | codeUpPress | codeUpRelease | codeDownPress | codeDownRelease | codeStop => exact .ok rfl
  | symHeader | symStart | symBit1 | symBit0 => exact .ok rfl
  | exec | read | txframe | txburst | setser | setch => exact .after fun _ _ => .ok rfl
  | fmtS | fmtHRead | fmtHWrite | fmtD | fmtFreq => exact .after fun _ _ => .ok rfl
  | winStartH | winStartL | winLong | winShort => exact .after fun _ _ => .ok rfl
  | write | wburst | send => exact .after fun _ _ => .after fun _ _ => .ok rfl
  | edge | fmtPacket => exact .after fun _ _ => .after fun _ _ => .after fun _ _ => .ok rfl

/-- Settles O5 (R143, R171; log entries 2, 17): the first byte tells the row or is refused, and the row's operands
make a well-formed instruction. -/
theorem decodedCallsAreWellFormed : Obligations.DecodedCallsAreWellFormed := by
  intro bs rest i h
  have answers : (decode bs).Answers fun i => i.wellFormed = true := by
    refine .after fun b bs => ?_
    cases Op.ofCode b with
    | some op => exact decodeOperands_answers op bs
    | none => exact .error
  exact answers i rest h

end Sys2Proof
end

section

namespace Sys2Proof.Machine

/-! ## PULSE, frames and bursts on the line -/

/-- Settles O22 (R171, D34; log entry 17): a pulse is one segment on a driven line. -/
theorem pulseHoldsTheLine : Obligations.PulseHoldsTheLine := by
  intro lvl d s hc hd
  rw [exec, execPulse, accept_of_canCall hc, if_neg (by omega)]
  exact ⟨fun hm => onDrivenLine_driven (by exact hm), fun hm => onDrivenLine_hiz (by exact hm)⟩

/-- Settles O24 (R101, R171, R173; log entry 17), by what driving a frame does. -/
theorem txframeDrivesTheFrame : Obligations.TxframeDrivesTheFrame := by
  intro p s hc
  have he : exec (.txframe p) s = onDrivenLine (sendFrame p) (returnWith .none s) := accept_of_canCall hc _
  rw [he]
  refine ⟨fun hm => ?_, fun hm => onDrivenLine_hiz (by exact hm)⟩
  rw [onDrivenLine_driven (by exact hm), sendFrame_eq]
  rfl

/-- Settles O25 (R25, R102, R175; log entries 16, 17): the burst and the return, or a refusal at its first frame. -/
theorem txburstDrivesFiveFrames : Obligations.TxburstDrivesFiveFrames := by
  intro p s hc
  have he : exec (.txburst p) s = run (burstActs p ++ [.finish]) (returnWith .none s) := accept_of_canCall hc _
  have frames : framesOf 5 p = frame p ++ frame p ++ frame p ++ frame p ++ frame p := by
    simp [framesOf, List.replicate]
  rw [he]
  refine ⟨fun hm => ?_, fun hm => run_burst_hiz (by exact hm) p _⟩
  rw [run_burst (by exact hm), run_finish, frames, ← hc.returned .success]
  rfl

/-- Settles O26 (R170, R177, D22): each is accepted, does its body and returns. -/
theorem lineTurnsOnLowAndOffToZ : Obligations.LineTurnsOnLowAndOffToZ := by
  intro s hc
  refine ⟨?_, ?_, rfl, rfl⟩
  · rw [exec, execTxen, accept_of_canCall hc]
    rfl
  · rw [exec, execTxdis, accept_of_canCall hc]
    rfl

/-! ## The edges of a frame -/

/-- The first cell's rising edge ends the LOW before it. -/
theorem lineEdges_cells_first (p : Packet) (prev now : Nat) :
    (lineEdges .low prev now ((packetBits p).flatMap bitCell))[0]? = some ⟨.high, now, now - prev⟩ := by
  have first := lineEdges_cells (packetBits p) prev now []
  cases hb : packetBits p with
  | nil => exact absurd (length_packetBits p) (by simp [hb])
  | cons b bits =>
    rw [hb, List.append_nil] at first
    rw [first, List.getElem?_cons_zero]

/-- Settles O29 (R174): two edges of the header and the start marker, and after them a pair for each bit. -/
theorem frameHasItsEdges : Obligations.FrameHasItsEdges := by
  intro p t0
  refine ⟨length_lineEdges_frame p t0 t0, ?_⟩
  rw [lineEdges_frame_alone]
  refine ⟨?_, rfl, ?_, fun k hk => ?_⟩
  · rw [List.getElem?_cons_zero, Nat.add_sub_cancel_left]
  · have first := lineEdges_cells_first p (t0 + 13554) (t0 + 15020)
    rwa [Nat.add_sub_add_left] at first
  · have cell := lineEdges_cells_get (packetBits p) (t0 + 13554) (t0 + 15020) k [] _ (packetBits_get p k hk)
    rw [List.append_nil] at cell
    rw [Nat.add_comm 2, show 3 + 2 * k = 2 * k + 1 + 2 by omega]
    exact cell

end Sys2Proof.Machine
end

section

namespace Sys2Proof.Machine

/-! ## Whole frames and time -/

/-- No frame is half driven, and time has gone on from `n` past the edge detector's last time. -/
structure WholeSince (n : Nat) (t : State) : Prop where
  enc : EncoderAtRest t.enc
  ordered : TimeOrdered t
  since : n ≤ t.env.now

/-- Kept where the encoder stays at rest, NOW does not go back, and the edge detector's last time is left or is NOW. -/
theorem WholeSince.goesOn {n : Nat} {s t : State} (h : WholeSince n s) (he : EncoderAtRest s.enc → EncoderAtRest t.enc)
    (hn : s.env.now ≤ t.env.now) (hp : t.dec.prev_ts = s.dec.prev_ts ∨ t.dec.prev_ts = t.env.now) : WholeSince n t where
  enc := he h.enc
  ordered := by
    obtain hp | hp := hp
    · exact hp.trans_le (h.ordered.trans hn)
    · exact hp.le
  since := h.since.trans hn

/-- Kept where the encoder's sequencers, NOW and the edge detector's last time are left alone. -/
theorem WholeSince.same {n : Nat} {s t : State} (h : WholeSince n s) (hi : t.enc.seg_idx = s.enc.seg_idx)
    (hr : t.enc.rep_cnt = s.enc.rep_cnt) (hn : t.env.now = s.env.now) (hp : t.dec.prev_ts = s.dec.prev_ts) :
    WholeSince n t :=
  h.goesOn (fun he => ⟨hi.trans he.1, hr.trans_le he.2⟩) hn.ge (.inl hp)

/-- Every frame ends within the action that begins it, `rep_cnt` is counted below REPEAT only, and the edge detector
takes its time from NOW. -/
theorem wholeSince_kept (n : Nat) : StepKeeps (WholeSince n) where
  select s _ h := h.same rfl rfl rfl rfl
  rdy s h := h.same rfl rfl rfl rfl
  met s h := h.same rfl rfl rfl rfl
  place p s h := h.same rfl rfl rfl rfl
  tx b s h := by rw [txByte_eq]; exact h.same rfl rfl rfl rfl
  rx s h := by rw [rxByte_eq]; exact h.same rfl rfl rfl rfl
  close s h := h.same rfl rfl rfl rfl
  init s _ h := by
    rw [initPulse_eq]
    exact h.goesOn id ((Nat.le_add_right _ _).trans (Nat.le_add_right _ _)) (.inl rfl)
  raise c s h := h.same rfl rfl rfl rfl
  radio m s h := h.same rfl rfl rfl rfl
  phase p s h := h.same rfl rfl rfl rfl
  lineOn s h := h.same rfl rfl rfl rfl
  lineOff s h := h.same rfl rfl rfl rfl
  burst s h := h.goesOn (fun he => ⟨he.1, Nat.zero_le _⟩) le_rfl (.inl rfl)
  frame p s hr h := by
    rw [burstFrame_eq]
    exact h.goesOn (fun _ => ⟨rfl, hr⟩) (Nat.le_add_right _ _) (.inl rfl)
  arm s h := h.goesOn id (Nat.le_add_right _ _) (.inr rfl)
  cancel s h := h.same rfl rfl rfl rfl
  poll s h := by
    obtain ⟨d, out, he, -, hp⟩ := pollLine_frame s
    rw [he]
    exact h.goesOn id (Nat.le_add_right _ _) hp
  ret r s h := h.same rfl rfl rfl rfl
  pend k s h := h.same rfl rfl rfl rfl
  calls c s h := h.same rfl rfl rfl rfl
  drive g s h := h.goesOn id (Nat.le_add_right _ _) (.inl rfl)
  txframe p s h := by
    rw [sendFrame_eq]
    exact h.goesOn (fun he => ⟨rfl, he.2⟩) (Nat.le_add_right _ _) (.inl rfl)
  cells p s h := by
    rw [sendCells_eq]
    exact h.goesOn (fun he => ⟨rfl, he.2⟩) (Nat.le_add_right _ _) (.inl rfl)
  edge l ts el s h := by
    obtain ⟨d, out, he, -, -, hp, -⟩ := takeEdge_frame l ts el s
    rw [he]
    exact h.same rfl rfl rfl hp
  serial v s h := h.same rfl rfl rfl rfl
  channel v s h := h.same rfl rfl rfl rfl

/-- Settles O56 (R179, R193, R272; log entry 8): a step keeps what every action and every direct effect keeps. -/
theorem framesAreWholeAndTimeIsMonotonic : Obligations.FramesAreWholeAndTimeIsMonotonic := by
  intro s t he ho h
  obtain ⟨enc, ordered, since⟩ := (wholeSince_kept s.env.now).of_step ⟨he, ho, le_rfl⟩ h
  exact ⟨enc, ordered, since⟩

end Sys2Proof.Machine
end

section

namespace Sys2Proof.Machine

/-! ## The transition function, arm by arm (R194) -/

section
variable {ts el : Nat} {s : State}

/-- R195. -/
theorem transition_invalid_high (h : s.dec.dstate = .invalid) : transition .high ts el s = setDState .startH s := by
  simp only [transition, h]

/-- R195. -/
theorem transition_invalid_low (h : s.dec.dstate = .invalid) : transition .low ts el s = s := by
  simp only [transition, h]

/-- R196. -/
theorem transition_startH_low (h : s.dec.dstate = .startH) :
    transition .low ts el s = setDState (if 4159 ≤ el ∧ el ≤ 5357 then .startL else .invalid) s := by
  simp only [transition, h, inStartH_iff, apply_ite (setDState · s)]

/-- R198, R200. -/
theorem transition_startL_high (h : s.dec.dstate = .startL) :
    transition .high ts el s = if 1107 ≤ el ∧ el ≤ 1825 then enterBit0 ts s else setDState .invalid s := by
  simp only [transition, h, inStartL_iff]

/-- R203. -/
theorem transition_bitH_low {i : Fin 40} (h : s.dec.dstate = .bitH i) : transition .low ts el s = classify i el s := by
  simp only [transition, h]

/-- R205. -/
theorem transition_bitL_high {i : Fin 40} (h : s.dec.dstate = .bitL i) :
    transition .high ts el s = complement i el s := by
  simp only [transition, h]

/-- The arms that R194's table marks (R208). -/
theorem transition_marked {l : Level}
    (h : (l = .high ∧ (s.dec.dstate = .startH ∨ ∃ i, s.dec.dstate = .bitH i)) ∨
      (l = .low ∧ (s.dec.dstate = .startL ∨ ∃ i, s.dec.dstate = .bitL i))) :
    transition l ts el s = setDState .invalid s := by
  obtain ⟨rfl, hd | ⟨i, hd⟩⟩ | ⟨rfl, hd | ⟨i, hd⟩⟩ := h <;> simp only [transition, hd]

end

/-! ## One bit -/

theorem shiftIn_true (a : Packet) : shiftIn a true = a <<< 1 ||| 1 := rfl

theorem shiftIn_false (a : Packet) : shiftIn a false = a <<< 1 := BitVec.or_zero

theorem inComplement_iff (b : Bool) (el : Nat) :
    inComplement b el = true ↔ if b then 247 ≤ el ∧ el ≤ 485 else 614 ≤ el ∧ el ≤ 852 := by
  cases b
  · exact inLong_iff el
  · exact inShort_iff el

section
variable {ts el : Nat} {s : State} {i : Fin 40}

/-- The low half fits, and there is a next bit (R205). -/
theorem transition_bitL_next (hd : s.dec.dstate = .bitL i) (hf : inComplement (s.dec.acc.getLsbD 0) el = true)
    (hi : i.val < 39) : transition .high ts el s = setDState (.bitH ⟨i.val + 1, by omega⟩) s := by
  rw [transition_bitL_high hd, complement, if_pos hf, dif_pos hi]

/-- The low half of the last bit fits: the packet is complete (R207, D16). -/
theorem transition_bitL_last (hd : s.dec.dstate = .bitL i) (hf : inComplement (s.dec.acc.getLsbD 0) el = true)
    (hi : ¬ i.val < 39) : transition .high ts el s = setDState .invalid (emit s) := by
  rw [transition_bitL_high hd, complement, if_pos hf, dif_neg hi]

/-- The low half does not fit (R205). -/
theorem transition_bitL_mismatch (hd : s.dec.dstate = .bitL i)
    (hf : ¬ inComplement (s.dec.acc.getLsbD 0) el = true) : transition .high ts el s = setDState .invalid s := by
  rw [transition_bitL_high hd, complement, if_neg hf]

end

/-! ## The operations of the detector -/

/-- Settles O31 (R191, D17; log entries 12, 29): DECRESET is accepted, arms the decoder and returns. -/
theorem decresetArmsTheDetector : Obligations.DecresetArmsTheDetector := by
  intro s hc
  rw [exec, execDecreset, accept_of_canCall hc]
  simp only [arm, drawRx_eq]
  rfl

/-- The state after one sample of the line was taken (R192, R272). -/
def sampled (s : State) : State :=
  { s with env := { s.env with
      rx := Feed.after Config.freeRx 1 s.env.rx, now := s.env.now + (rxNext s).dt } }

theorem pollLine_same {s : State} (h : (rxNext s).lvl = s.dec.prev_level) : pollLine s = sampled s := by
  simp only [pollLine, drawRx_eq]
  exact if_neg (not_not.2 h)

theorem pollLine_change {s : State} (h : (rxNext s).lvl ≠ s.dec.prev_level) :
    pollLine s = takeEdge (rxNext s).lvl (sampled s).env.now ((sampled s).env.now - s.dec.prev_ts)
      { sampled s with
        dec := { s.dec with prev_level := (rxNext s).lvl, prev_ts := (sampled s).env.now } } := by
  simp only [pollLine, drawRx_eq]
  exact if_pos h

/-- A POLL that is accepted samples the line and returns. -/
theorem exec_poll {s : State} (hc : CanCall s) :
    exec .poll s = .next (returnWith .success (pollLine (returnWith .none s))) := by
  rw [exec, execPoll, accept_of_canCall hc]

/-- Settles O32 (R192, D35; log entry 12): both calls are accepted, and an event replaces `last_edge` whatever it was. -/
theorem pollRaisesAnEventOnAChange : Obligations.PollRaisesAnEventOnAChange := by
  intro s hc
  refine ⟨fun same => ?_, fun change => ⟨⟨_, exec_poll hc⟩, ?_⟩⟩
  · rw [exec_poll hc, pollLine_same (by exact same)]
    rfl
  · rw [exec_poll hc, pollLine_change (by exact change), exec_edge (by exact hc) (by rfl)]
    rfl

/-- An event may follow one of the other level and of no later time (R193). -/
theorem edgeFollows_some {l l' : Level} {t t' : Nat} : edgeFollows (some (l, t)) l' t' = true ↔ l ≠ l' ∧ t ≤ t' := by
  simp [edgeFollows]

/-- Settles O39 (R193, D15; log entry 12): EDGE asks whether the event may follow, POLL asks nothing. -/
theorem handMadeEventsMustAlternate : Obligations.HandMadeEventsMustAlternate := by
  intro s hc
  refine ⟨fun l ts el l' t hl hbad => ?_, _, exec_poll hc⟩
  have refused : ¬ edgeFollows s.dec.last_edge l ts = true := by
    rw [hl, edgeFollows_some]
    rintro ⟨hne, hle⟩
    exact hbad.elim (fun he => hne he.symm) (fun hlt => hlt.not_ge hle)
  rw [exec, execEdge, accept_of_canCall hc]
  exact if_neg refused

/-! ## An edge event in each decode state -/

/-- Settles O33 (R195, D14; log entries 12, 19), by the two arms of INVALID. -/
theorem invalidArmsOnARisingEdge : Obligations.InvalidArmsOnARisingEdge := by
  intro ts el s hc hd
  refine ⟨fun hf => ?_, fun hf => ?_⟩
  · rw [exec_edge hc hf, takeEdge, transition_invalid_high (by exact hd)]
    rfl
  · rw [exec_edge hc hf, takeEdge, transition_invalid_low (by exact hd)]
    rfl

/-- Settles O34 (R104, R196, D14; log entries 12, 19), by START_H's falling arm and its window. -/
theorem startMarkerHighCheck : Obligations.StartMarkerHighCheck := by
  intro ts el s hc hd hf
  rw [exec_edge hc hf, takeEdge, transition_startH_low (by exact hd)]
  rfl

/-- Settles O35 (R104, R198, R200, D14; log entries 12, 19), by START_L's rising arm and its window. -/
theorem startMarkerLowCheck : Obligations.StartMarkerLowCheck := by
  intro ts el s hc hd hf
  rw [exec_edge hc hf, takeEdge, transition_startL_high (by exact hd)]
  split <;> rfl

/-- Settles O36 (R104, R203; log entry 12), by BIT_H's falling arm and the two windows of a high half. -/
theorem highHalfIsClassified : Obligations.HighHalfIsClassified := by
  intro i ts el s hc hd hf
  rw [exec_edge hc hf, takeEdge, transition_bitH_low (by exact hd)]
  simp only [classify, inLong_iff, inShort_iff, shiftIn_true, shiftIn_false]
  split
  · rfl
  · split <;> rfl

/-- Settles O37 (R104, R205, R207, D16; log entries 12, 19), by what BIT_L's rising arm does in each of the three cases. -/
theorem lowHalfIsTheComplement : Obligations.LowHalfIsTheComplement := by
  intro i ts el s hc hd hf
  have window := inComplement_iff (s.dec.acc.getLsbD 0) el
  rw [exec_edge hc hf, takeEdge]
  refine ⟨fun fits hi => ?_, fun fits hi => ?_, fun misfit => ?_⟩
  · rw [transition_bitL_next (by exact hd) (by exact window.2 fits) hi]
    rfl
  · rw [transition_bitL_last (by exact hd) (by exact window.2 fits) hi.not_lt]
    rfl
  · rw [transition_bitL_mismatch (by exact hd) (by exact mt window.1 misfit)]
    rfl

/-- Settles O38 (R194, R208, D15; log entries 12, 33), by the marked arms. -/
theorem unreachableArmsGoToInvalid : Obligations.UnreachableArmsGoToInvalid := by
  intro l ts el s hc hf h
  rw [exec_edge hc hf, takeEdge, transition_marked (by exact h)]
  rfl

end Sys2Proof.Machine
end

section

namespace Sys2Proof.Machine

/-! ## The accumulator and the bits read -/

/-- A bit shifted in needs one place more, and no place beyond the width (R13). -/
theorem shiftIn_lt {a : Packet} {n : Nat} (b : Bool) (h : a.toNat < 2 ^ n) : (shiftIn a b).toNat < 2 ^ (n + 1) := by
  rw [shiftIn, BitVec.toNat_or]
  refine Nat.or_lt_two_pow ?_ ?_
  · calc (a <<< 1).toNat ≤ a.toNat * 2 := by
          rw [BitVec.toNat_shiftLeft, Nat.shiftLeft_eq, pow_one]
          exact Nat.mod_le _ _
      _ < 2 ^ (n + 1) := by omega
  · calc (BitVec.setWidth 40 (BitVec.ofBool b)).toNat ≤ 1 := by cases b <;> decide
      _ < 2 ^ (n + 1) := Nat.one_lt_two_pow (by omega)

theorem accumulatorBounded_bitH {d : Ookdec} {i : Fin 40} (h : d.dstate = .bitH i) :
    AccumulatorBounded d ↔ d.acc.toNat < 2 ^ i.val := by
  simp only [AccumulatorBounded, h]

theorem accumulatorBounded_bitL {d : Ookdec} {i : Fin 40} (h : d.dstate = .bitL i) :
    AccumulatorBounded d ↔ d.acc.toNat < 2 ^ (i.val + 1) := by
  simp only [AccumulatorBounded, h]

/-- The high half of bit i brings the accumulator one bit. -/
theorem classify_accumulatorBounded (i : Fin 40) (el : Nat) {s : State} (h : s.dec.acc.toNat < 2 ^ i.val) :
    AccumulatorBounded (classify i el s).dec := by
  unfold classify
  split
  · exact shiftIn_lt true h
  · split
    · exact shiftIn_lt false h
    · trivial

/-- The low half of bit i leaves the accumulator alone. -/
theorem transition_bitL_accumulatorBounded {ts el : Nat} {i : Fin 40} {s : State} (hd : s.dec.dstate = .bitL i)
    (h : s.dec.acc.toNat < 2 ^ (i.val + 1)) : AccumulatorBounded (transition .high ts el s).dec := by
  by_cases hf : inComplement (s.dec.acc.getLsbD 0) el = true
  · by_cases hi : i.val < 39
    · rw [transition_bitL_next hd hf hi]
      exact h
    · rw [transition_bitL_last hd hf hi]
      trivial
  · rw [transition_bitL_mismatch hd hf]
    trivial

/-- Every arm keeps the bound (R200, R203, R205). -/
theorem transition_accumulatorBounded (l : Level) (ts el : Nat) {s : State} (h : AccumulatorBounded s.dec) :
    AccumulatorBounded (transition l ts el s).dec := by
  cases hd : s.dec.dstate with
  | invalid =>
    cases l
    case low => rw [transition_invalid_low hd]; exact h
    case high => rw [transition_invalid_high hd]; trivial
  | startH =>
    cases l
    case low => rw [transition_startH_low hd]; split <;> trivial
    case high => rw [transition_marked (.inl ⟨rfl, .inl hd⟩)]; trivial
  | startL =>
    cases l
    case low => rw [transition_marked (.inr ⟨rfl, .inl hd⟩)]; trivial
    case high =>
      rw [transition_startL_high hd]
      split
      · exact Nat.one_pos
      · trivial
  | bitH i =>
    cases l
    case low => rw [transition_bitH_low hd]; exact classify_accumulatorBounded i el ((accumulatorBounded_bitH hd).1 h)
    case high => rw [transition_marked (.inl ⟨rfl, .inr ⟨i, hd⟩⟩)]; trivial
  | bitL i =>
    cases l
    case low => rw [transition_marked (.inr ⟨rfl, .inr ⟨i, hd⟩⟩)]; trivial
    case high => exact transition_bitL_accumulatorBounded hd ((accumulatorBounded_bitL hd).1 h)

theorem pollLine_accumulatorBounded {s : State} (h : AccumulatorBounded s.dec) : AccumulatorBounded (pollLine s).dec := by
  by_cases hl : (rxNext s).lvl = s.dec.prev_level
  · rw [pollLine_same hl]
    exact h
  · rw [pollLine_change hl]
    exact transition_accumulatorBounded _ _ _ h

/-- Beside DECRESET, POLL and EDGE, no action and no direct effect touches the decode state or the accumulator. -/
theorem accumulatorBounded_kept : StepKeeps (fun s => AccumulatorBounded s.dec) where
  select _ _ h := h
  rdy _ h := h
  met _ h := h
  place _ _ h := h
  tx b s h := by rw [txByte_eq]; exact h
  rx s h := by rw [rxByte_eq]; exact h
  close _ h := h
  init s _ h := by rw [initPulse_eq]; exact h
  raise _ _ h := h
  radio _ _ h := h
  phase _ _ h := h
  lineOn _ h := h
  lineOff _ h := h
  burst _ h := h
  frame p s _ h := by rw [burstFrame_eq]; exact h
  arm _ _ := trivial
  cancel _ h := h
  poll _ h := pollLine_accumulatorBounded h
  ret _ _ h := h
  pend _ _ h := h
  calls _ _ h := h
  drive _ _ h := h
  txframe p s h := by rw [sendFrame_eq]; exact h
  cells p s h := by rw [sendCells_eq]; exact h
  edge l ts el _ h := transition_accumulatorBounded l ts el h
  serial _ _ h := h
  channel _ _ h := h

/-- Settles O54 (R13, R26, R203): a step keeps what every action and every direct effect keeps. -/
theorem accumulatorHoldsTheBitsRead : Obligations.AccumulatorHoldsTheBitsRead := fun _ _ hs h =>
  accumulatorBounded_kept.of_step hs h

end Sys2Proof.Machine
end

section

namespace Sys2Proof.Machine

/-! ## A frame read by the decoder (R213) -/

/-- The time of the last falling edge of a frame that begins at `start`. -/
def lastFall (p : Packet) (start : Nat) : Nat := start + 58980 - lowWidth (p.getLsbD 0)

theorem lowWidth_le (b : Bool) : lowWidth b ≤ 733 := by cases b <;> decide

theorem lastFall_le (p : Packet) (start : Nat) : lastFall p start ≤ start + 58980 := Nat.sub_le _ _

/-- The last low half lasts from the last falling edge to the end of the frame. -/
theorem lastFall_add_lowWidth (p : Packet) (start : Nat) :
    lastFall p start + lowWidth (p.getLsbD 0) = start + 58980 :=
  Nat.sub_add_cancel ((lowWidth_le _).trans (by omega))

/-- The decoder after the edges of a frame: the last low half is still open, the packet is in the accumulator. -/
def frameRead (p : Packet) (start : Nat) (s : State) : State :=
  withDecoder s
    { s.dec with
      dstate := .bitL 39, acc := p, rx_ts := start + 15020, last_edge := some (.low, lastFall p start) }
    s.ghost.rx_out

/-- A line that goes HIGH has one event. -/
theorem lineEdges_rise (prev now d : Nat) : lineEdges .low prev now [(.high, d)] = [⟨.high, now, now - prev⟩] := rfl

section
variable {s : State}

/-- From INVALID the edges of a frame are read whatever follows it. -/
theorem takeAll_frame_append (p : Packet) (armed start : Nat) (hc : CanCall s) (hd : s.dec.dstate = .invalid)
    (hl : s.dec.last_edge = none) (rest : List Segment) :
    takeAll (lineEdges .low armed start (frame p ++ rest)) s =
      takeAll (lineEdges .low (lastFall p start) (start + 58980) rest) (frameRead p start s) := by
  rw [lineEdges_frame]
  exact takeAll_frame p _ _ _ _ _ _ (by omega) (by omega) (by omega) (by omega) (lastFall_add_lowWidth p start) s hc
    hd hl rest

/-- EDGE for the first event of a list, and for the others after it. -/
theorem takeAll_of_exec {l : Level} {ts el : Nat} {t : State} (h : exec (.edge l ts el) s = .next t)
    (es : List EdgeEvent) : takeAll (⟨l, ts, el⟩ :: es) s = takeAll es t := by
  rw [takeAll, h]

/-- A rising edge after the last falling edge of a frame may follow it. -/
theorem edgeFollows_frameRead {p : Packet} {start ts : Nat} (h : lastFall p start ≤ ts) :
    edgeFollows (frameRead p start s).dec.last_edge .high ts = true := edgeFollows_some.2 ⟨by decide, h⟩

/-- The low half of a bit fits the complement of the bit. -/
theorem lowWidth_fits (b : Bool) :
    if b then 247 ≤ lowWidth b ∧ lowWidth b ≤ 485 else 614 ≤ lowWidth b ∧ lowWidth b ≤ 852 := by
  cases b <;> decide

theorem not_fits_of_long (b : Bool) {el : Nat} (h : 852 < el) :
    ¬ if b then 247 ≤ el ∧ el ≤ 485 else 614 ≤ el ∧ el ≤ 852 := by
  cases b <;> simp only [if_true, Bool.false_eq_true, if_false] <;> omega

/-- The rising edge at the end of the last low half emits the packet (R207, D16). -/
theorem exec_closing_edge (p : Packet) (start : Nat) (hc : CanCall s) :
    exec (.edge .high (start + 58980) (lowWidth (p.getLsbD 0))) (frameRead p start s) =
      .next (withDecoder s
        { (frameRead p start s).dec with dstate := .invalid, last_edge := some (.high, start + 58980) }
        (s.ghost.rx_out ++ [(p, start + 15020)])) := by
  obtain ⟨-, last, -⟩ := lowHalfIsTheComplement 39 _ (lowWidth (p.getLsbD 0)) (frameRead p start s) (by exact hc) rfl
    (edgeFollows_frameRead (lastFall_le p start))
  exact last (lowWidth_fits _) rfl

end

/-- Settles O42 (R213, D16; log entries 12, 19), by `takeAll_frame_append`: nothing follows the frame, or one rising
edge does. -/
theorem decoderReadsAnEncodedFrame : Obligations.DecoderReadsAnEncodedFrame := by
  intro p armed start s _ hc hd hl
  have read := takeAll_frame_append p armed start hc hd hl
  have span : start + 58980 - lastFall p start = lowWidth (p.getLsbD 0) := by
    rw [← lastFall_add_lowWidth p start, Nat.add_sub_cancel_left]
  constructor
  · have closing := read [(.high, 1)]
    rw [lineEdges_rise, span, takeAll_of_exec (exec_closing_edge p start hc)] at closing
    exact ⟨_, closing, rfl, rfl⟩
  · have alone := read []
    rw [List.append_nil] at alone
    exact ⟨_, alone, rfl, rfl, rfl⟩

/-! ## A frame the decoder does not listen to (R212) -/

/-- The decoder is in INVALID after a falling edge at `prev`; the histories are `g`. -/
structure Disarmed (g : Ghost) (prev : Nat) (s : State) : Prop where
  canCall : CanCall s
  ghost : s.ghost = g
  dstate : s.dec.dstate = .invalid
  last : s.dec.last_edge = some (.low, prev)

/-- A falling edge in INVALID leaves it so. -/
theorem exec_fall_disarmed {u : State} (hc : CanCall u) (hd : u.dec.dstate = .invalid) {t ts : Nat}
    (hl : u.dec.last_edge = some (.high, t)) (ht : t ≤ ts) (el : Nat) :
    ∃ v, exec (.edge .low ts el) u = .next v ∧ Disarmed u.ghost ts v := by
  obtain ⟨-, fall⟩ := invalidArmsOnARisingEdge ts el u hc hd
  exact ⟨_, fall (by rw [hl]; exact edgeFollows_some.2 ⟨by decide, ht⟩), hc, rfl, hd, rfl⟩

theorem highWidth_not_startMarker (b : Bool) : ¬ (4159 ≤ highWidth b ∧ highWidth b ≤ 5357) := by
  cases b <;> decide

namespace Disarmed

variable {g : Ghost} {prev : Nat} {s : State}

/-- A rising edge arms the decoder. -/
theorem exec_rise (h : Disarmed g prev s) {ts : Nat} (ht : prev ≤ ts) (el : Nat) :
    exec (.edge .high ts el) s = .next { s with
      dec := { s.dec with dstate := .startH, last_edge := some (.high, ts) }
      host := { s.host with ret := .success } } := by
  obtain ⟨rise, -⟩ := invalidArmsOnARisingEdge ts el s h.canCall h.dstate
  exact rise (by rw [h.last]; exact edgeFollows_some.2 ⟨by decide, ht⟩)

/-- The high half of a bit cell is no start marker: its falling edge disarms the decoder again. -/
theorem takeAll_cell (h : Disarmed g prev s) {now : Nat} (hn : prev ≤ now) (el : Nat) (b : Bool) :
    ∃ t, Disarmed g (now + highWidth b) t ∧ ∀ es,
      takeAll (⟨.high, now, el⟩ :: ⟨.low, now + highWidth b, highWidth b⟩ :: es) s = takeAll es t := by
  have fall := startMarkerHighCheck (now + highWidth b) (highWidth b)
    { s with
      dec := { s.dec with dstate := .startH, last_edge := some (.high, now) }
      host := { s.host with ret := .success } }
    h.canCall rfl (edgeFollows_some.2 ⟨by decide, Nat.le_add_right _ _⟩)
  simp only [if_neg (highWidth_not_startMarker b)] at fall
  refine ⟨_, ?_, fun es => (takeAll_of_exec (h.exec_rise hn el) _).trans (takeAll_of_exec fall es)⟩
  exact ⟨h.canCall, h.ghost, rfl, rfl⟩

/-- So do all the cells of a packet. -/
theorem takeAll_cells (h : Disarmed g prev s) {now : Nat} (hn : prev ≤ now) (bits : List Bool) (rest : List Segment) :
    ∃ last t, Disarmed g last t ∧ last ≤ now + 1099 * bits.length ∧
      takeAll (lineEdges .low prev now (bits.flatMap bitCell ++ rest)) s =
        takeAll (lineEdges .low last (now + 1099 * bits.length) rest) t := by
  induction bits generalizing s prev now with
  | nil => exact ⟨prev, s, h, hn, rfl⟩
  | cons b bits ih =>
    obtain ⟨t, ht, cell⟩ := h.takeAll_cell hn (now - prev) b
    have inCell : now + highWidth b ≤ now + 1099 := by have := highWidth_add_lowWidth b; omega
    obtain ⟨last, u, hu, hlast, cells⟩ := ih ht inCell
    have hend : now + 1099 + 1099 * bits.length = now + 1099 * (b :: bits).length := by
      rw [List.length_cons]; omega
    rw [hend] at hlast cells
    refine ⟨last, u, hu, hlast, ?_⟩
    rw [lineEdges_cells, cell, cells]

end Disarmed

/-- The first edge of a second frame ends the last check of the first frame in a mismatch: the LOW span at the join is
longer than every window (R102, R104). -/
theorem exec_join_rise (p : Packet) (start : Nat) {s : State} (hc : CanCall s) :
    exec (.edge .high (start + 58980 + 8796) (start + 58980 + 8796 - lastFall p start)) (frameRead p start s) =
      .next (withDecoder s
        { (frameRead p start s).dec with dstate := .invalid, last_edge := some (.high, start + 58980 + 8796) }
        s.ghost.rx_out) := by
  have before : lastFall p start ≤ start + 58980 := lastFall_le p start
  have follows := edgeFollows_frameRead (s := s) (before.trans (Nat.le_add_right _ 8796))
  obtain ⟨-, -, mismatch⟩ := lowHalfIsTheComplement 39 _ (start + 58980 + 8796 - lastFall p start) (frameRead p start s)
    (by exact hc) rfl follows
  exact mismatch (not_fits_of_long _ (by omega))

/-- The two edges before the cells of a second frame leave the decoder disarmed. -/
theorem takeAll_join (p : Packet) (start : Nat) {s : State} (hc : CanCall s) :
    ∃ t, Disarmed s.ghost (start + 58980 + 13554) t ∧ ∀ es,
      takeAll (⟨.high, start + 58980 + 8796, start + 58980 + 8796 - lastFall p start⟩ ::
        ⟨.low, start + 58980 + 13554, 4758⟩ :: es) (frameRead p start s) = takeAll es t := by
  have rise := exec_join_rise p start hc
  obtain ⟨t, fall, ht⟩ := exec_fall_disarmed (u := withDecoder s
    { (frameRead p start s).dec with dstate := .invalid, last_edge := some (.high, start + 58980 + 8796) }
    s.ghost.rx_out) (ts := start + 58980 + 13554) (by exact hc) rfl rfl (by omega) 4758
  exact ⟨t, ht, fun es => (takeAll_of_exec rise _).trans (takeAll_of_exec fall es)⟩

/-- Settles O43 (R212, D16; log entries 12, 19): the second frame is not listened to, and the closing edge arms the
decoder. -/
theorem backToBackFramesAreNotReported : Obligations.BackToBackFramesAreNotReported := by
  intro p q armed start s _ hc hd hl
  obtain ⟨t, ht, join⟩ := takeAll_join p start hc
  obtain ⟨last, u, hu, hlast, cells⟩ := ht.takeAll_cells (now := start + 58980 + 15020) (by omega) (packetBits q)
    [(.high, 1)]
  rw [List.append_assoc, takeAll_frame_append p armed start hc hd hl, lineEdges_frame, join, cells, lineEdges_rise,
    takeAll_of_exec (hu.exec_rise hlast _)]
  exact ⟨_, rfl, hu.ghost, rfl⟩

end Sys2Proof.Machine
end

section

namespace Sys2Proof.Machine

/-! ## SESSION's registers, and the gate of SEND -/

/-- Settles O44 (R230, R231): each call is accepted, writes its register and returns. -/
theorem settersWriteTheirRegister : Obligations.SettersWriteTheirRegister := by
  intro s hc
  refine ⟨fun v => ?_, fun v => ?_⟩
  · rw [exec, execSetser, accept_of_canCall hc]
    rfl
  · rw [exec, execSetch, accept_of_canCall hc]
    rfl

/-- Settles O45 (R234, R262; log entry 1): the gate comes first, and its condition is not fatal; nothing was in
flight, so that clearing what is left of the call changes nothing. -/
theorem sendWithoutSerialFailsUntouched : Obligations.SendWithoutSerialFailsUntouched := by
  intro i s hc hi hv
  obtain ⟨⟨c1, c2⟩, hi⟩ := Option.isSome_iff_exists.1 hi
  have gate : sendCodes c1 c2 (returnWith .none s) = .next (raise .noSerialConfigured (returnWith .none s)) := by
    simp only [sendCodes, returnWith_ses, hv]
  rw [exec_of_codes hi, accept_of_canCall hc, gate, ← hc.returned]
  rfl

/-! ## A call of SESSION that has begun -/

/-- A call is accepted, and SESSION has written its phase. -/
def begun (p : SessPhase) (s : State) : State :=
  { s with ses := { s.ses with sess_phase := p }, host := { s.host with ret := .none } }

/-- `radio_mode <- m` (R30). -/
def setMode (m : RadioMode) (s : State) : State := { s with ses := { s.ses with radio_mode := m } }

/-- After a mode strobe of SESSION and its record (R30). -/
def modeStrobed (b : Byte) (m : RadioMode) (s : State) : State := setMode m (strobed b s)

theorem modeStrobed_usable {s : State} (hu : BusUsable s) (b : Byte) (m : RadioMode) :
    BusUsable (modeStrobed b m s) := by
  obtain ⟨hi, -, hk⟩ := hu
  exact ⟨hi, rfl, hk⟩

theorem rdyAhead_modeStrobed (b : Byte) (m : RadioMode) (s : State) (n : Nat) :
    rdyAhead (modeStrobed b m s) n = rdyAhead s (2 + n) :=
  Feed.ahead_after _ 2 s.env.rdy n

/-- The first `n` of more samples. -/
theorem ReadyFor.mono {n m : Nat} {s : State} (h : ReadyFor m s) (hn : n ≤ m) : ReadyFor n s :=
  fun k hk => h k (hk.trans_le hn)

/-- What is left of them after the first `m`. -/
theorem ReadyFor.later {m n : Nat} {s t : State} (h : ReadyFor (m + n) s)
    (ht : ∀ k, rdyAhead t k = rdyAhead s (m + k)) : ReadyFor n t :=
  fun k hk => (ht k).trans (h (m + k) (Nat.add_lt_add_left hk m))

/-! ## SEND -/

/-- After TXEN and a waveform whose last burst is of the packet `p`. -/
def onAir (p : Packet) (gs : List Segment) (s : State) : State :=
  { s with
    enc := ⟨p, .driven, .low, 5, none⟩
    env := { s.env with now := s.env.now + duration gs }
    ghost := { s.ghost with tx_log := s.ghost.tx_log ++ ([(.low, 0)] ++ segmentLog gs) } }

theorem duration_burst (p : Packet) : duration (framesOf 5 p) = 294900 := by simp [framesOf]

/-- TXEN and the first burst. -/
theorem run_txen_burst (p : Packet) (k : List Act) (s : State) :
    run (.txen :: (burstActs p ++ k)) s = run k (onAir p (framesOf 5 p) s) := by
  rw [run_go (a := .txen) rfl, run_burst rfl]
  simp [onAir, duration_burst]

/-- A burst after others, with no gap (R235, D21). -/
theorem run_burst_onAir (p q : Packet) (gs : List Segment) (k : List Act) (s : State) :
    run (burstActs q ++ k) (onAir p gs s) = run k (onAir q (gs ++ framesOf 5 q) s) := by
  rw [run_burst rfl]
  simp [onAir, duration_burst, Nat.add_assoc]

/-- Both bursts, or the one (R233, R235). -/
theorem run_txen_bursts (p : Packet) (q : Option Packet) (k : List Act) (s : State) :
    run (.txen :: (burstActs p ++ (secondBurst q ++ k))) s =
      run k (onAir (q.getD p) (framesOf 5 p ++ (q.map (framesOf 5)).getD []) s) := by
  rw [run_txen_burst]
  cases q with
  | none => simp [secondBurst]
  | some q => exact run_burst_onAir p q _ k s

/-- A SEND past its gate begins with the transmit-mode strobe (R234, R236). -/
theorem exec_send_begun {i : Instr} {c1 : Byte} {c2 : Option Byte} {v : Serial} {s : State} (hc : CanCall s)
    (hi : codesOf s.cfg i = some (c1, c2)) (hv : s.ses.serial = some v) :
    exec i s = run (modeActs s.cfg .transmitMode ++ (.txen :: (burstActs (packet v s.ses.channel c1) ++
      (secondBurst (c2.map (packet v s.ses.channel)) ++
        (modeActs s.cfg .idle ++ [.txdis, .phase .idle, .finish]))))) (begun .sending s) := by
  have acts : callActs s i =
      some (sendActs s.cfg (packet v s.ses.channel c1) (c2.map (packet v s.ses.channel))) := by
    simp only [callActs, hi, hv]
  exact (exec_of_callActs hc acts).trans (run_go rfl)

/-- SENDING, with the transmit-mode strobe done and every frame out. -/
def sendOnAir (p : Packet) (gs : List Segment) (s : State) : State :=
  onAir p gs (modeStrobed s.cfg.op_transmit_mode .tx (begun .sending s))

theorem sendOnAir_usable {s : State} (hu : BusUsable s) (p : Packet) (gs : List Segment) :
    BusUsable (sendOnAir p gs s) :=
  modeStrobed_usable (s := begun .sending s) hu s.cfg.op_transmit_mode .tx

theorem rdyAhead_sendOnAir (p : Packet) (gs : List Segment) (s : State) (n : Nat) :
    rdyAhead (sendOnAir p gs s) n = rdyAhead s (2 + n) :=
  rdyAhead_modeStrobed s.cfg.op_transmit_mode .tx (begun .sending s) n

/-- With the transmit-mode strobe's waits met, SEND comes to its idle strobe with every frame out. -/
theorem exec_send_onAir {i : Instr} {c1 : Byte} {c2 : Option Byte} {v : Serial} {s : State} (hc : CanCall s)
    (hu : BusUsable s) (hi : codesOf s.cfg i = some (c1, c2)) (hv : s.ses.serial = some v) (hr : ReadyFor 2 s) :
    exec i s = run (modeActs s.cfg .idle ++ [.txdis, .phase .idle, .finish])
      (sendOnAir (packet v s.ses.channel (c2.getD c1)) (framesOf 5 (packet v s.ses.channel c1) ++
        (c2.map fun c => framesOf 5 (packet v s.ses.channel c)).getD []) s) := by
  rw [exec_send_begun hc hi hv, run_mode (st := .transmitMode) rfl rfl (by exact hu) (by exact hr), run_txen_bursts]
  cases c2 <;> rfl

/-- Settles O46 (R233, R235, R236, D21; log entries 1, 16): the frames are between the two strobes, and with RDY HIGH at
a wait of either the call is stuck in that one. -/
theorem sendTransmitsFiveFramesPerCode : Obligations.SendTransmitsFiveFramesPerCode := by
  intro i c1 c2 v s hc hu hi hv frames
  have begins := exec_send_begun hc hi hv
  have comes := exec_send_onAir hc hu hi hv
  have usable := sendOnAir_usable hu (packet v s.ses.channel (c2.getD c1)) frames
  have ahead := rdyAhead_sendOnAir (packet v s.ses.channel (c2.getD c1)) frames s
  refine ⟨fun hr => ?_, fun h0 => ?_, fun h0 h1 => ?_, fun hr h2 => ?_, fun hr h3 => ?_⟩
  · have idle : s.ses.sess_phase = .idle := hc.1
    rw [comes (hr.mono (by omega)), run_mode (st := .idle) rfl rfl usable (ReadyFor.later (m := 2) hr ahead)]
    refine ⟨_, rfl, ⟨rfl, rfl, rfl, rfl, rfl, rfl⟩, rfl, ?_, ?_, rfl, ?_, rfl, rfl, rfl, rfl, rfl, rfl, rfl, rfl, rfl⟩
    · exact List.append_assoc _ _ _
    · exact List.append_assoc _ _ _
    · rw [← idle]
      rfl
  · rw [begins]
    exact ⟨_, run_stuck (s := begun .sending s) (.strobe s.cfg.op_transmit_mode) hu h0 _,
      ⟨rfl, rfl, List.cons_ne_nil _ _, rfl⟩, rfl, rfl, rfl, rfl⟩
  · rw [begins]
    exact ⟨_, run_stuck2 (s := begun .sending s) s.cfg.op_transmit_mode hu h0 h1 _,
      ⟨rfl, rfl, List.cons_ne_nil _ _, rfl⟩, rfl, rfl, rfl, rfl⟩
  · rw [comes hr]
    exact ⟨_, run_stuck (.strobe s.cfg.op_idle) usable ((ahead 0).trans h2) _,
      ⟨rfl, rfl, List.cons_ne_nil _ _, rfl⟩, rfl, List.append_assoc _ _ _, rfl, rfl⟩
  · rw [comes (hr.mono (by omega))]
    exact ⟨_, run_stuck2 s.cfg.op_idle usable ((ahead 0).trans (hr 2 (by omega))) ((ahead 1).trans h3) _,
      ⟨rfl, rfl, List.cons_ne_nil _ _, rfl⟩, rfl, List.append_assoc _ _ _, rfl, rfl⟩

/-! ## SNIFF -/

/-- With the receive-mode strobe's waits met, SNIFF comes to the head of its loop with the decoder armed (R238). -/
theorem exec_sniff_armed {s : State} (hc : CanCall s) (hu : BusUsable s) (hr : ReadyFor 2 s) :
    exec .sniff s = run (.sniffLoop :: (modeActs s.cfg .idle ++ [.phase .idle, .finish]))
      (arm (modeStrobed s.cfg.op_receive_mode .rx (begun .sniffing s))) := by
  have begins : exec .sniff s = run (modeActs s.cfg .receiveMode ++ (.decreset :: .sniffLoop ::
      (modeActs s.cfg .idle ++ [.phase .idle, .finish]))) (begun .sniffing s) :=
    (exec_of_callActs hc rfl).trans (run_go rfl)
  rw [begins, run_mode (st := .receiveMode) rfl rfl (by exact hu) (by exact hr), run_go (a := .decreset) rfl]
  rfl

theorem arm_eq (s : State) : arm s = { s with
    dec := { s.dec with
      dstate := .invalid, prev_level := (rxNext s).lvl, prev_ts := s.env.now + (rxNext s).dt, last_edge := none }
    env := { s.env with rx := Feed.after Config.freeRx 1 s.env.rx, now := s.env.now + (rxNext s).dt } } := by
  simp only [arm, drawRx_eq]

/-- Settles O47 (R238, R239, D17, D19; log entries 8, 12): the loop's first reading of the predicate leaves it or takes
one sample of the line. -/
theorem sniffArmsAndListens : Obligations.SniffArmsAndListens := by
  intro s hc hu now armed
  refine ⟨fun hr cancelled => ?_, fun hr going => ?_⟩
  · have idle : s.ses.sess_phase = .idle := hc.1
    have usable := modeStrobed_usable (s := begun .sniffing s) hu s.cfg.op_receive_mode .rx
    have ready := ReadyFor.later (s := begun .sniffing s) (m := 2) (n := 2) hr
      (rdyAhead_modeStrobed s.cfg.op_receive_mode .rx _)
    rw [exec_sniff_armed hc hu (hr.mono (by omega)), arm_eq, run_sniff_off (by exact cancelled),
      run_mode (st := .idle) rfl rfl (by exact usable) (by exact ready)]
    refine ⟨_, rfl, rfl, rfl, ?_, rfl, rfl, ?_, rfl, rfl, rfl, rfl, rfl, rfl, rfl⟩
    · exact List.append_assoc _ _ _
    · rw [← idle]
      rfl
  · rw [exec_sniff_armed hc hu hr, arm_eq, run_sniff_on (by exact going)]
    exact ⟨_, rfl, rfl, rfl, rfl, rfl, rfl, rfl, rfl, rfl, rfl, rfl, rfl, rfl⟩

/-! ## The loop of SNIFF, as steps -/

section

variable {k : List Act} {s : State} (hn : s.ses.sess_phase ≠ .halted)
include hn

/-- Not cancelled, the line is polled once and the loop goes on. -/
theorem step_sniff_on (hp : s.host.pend = .sniffLoop :: k) (h : cancelNext s = false) :
    step s = .next (pollLine { s with
      env := { s.env with cancel := Feed.after Config.freeCancel 1 s.env.cancel } }) := by
  have again : act .sniffLoop s = .again (pollLine { s with
      env := { s.env with cancel := Feed.after Config.freeCancel 1 s.env.cancel } }) := by
    simp only [act, sniffHead, drawCancel_eq, h, Bool.false_eq_true, if_false]
  simp only [step_pend hn hp, tick, hp, again, pollLine_pend]
  rw [← hp]

/-- Cancelled, the loop is left with no sample taken. -/
theorem step_sniff_off (hp : s.host.pend = .sniffLoop :: k) (h : cancelNext s = true) :
    step s = .next { s with
      env := { s.env with cancel := Feed.after Config.freeCancel 1 s.env.cancel }
      host := { s.host with pend := k } } := by
  have left : act .sniffLoop s = .go { s with
      env := { s.env with cancel := Feed.after Config.freeCancel 1 s.env.cancel } } := by
    simp only [act, sniffHead, drawCancel_eq, h, if_true]
  exact step_go hn hp left

/-- A strobe transaction is four steps: select, the first wait, the byte, the second wait. -/
theorem steps_strobe {b : Byte} (hp : s.host.pend = .bus (.strobe b) :: k) (hu : BusUsable s) (hr : ReadyFor 2 s)
    (n : Nat) : steps (n + 4) s = steps n { strobed b s with host := { s.host with pend := k } } := by
  rw [steps_next (step_more hn hp (act_idle _ hu)), steps_next (step_wait1_low (by exact hn) rfl rfl (by exact hr.head)),
    steps_next (step_strobe_byte (by exact hn) rfl rfl),
    steps_next (step_wait2_low (by exact hn) rfl rfl
      (by exact (Feed.ahead_after _ 1 s.env.rdy 0).trans (hr 1 (by omega))))]
  simp [metWait1, metWait2, byteDone, setPhase, strobed, strobeLog, Busdrv.shifted, sdiAhead]

/-- The record of the idle strobe, the phase and the return are a step each. -/
theorem steps_sniff_return (hp : s.host.pend = [.radio .idle, .phase .idle, .finish]) : steps 3 s = .next { s with
    ses := { s.ses with sess_phase := .idle, radio_mode := .idle }
    host := { s.host with pend := [], ret := .success } } := by
  rw [steps_next (step_go hn hp rfl), steps_next (step_go (by exact hn) rfl rfl), steps_one,
    step_go (by exact nofun) rfl rfl]
  rfl

end

/-- Settles O48 (R239, D19; log entries 8, 26): a step at the loop's head, and the eight steps from a cancelled one to
the return. -/
theorem sniffIterationReadsCancelFirst : Obligations.SniffIterationReadsCancelFirst := by
  intro s hs cancelled
  have hn : s.ses.sess_phase ≠ .halted := by rw [hs]; decide
  refine ⟨fun k => step_sniff_on hn, fun k => step_sniff_off hn, fun hp hu hcancel hr => ?_⟩
  rw [steps_next (step_sniff_off hn hp hcancel),
    steps_strobe (b := s.cfg.op_idle) (n := 3) (by exact hn) rfl (by exact hu) (by exact hr),
    steps_sniff_return (by exact hn) rfl]
  exact ⟨_, rfl, rfl, rfl, rfl, rfl, rfl, rfl, rfl⟩

end Sys2Proof.Machine
end

section

namespace Sys2Proof.Machine

/-! ## The identity check -/

/-- From `s` to `t`, `n` registers were read one after the other: what `Wrote` says of `n` transactions of one wait, and
each took two bytes of SDI (R136, R242). -/
structure Identified (n : Nat) (log : List BusEvent) (s t : State) : Prop extends Wrote n log s t where
  sdi : t.env.sdi = Feed.after Config.freeSdi (2 * n) s.env.sdi

section

variable {n m : Nat} {l l' : List BusEvent} {s t u : State}

theorem Identified.sdiAhead_eq (h : Identified n l s t) (k : Nat) : sdiAhead t k = sdiAhead s (2 * n + k) := by
  rw [sdiAhead, h.sdi, Feed.ahead_after, sdiAhead]

theorem Identified.trans (h : Identified n l s t) (h' : Identified m l' t u) :
    Identified (n + m) (l ++ l') s u where
  toWrote := h.toWrote.trans h'.toWrote
  sdi := by rw [h'.sdi, h.sdi, Feed.after_after, Nat.mul_add]

theorem Identified.refl (hp : s.drv.drv_phase = .idle) (hs : s.drv.sel = .released) : Identified 0 [] s s :=
  ⟨⟨by simp [BusFrame], rfl, hp, hs, rfl, (List.append_nil _).symm⟩, rfl⟩

end

/-- What the read of a pair of CHIP_ID_CHECK that is answered with `v` leaves in `bus_log`. -/
def identityLog (c : Config) (r : Reg) (v : Byte) : List BusEvent := readLog ((readHeader c r).getD 0) v

section

variable {c : Config} {s : State} {pair : Reg × Byte} (hm : (regAddr c pair.1).isSome) (hu : BusUsable s)
  (hr : rdyAhead s 0 = .low)
include hm hu hr

/-- A pair's register is read, and its byte stands in `sh_in` when the check comes (log entry 34). -/
theorem run_check_read (k : List Act) : ∃ t, run (checkActs c pair ++ k) s = run (.check pair.1 pair.2 :: k) t ∧
    Identified 1 (identityLog c pair.1 (sdiAhead s 1)) s t ∧ t.drv.sh_in = sdiAhead s 1 := by
  obtain ⟨a, ha⟩ := Option.isSome_iff_exists.1 hm
  have hh := readHeader_of_mem ha
  refine ⟨hasRead (a ||| c.flag_read_burst) s, ?_, ⟨⟨by simp [BusFrame, hasRead], rfl, rfl, rfl, rfl, ?_⟩, rfl⟩, rfl⟩
  · rw [checkActs, List.append_assoc, run_read hh hu hr]
    rfl
  · rw [identityLog, hh]
    rfl

/-- The byte expected: the call goes on. -/
theorem run_check_same (h : sdiAhead s 1 = pair.2) (k : List Act) :
    ∃ t, run (checkActs c pair ++ k) s = run k t ∧ Identified 1 (identityLog c pair.1 pair.2) s t := by
  obtain ⟨t, run_t, read, byte⟩ := run_check_read hm hu hr k
  have found : act (.check pair.1 pair.2) t = .go t := by simp only [act, byte, h, if_true]
  exact ⟨t, run_t.trans (run_go (actOn_go found)), h ▸ read⟩

/-- Another byte: the call ends with the condition (R242). -/
theorem run_check_other (h : sdiAhead s 1 ≠ pair.2) (k : List Act) :
    ∃ t, run (checkActs c pair ++ k) s = .next (raise (.chipIdentityMismatch pair.1 (sdiAhead s 1)) t) ∧
      Identified 1 (identityLog c pair.1 (sdiAhead s 1)) s t := by
  obtain ⟨t, run_t, read, byte⟩ := run_check_read hm hu hr k
  have missed : act (.check pair.1 pair.2) t = .ended (raise (.chipIdentityMismatch pair.1 (sdiAhead s 1)) t) := by
    simp only [act, byte, h, if_false]
  exact ⟨t, run_t.trans (run_ended (actOn_ended missed)), read⟩

end

/-- Every pair answered as expected. -/
theorem run_checks {c : Config} (k : List Act) {pairs : List (Reg × Byte)} {s : State}
    (hm : ∀ pair ∈ pairs, (regAddr c pair.1).isSome) (hu : BusUsable s) (hs : s.drv.sel = .released)
    (hr : ReadyFor pairs.length s) (hv : ∀ j, ∀ h : j < pairs.length, sdiAhead s (2 * j + 1) = pairs[j].2) :
    ∃ t, run (pairs.flatMap (checkActs c) ++ k) s = run k t ∧
      Identified pairs.length (pairs.flatMap fun pair => identityLog c pair.1 pair.2) s t := by
  induction pairs generalizing s with
  | nil => exact ⟨s, rfl, .refl hu.2.1 hs⟩
  | cons pair pairs ih =>
    obtain ⟨head, tail⟩ := List.forall_mem_cons.1 hm
    obtain ⟨u, run_u, first⟩ := run_check_same head hu hr.head (hv 0 (Nat.succ_pos _))
      (pairs.flatMap (checkActs c) ++ k)
    rw [List.length_cons, Nat.add_comm] at hr
    obtain ⟨t, run_t, others⟩ := ih tail (first.usable hu) first.sel (hr.later first.rdyAhead_eq) fun j hj => by
      rw [first.sdiAhead_eq, show 2 * 1 + (2 * j + 1) = 2 * (j + 1) + 1 by omega]
      exact hv (j + 1) (Nat.succ_lt_succ hj)
    refine ⟨t, ?_, ?_⟩
    · rw [List.flatMap_cons, List.append_assoc, run_u, run_t]
    · rw [List.length_cons, Nat.add_comm, List.flatMap_cons]
      exact first.trans others

/-! ## STARTUP_OPS -/

/-- What transactions do is the same in another mode of the radio. -/
theorem Wrote.setMode {n : Nat} {l : List BusEvent} {s t : State} (h : Wrote n l s t) (m : RadioMode) :
    Wrote n l (setMode m s) (setMode m t) := by
  obtain ⟨⟨cfg, enc, dec, ses, rest⟩, host, phase, sel, rdy, log⟩ := h
  exact ⟨⟨cfg, enc, dec, by simp only [Machine.setMode, ses], rest⟩, host, phase, sel, rdy, log⟩

/-- From `s` to `t`, entries of STARTUP_OPS with `n` ready waits were done: they left `log` in `bus_log` and `m` in
`radio_mode`, and nothing else moved but the shifter and the lines (R30, R241). -/
def OpsDone (n : Nat) (log : List BusEvent) (m : RadioMode) (s t : State) : Prop := Wrote n log (setMode m s) t

section

variable {n n' : Nat} {l l' : List BusEvent} {m m' : RadioMode} {s t u : State}

theorem OpsDone.trans (h : OpsDone n l m s t) (h' : OpsDone n' l' m' t u) : OpsDone (n + n') (l ++ l') m' s u :=
  Wrote.trans (Wrote.setMode h m') h'

/-- Transactions alone leave the mode. -/
theorem Wrote.opsDone (h : Wrote n l s t) : OpsDone n l s.ses.radio_mode s t := h

theorem OpsDone.usable (h : OpsDone n l m s t) (hu : BusUsable s) : BusUsable t := Wrote.usable h hu

theorem OpsDone.rdyAhead_eq (h : OpsDone n l m s t) (k : Nat) : rdyAhead t k = rdyAhead s (n + k) :=
  Wrote.rdyAhead_eq h k

end

/-- 433.92 MHz is the word of the bytes R241 gives. -/
theorem freqWord_carrier : freqWord CARRIER_MHZ = .ok 0x10B071 := by decide

section

variable {c : Config} {s : State} (hu : BusUsable s)
include hu

/-- EXEC of a strobe: `radio_mode` follows a mode strobe, and no other (R30). -/
theorem run_strobe_ops {st : Strobe} {b : Byte} (hb : strobeByte c st = some b) (hr : ReadyFor 2 s) (k : List Act) :
    ∃ t, run (modeActs c st ++ k) s = run k t ∧
      OpsDone 2 (strobeLog b) ((modeOf st).getD s.ses.radio_mode) s t := by
  cases hm : modeOf st with
  | none =>
    refine ⟨strobed b s, ?_, ⟨by simp [BusFrame, strobed, setMode], rfl, rfl, rfl, rfl, rfl⟩⟩
    rw [modeActs, radioActs, hm, List.append_nil, run_strobe hb hu hr]
  | some m => exact ⟨_, run_mode hb hm hu hr k, by simp [BusFrame, strobed, setMode], rfl, rfl, rfl, rfl, rfl⟩

theorem run_write_ops {r : Reg} (hm : (regAddr c r).isSome) (bs : List Byte) (hr : ReadyFor 1 s) (k : List Act) :
    ∃ t, run (writeActs c r bs ++ k) s = run k t ∧
      OpsDone 1 (writeLog ((writeHeader c r).getD 0) bs) s.ses.radio_mode s t := by
  obtain ⟨a, ha⟩ := Option.isSome_iff_exists.1 hm
  have hh := writeHeader_of_mem ha
  obtain ⟨t, run_t, wrote⟩ := run_write_wrote hh hu hr.head bs k
  rw [hh]
  exact ⟨t, run_t, wrote.opsDone⟩

theorem run_pfreq_ops {mhz : Mhz} {w : FreqWord} (hw : freqWord mhz = .ok w) (hr : ReadyFor 3 s) (k : List Act) :
    ∃ t, run (pfreqActs c mhz ++ k) s = run k t ∧ OpsDone 3 (freqLog c w) s.ses.radio_mode s t := by
  obtain ⟨t, run_t, wrote⟩ := run_freq_wrote w hu hr c k
  rw [pfreqActs_of_ok hw]
  exact ⟨t, run_t, wrote.opsDone⟩

/-- One entry (R241). -/
theorem run_startupOp {op : StartupOp} (ok : startupOpOk c op = true) (hr : ReadyFor (startupOpWaits op) s)
    (k : List Act) : ∃ t, run (startupOpActs c op ++ k) s = run k t ∧
      OpsDone (startupOpWaits op) (startupOpLog c op) (startupMode s.ses.radio_mode [op]) s t := by
  cases op with
  | strobe st =>
    obtain ⟨b, hb⟩ := Option.isSome_iff_exists.1 ok
    obtain ⟨t, run_t, done⟩ := run_strobe_ops hu hb hr k
    refine ⟨t, run_t, ?_⟩
    rw [startupOpLog, hb]
    exact done
  | write r b => exact run_write_ops hu ok [b] hr k
  | wburst r bs => exact run_write_ops hu ok bs hr k
  | pfreq m =>
    cases hw : freqWord m with
    | error r => rw [startupOpOk, hw] at ok; cases ok
    | ok w =>
      obtain ⟨t, run_t, done⟩ := run_pfreq_ops hu (c := c) hw hr k
      refine ⟨t, run_t, ?_⟩
      rw [startupOpLog, hw]
      exact done
  | carrier => exact run_pfreq_ops hu freqWord_carrier hr k
  | powerTable => exact run_write_ops hu (r := .paTable) rfl c.pa_table hr k

end

/-- The whole list. -/
theorem run_startupOps {c : Config} (k : List Act) {ops : List StartupOp} {s : State}
    (ok : ∀ op ∈ ops, startupOpOk c op = true) (hu : BusUsable s) (hs : s.drv.sel = .released)
    (hr : ReadyFor (ops.map startupOpWaits).sum s) :
    ∃ t, run (ops.flatMap (startupOpActs c) ++ k) s = run k t ∧
      OpsDone (ops.map startupOpWaits).sum (ops.flatMap (startupOpLog c)) (startupMode s.ses.radio_mode ops) s t := by
  induction ops generalizing s with
  | nil => exact ⟨s, rfl, by simp [BusFrame, setMode, startupMode], rfl, hu.2.1, hs, rfl, (List.append_nil _).symm⟩
  | cons op ops ih =>
    obtain ⟨head, tail⟩ := List.forall_mem_cons.1 ok
    rw [List.map_cons, List.sum_cons] at hr
    obtain ⟨u, run_u, first⟩ := run_startupOp hu head (hr.mono (Nat.le_add_right _ _))
      (ops.flatMap (startupOpActs c) ++ k)
    obtain ⟨t, run_t, others⟩ := ih tail (first.usable hu) first.sel (hr.later first.rdyAhead_eq)
    have mode : u.ses.radio_mode = startupMode s.ses.radio_mode [op] := by
      obtain ⟨-, -, -, ses, -⟩ := first.frame
      rw [ses]
      rfl
    refine ⟨t, ?_, ?_⟩
    · rw [List.flatMap_cons, List.append_assoc, run_u, run_t]
    · rw [mode] at others
      exact first.trans others

/-! ## STARTUP -/

theorem initPulse_usable {s : State} (hc : CanCall s) (hk : configOk s.cfg = true) :
    BusUsable (initPulse (returnWith .none s)) := by
  obtain ⟨-, -, hp⟩ := hc
  rw [initPulse_eq]
  exact ⟨rfl, hp, hk⟩

/-- INIT's pulse samples nothing. -/
theorem rdyAhead_initPulse (s : State) (k : Nat) : rdyAhead (initPulse (returnWith .none s)) k = rdyAhead s k := by
  rw [initPulse_eq]
  rfl

theorem sdiAhead_initPulse (s : State) (k : Nat) : sdiAhead (initPulse (returnWith .none s)) k = sdiAhead s k := by
  rw [initPulse_eq]
  rfl

section

variable {s : State} (hc : CanCall s) (hi : s.drv.drv_init = false) (hk : configOk s.cfg = true)
include hc hi hk

/-- STARTUP begins with INIT (R240, D23). -/
theorem exec_startup_init : exec .startup s = run (s.cfg.chip_id_check.flatMap (checkActs s.cfg) ++
    (s.cfg.startup_ops.flatMap (startupOpActs s.cfg) ++ [.finish])) (initPulse (returnWith .none s)) := by
  have he : initEntry (returnWith .none s) = none := initEntry_eq_none.2 ⟨hi, hk⟩
  have first : act .init (returnWith .none s) = .go (initPulse (returnWith .none s)) := by simp only [act, he]
  exact (exec_of_callActs hc rfl).trans (run_go (actOn_go first))

/-- INIT, and then the first pairs of CHIP_ID_CHECK, answered as expected. -/
theorem exec_startup_checks {pairs rest : List (Reg × Byte)} (hl : s.cfg.chip_id_check = pairs ++ rest)
    (hm : ∀ pair ∈ pairs, (regAddr s.cfg pair.1).isSome) (hr : ReadyFor pairs.length s)
    (hv : ∀ j, ∀ h : j < pairs.length, sdiAhead s (2 * j + 1) = pairs[j].2) :
    ∃ t, exec .startup s = run (rest.flatMap (checkActs s.cfg) ++
        (s.cfg.startup_ops.flatMap (startupOpActs s.cfg) ++ [.finish])) t ∧
      Identified pairs.length (pairs.flatMap fun pair => identityLog s.cfg pair.1 pair.2)
        (initPulse (returnWith .none s)) t := by
  rw [exec_startup_init hc hi hk, hl, List.flatMap_append, List.append_assoc]
  refine run_checks _ hm (initPulse_usable hc hk) ?_ (fun k hlt => ?_) (fun j hj => ?_)
  · rw [initPulse_eq]
  · rw [rdyAhead_initPulse, hr k hlt]
  · rw [sdiAhead_initPulse, hv j hj]

end

/-- Settles O49 (R240 to R242, D23, D24; log entries 21, 34): INIT, all of CHIP_ID_CHECK, all of STARTUP_OPS, and the
return. -/
theorem startupRunsItsThreeParts : Obligations.StartupRunsItsThreeParts := by
  intro s hc hi hk hm hv ok hr
  obtain ⟨u, exec_u, checked⟩ := exec_startup_checks hc hi hk (rest := []) (List.append_nil _).symm hm
    (hr.mono (Nat.le_add_right _ _)) hv
  have ready := hr.later fun k => (checked.rdyAhead_eq k).trans (rdyAhead_initPulse s _)
  obtain ⟨t, run_t, ops⟩ := run_startupOps [.finish] ok (checked.usable (initPulse_usable hc hk)) checked.sel ready
  have mode : u.ses.radio_mode = s.ses.radio_mode := by
    obtain ⟨-, -, -, ses, -⟩ := checked.frame
    rw [ses]
    rfl
  rw [mode] at ops
  have done := checked.opsDone.trans ops
  rw [initPulse_eq] at done
  obtain ⟨cfg, enc, dec, ses, pins, init, tx, rx, -, -, -, calls⟩ := done.frame
  refine ⟨_, exec_u.trans (run_t.trans (run_finish t)), rfl, init, pins, ⟨done.sel, done.phase, rfl⟩, ?_, ses, enc, dec,
    tx, rx, cfg, calls⟩
  rw [done.log]
  simp [setMode, identityLog]

/-- Settles O50 (R242, R264, R268, D24; log entry 34): the pairs before answered as expected, and this one ends the
call with its fatal condition. -/
theorem wrongChipHaltsTheBlock : Obligations.WrongChipHaltsTheBlock := by
  intro s j hj hc hi hk hm hr hv hw
  have parts : s.cfg.chip_id_check =
      s.cfg.chip_id_check.take j ++ s.cfg.chip_id_check[j] :: s.cfg.chip_id_check.drop (j + 1) := by
    rw [← List.drop_eq_getElem_cons hj, List.take_append_drop]
  have count : (s.cfg.chip_id_check.take j).length = j := List.length_take_of_le hj.le
  rw [List.take_succ_eq_append_getElem hj, List.forall_mem_append, List.forall_mem_singleton] at hm
  obtain ⟨before, this⟩ := hm
  obtain ⟨u, exec_u, checked⟩ := exec_startup_checks hc hi hk parts before
    (hr.mono (count.trans_le (Nat.le_succ j))) fun l hl => by
      rw [List.getElem_take]
      exact hv l (count ▸ hl)
  rw [count] at checked
  have ready : rdyAhead u 0 = .low := by
    rw [checked.rdyAhead_eq, rdyAhead_initPulse]
    exact hr j (Nat.lt_succ_self j)
  have byte : sdiAhead u 1 = sdiAhead s (2 * j + 1) := by
    rw [checked.sdiAhead_eq, sdiAhead_initPulse]
  rw [List.flatMap_cons, List.append_assoc] at exec_u
  obtain ⟨t, run_t, missed⟩ := run_check_other this (checked.usable (initPulse_usable hc hk)) ready (byte ▸ hw) _
  rw [byte] at run_t missed
  have done := checked.trans missed
  rw [initPulse_eq] at done
  obtain ⟨cfg, enc, dec, ses, -, -, tx, rx, -⟩ := done.frame
  refine ⟨_, exec_u.trans run_t, ?_, rfl, rfl, ?_, done.sel, enc, dec, tx, rx, cfg⟩
  · rw [raise_ses, ses]
    rfl
  · rw [raise_ghost, done.log]
    simp [identityLog]

end Sys2Proof.Machine
end

section

namespace Sys2Proof.Machine

/-! ## A halted block -/

theorem step_halted {s : State} (h : s.ses.sess_phase = .halted) : step s = .refused .halted := by
  simp only [step, h]

/-- Settles O19 (R264; log entry 11): a step and every instruction ask first whether the block is halted. -/
theorem haltedBlockAcceptsNothing : Obligations.HaltedBlockAcceptsNothing := by
  intro s h
  refine ⟨step_halted h, fun i => ?_⟩
  obtain ⟨f, hf⟩ := exec_accept i s
  rw [hf, accept_halted h]

/-! ## Every call ends in its return -/

theorem endsInReturn_tail {a : Act} {k : List Act} (h : endsInReturn (a :: k) = true) : endsInReturn k = true := by
  cases k with
  | nil => rfl
  | cons b k => exact h

theorem endsInReturn_cons (a : Act) {k : List Act} (hk : k ≠ []) : endsInReturn (a :: k) = endsInReturn k := by
  cases k with
  | nil => exact absurd rfl hk
  | cons b k => rfl

theorem endsInReturn_append (l : List Act) {k : List Act} (hk : k ≠ []) : endsInReturn (l ++ k) = endsInReturn k := by
  induction l with
  | nil => rfl
  | cons a l ih => rw [List.cons_append, endsInReturn_cons a (List.append_ne_nil_of_right_ne_nil l hk), ih]

theorem busActs_returns {c : Config} {i : Instr} {k : List Act} (h : busActs c i = some k) :
    k ≠ [] ∧ endsInReturn k = true := by
  cases i <;> cases h <;>
    simp [execActs, readCallActs, writeCallActs, pfreqCallActs, freqCallActs, burstCallActs, sniffActs, startupActs,
      endsInReturn_append, endsInReturn_cons, endsInReturn]

theorem callActs_returns {s : State} {i : Instr} {k : List Act} (h : callActs s i = some k) :
    k ≠ [] ∧ endsInReturn k = true := by
  unfold callActs at h
  split at h
  · cases h; simp [sendActs, endsInReturn_append, endsInReturn_cons, endsInReturn]
  · cases h
  · exact busActs_returns h

/-! ## Only a STARTUP makes a check -/

/-- No identity check stands in the list. -/
def NoCheck (k : List Act) : Prop := ∀ r e, Act.check r e ∉ k

@[simp] theorem noCheck_nil : NoCheck [] := fun _ _ => List.not_mem_nil

@[simp] theorem noCheck_cons {a : Act} {k : List Act} : NoCheck (a :: k) ↔ (∀ r e, a ≠ .check r e) ∧ NoCheck k := by
  simp only [NoCheck, List.mem_cons, not_or, forall_and, ne_eq, eq_comm]

@[simp] theorem noCheck_append {k l : List Act} : NoCheck (k ++ l) ↔ NoCheck k ∧ NoCheck l := by
  simp only [NoCheck, List.mem_append, not_or, forall_and]

@[simp] theorem strobeActs_noCheck (c : Config) (st : Strobe) : NoCheck (strobeActs c st) := by
  unfold strobeActs; split <;> simp

@[simp] theorem readActs_noCheck (c : Config) (r : Reg) : NoCheck (readActs c r) := by
  unfold readActs; split <;> simp

@[simp] theorem writeActs_noCheck (c : Config) (r : Reg) (bs : List Byte) : NoCheck (writeActs c r bs) := by
  unfold writeActs; split <;> simp

@[simp] theorem freqActs_noCheck (c : Config) (w : FreqWord) : NoCheck (freqActs c w) := by simp [freqActs]

@[simp] theorem pfreqActs_noCheck (c : Config) (m : Mhz) : NoCheck (pfreqActs c m) := by
  unfold pfreqActs; split <;> simp

@[simp] theorem modeActs_noCheck (c : Config) (st : Strobe) : NoCheck (modeActs c st) := by
  unfold modeActs radioActs; split <;> simp

@[simp] theorem burstActs_noCheck (p : Packet) : NoCheck (burstActs p) := by simp [burstActs]

@[simp] theorem secondBurst_noCheck (p : Option Packet) : NoCheck (secondBurst p) := by
  cases p <;> simp [secondBurst]

theorem busActs_noCheck {c : Config} {i : Instr} {k : List Act} (hi : i ≠ .startup) (h : busActs c i = some k) :
    NoCheck k := by
  cases i with
  | startup => exact absurd rfl hi
  | _ =>
    cases h <;>
      simp [execActs, readCallActs, writeCallActs, pfreqCallActs, freqCallActs, burstCallActs, sniffActs]

theorem callActs_noCheck {s : State} {i : Instr} {k : List Act} (hi : i ≠ .startup) (h : callActs s i = some k) :
    NoCheck k := by
  unfold callActs at h
  split at h
  · cases h; simp [sendActs]
  · cases h
  · exact busActs_noCheck hi h

theorem startup_of_check {s : State} {i : Instr} {k : List Act} {r : Reg} {e : Byte} (h : callActs s i = some k)
    (hc : .check r e ∈ k) : i = .startup :=
  by_contra fun hi => callActs_noCheck hi h r e hc

/-- No call begins with a check: STARTUP begins with INIT. -/
theorem callActs_head {s : State} {i : Instr} {a : Act} {k : List Act} (h : callActs s i = some (a :: k)) :
    ∀ r e, a ≠ .check r e := by
  by_cases hi : i = .startup
  · subst hi; cases h; exact nofun
  · exact (noCheck_cons.1 (callActs_noCheck hi h)).1

/-! ## What an action does to the host's side -/

theorem toData_host {x : Txn} {j : Nat} {u s' : State} (h : (toData x j u).leaves s') : s'.host = u.host := by
  unfold toData at h
  split at h
  · rw [Progress.leaves_more h, setPhase_host]
  · rw [Progress.leaves_go h, closeBus_eq]

theorem txByte_host (b : Byte) (s : State) : (txByte b s).host = s.host := by rw [txByte_eq]

theorem dataByte_host (x : Txn) (j : Nat) (s : State) : (dataByte x j s).host = s.host := by
  unfold dataByte
  split
  · rfl
  · rw [rxByte_eq]
  · split
    · exact txByte_host _ s
    · rfl

theorem busAct_host {x : Txn} {s s' : State} (h : (busAct x s).leaves s') : s'.host = s.host := by
  unfold busAct at h
  split at h
  · split at h
    · exact (Progress.leaves_refuse h).elim
    · rw [Progress.leaves_more h]; rfl
  · unfold waitReady at h
    split at h
    · rw [Progress.leaves_more h]; rfl
    · rw [Progress.leaves_again h]; rfl
  · unfold afterFirst at h
    split at h
    · rw [Progress.leaves_more h, setPhase_host, txByte_host]
    · rw [toData_host h, txByte_host]
    · rw [toData_host h, txByte_host]
  · rw [toData_host h, dataByte_host]
  · unfold waitReady at h
    split at h
    · rw [Progress.leaves_go h]; rfl
    · rw [Progress.leaves_again h]; rfl

/-- The host's side is written by a return, and by the end of a call with a condition. -/
theorem act_host {a : Act} {s s' : State} (h : (act a s).leaves s') :
    s'.host = s.host ∨ s'.host.ret = .success ∨ (∃ v, s'.host.ret = .byte v) ∨ act a s = .ended s' := by
  cases a with
  | bus x => exact .inl (busAct_host h)
  | init =>
    simp only [act] at h
    split at h
    · exact (Progress.leaves_refuse h).elim
    · rw [Progress.leaves_go h, initPulse_eq]; exact .inl rfl
  | check r e =>
    simp only [act] at h ⊢
    split at h
    · rw [Progress.leaves_go h]; exact .inl rfl
    · rename_i hne
      rw [Progress.leaves_ended h, if_neg hne]; exact .inr (.inr (.inr rfl))
  | frames p =>
    simp only [act, burstAct] at h
    split at h
    · split at h
      · rw [Progress.leaves_more h, burstFrame_eq]; exact .inl rfl
      · exact (Progress.leaves_refuse h).elim
    · rw [Progress.leaves_go h]; exact .inl rfl
  | sniffLoop =>
    simp only [act, sniffHead] at h
    split at h
    · rw [Progress.leaves_go h]; exact .inl rfl
    · obtain ⟨d, out, he, -⟩ := pollLine_frame (drawCancel s).2
      rw [Progress.leaves_again h, he]; exact .inl rfl
  | finish => rw [Progress.leaves_go h]; exact .inr (.inl rfl)
  | answer => rw [Progress.leaves_go h]; exact .inr (.inr (.inl ⟨_, rfl⟩))
  | refuse r => exact (Progress.leaves_refuse h).elim
  | _ => rw [Progress.leaves_go h]; exact .inl rfl

/-- An action that does not end the call raises nothing. -/
theorem act_not_raised {a : Act} {s s' : State} {c : Condition} (h : (act a s).leaves s') (he : act a s ≠ .ended s')
    (hr : s'.host.ret = .raised c) : s.host.ret = .raised c := by
  obtain e | e | ⟨v, e⟩ | e := act_host h
  · rwa [e] at hr
  · cases e.symm.trans hr
  · cases e.symm.trans hr
  · exact absurd e he

/-- The action that stands last returns. -/
theorem act_returns {a : Act} {s s' : State} (ha : endsInReturn [a] = true) (h : act a s = .go s') :
    s'.host.ret ≠ .none := by
  obtain rfl | rfl : a = .finish ∨ a = .answer := by simpa [endsInReturn] using ha
  · cases h; exact nofun
  · cases h; exact nofun

/-! ## An action of the call in flight, as the host sees it -/

/-- What the host sees after an action `a` with `k` after it: what is left of the call, and what was returned. -/
inductive Seen (a : Act) (k : List Act) (s t : State) : Prop
  /-- The entry is not done. -/
  | stays (left : t.host.pend = a :: k) (calm : ∀ c, t.host.ret = .raised c → s.host.ret = .raised c)
  /-- The entry is done, and the call has returned if it was the last. -/
  | goesOn (left : t.host.pend = k) (calm : ∀ c, t.host.ret = .raised c → s.host.ret = .raised c)
    (last : endsInReturn [a] = true → t.host.ret ≠ .none)
  /-- An identity register held another byte than expected (R264). -/
  | mismatch (r : Reg) (e : Byte) (check : a = .check r e) (differs : s.drv.sh_in ≠ e)
    (raised : t = raise (.chipIdentityMismatch r s.drv.sh_in) s)

theorem tick_seen {a : Act} {k : List Act} {s t : State} (hp : s.host.pend = a :: k) (h : tick s = .next t) :
    Seen a k s t := by
  obtain ⟨s', led⟩ := tick_next hp h
  have calm (hl : (act a s).leaves s') (he : act a s ≠ .ended s') (c : Condition) :
      s'.host.ret = .raised c → s.host.ret = .raised c := act_not_raised hl he
  obtain ⟨ha, rfl⟩ | ⟨ha | ha, rfl⟩ | ⟨ha, rfl⟩ := led
  · exact .goesOn rfl (calm (.inl ha) (by simp [ha])) fun hl => act_returns (s' := s') hl ha
  · exact .stays rfl (calm (.inr (.inl ha)) (by simp [ha]))
  · exact .stays rfl (calm (.inr (.inr (.inl ha))) (by simp [ha]))
  · obtain ⟨r, e, hc, hv, rfl⟩ := act_ended ha
    exact .mismatch r e hc hv rfl

theorem tick_rest {s t : State} (hp : s.host.pend = []) (h : tick s = .next t) : t = s := by
  simp only [tick, hp] at h
  cases h; rfl

/-- An action leaves a rest of what was left. -/
theorem tick_suffix {s t : State} (h : tick s = .next t) : t.host.pend <:+ s.host.pend := by
  cases hp : s.host.pend with
  | nil => rw [tick_rest hp h, hp]
  | cons a k =>
    cases tick_seen hp h with
    | stays left _ => rw [left]
    | goesOn left _ _ => rw [left]; exact List.suffix_cons a k
    | mismatch r e _ _ raised => rw [raised]; exact List.nil_suffix

/-- A condition stood before, or the call had come to a check that found another byte. -/
theorem tick_raised {s t : State} {c : Condition} (h : tick s = .next t) (hr : t.host.ret = .raised c) :
    s.host.ret = .raised c ∨ ∃ r v e k, s.host.pend = .check r e :: k ∧ v ≠ e ∧ c = .chipIdentityMismatch r v ∧
      t.ses.sess_phase = .halted := by
  cases hp : s.host.pend with
  | nil => rw [tick_rest hp h] at hr; exact .inl hr
  | cons a k =>
    cases tick_seen hp h with
    | stays _ calm => exact .inl (calm c hr)
    | goesOn _ calm _ => exact .inl (calm c hr)
    | mismatch r e check differs raised =>
      subst raised check
      cases hr
      exact .inr ⟨r, _, e, k, rfl, differs, rfl, rfl⟩

/-! ## What every action of a call keeps -/

theorem ticks_keeps {P : State → Prop} (hP : ∀ s t, P s → tick s = .next t → P t) {n : Nat} {s t : State} (hs : P s)
    (h : ticks n s = .next t) : P t := by
  induction n generalizing s with
  | zero => cases h; exact hs
  | succ n ih =>
    rw [ticks] at h
    split at h
    · exact ih (hP _ _ hs ‹_›) h
    · cases h
    · cases h

/-- What holds where a call begins, and is kept by each action of the call in flight, holds where a run stops. -/
theorem run_keeps {P : State → Prop} (hP : ∀ s t, P s → tick s = .next t → P t) {k : List Act} {s t : State}
    (hs : P { s with host := { s.host with pend := k } }) (h : run k s = .next t) : P t := by
  obtain ⟨n, hn, -⟩ := run_eq_ticks k s
  exact ticks_keeps hP hs (hn ▸ h)

/-- A call in flight has its return before it, and where nothing of it is left it has returned (R243). -/
structure Answers (t : State) : Prop where
  returns : CallReturns t
  returned : t.host.pend = [] → t.host.ret ≠ .none

theorem tick_answers {s t : State} (hs : Answers s) (h : tick s = .next t) : Answers t := by
  cases hp : s.host.pend with
  | nil => rw [tick_rest hp h]; exact hs
  | cons a k =>
    have ends : endsInReturn (a :: k) = true := hp ▸ hs.returns
    cases tick_seen hp h with
    | stays left _ => exact ⟨(congrArg endsInReturn left).trans ends, fun hn => by cases left.symm.trans hn⟩
    | goesOn left _ last =>
      refine ⟨(congrArg endsInReturn left).trans (endsInReturn_tail ends), fun hn => ?_⟩
      obtain rfl : k = [] := left.symm.trans hn
      exact last ends
    | mismatch r e _ _ raised => subst raised; exact ⟨rfl, fun _ => nofun⟩

/-- A rest of the list `k` is left, and a condition came from a check in it, which ended the call and halted the
block (R260, R264). -/
structure Checked (k : List Act) (t : State) : Prop where
  left : t.host.pend <:+ k
  raised : ∀ c, t.host.ret = .raised c → t.host.pend = [] ∧ t.ses.sess_phase = .halted ∧
    ∃ r e v, .check r e ∈ k ∧ c = .chipIdentityMismatch r v

theorem tick_checked {l : List Act} (s t : State) (hs : Checked l s) (h : tick s = .next t) : Checked l t := by
  refine ⟨(tick_suffix h).trans hs.left, fun c hr => ?_⟩
  cases hp : s.host.pend with
  | nil => rw [tick_rest hp h] at hr ⊢; exact hs.raised c hr
  | cons a k =>
    have calm : s.host.ret ≠ .raised c := fun e => by cases hp.symm.trans (hs.raised c e).1
    cases tick_seen hp h with
    | stays _ same => exact absurd (same c hr) calm
    | goesOn _ same _ => exact absurd (same c hr) calm
    | mismatch r e check _ raised =>
      subst raised check
      cases hr
      have mem : .check r e ∈ l := hs.left.subset (hp ▸ List.mem_cons_self)
      exact ⟨rfl, rfl, r, e, _, mem, rfl⟩

/-! ## A call as the host sees it -/

/-- An instruction runs its actions, or it is a SEND that ends at its gate, or it has returned without a condition. -/
theorem exec_host {i : Instr} {s t : State} (h : exec i s = .next t) :
    (∃ k, callActs s i = some k ∧ run k (returnWith .none s) = .next t) ∨
      ((codesOf s.cfg i).isSome ∧ t.host.pend = [] ∧ t.host.ret = .raised .noSerialConfigured) ∨
      (t.host.pend = [] ∧ (t.host.ret = .success ∨ ∃ b, t.host.ret = .verdict b)) := by
  obtain ⟨⟨-, hp, -⟩, h⟩ := exec_next h
  have returned {u : State} (hu : u.host.pend = []) (h : t = returnWith .success u) :
      t.host.pend = [] ∧ (t.host.ret = .success ∨ ∃ b, t.host.ret = .verdict b) := by
    subst h; exact ⟨hu, .inl rfl⟩
  cases h with
  | acts k hk h => exact .inl ⟨k, hk, h⟩
  | raise hi h => subst h; exact .inr (.inl ⟨hi, rfl, rfl⟩)
  | verdict b h => subst h; exact .inr (.inr ⟨hp, .inr ⟨b, rfl⟩⟩)
  | init _ _ h => exact .inr (.inr (returned (by rw [initPulse_eq]; exact hp) h))
  | bare b _ _ h => exact .inr (.inr (returned (by rw [txByte_host]; exact hp) h))
  | drive gs h => exact .inr (.inr (returned (by rw [driveAll_eq]; exact hp) h))
  | frame p h => exact .inr (.inr (returned (by rw [sendFrame_eq]; exact hp) h))
  | cells p h => exact .inr (.inr (returned (by rw [sendCells_eq]; exact hp) h))
  | poll h =>
    obtain ⟨d, out, he, -⟩ := pollLine_frame (returnWith .none s)
    exact .inr (.inr (returned (by rw [he]; exact hp) h))
  | edge l ts el h => exact .inr (.inr (returned (by rw [takeEdge_keeps_host]; exact hp) h))
  | lineOn h | lineOff h | arm h | serial _ _ h | channel _ _ h => exact .inr (.inr (returned (by exact hp) h))

/-- A run of a call leaves a rest of its actions, and raises by a check of them only. -/
theorem run_checked {k : List Act} {s t : State} (h : run k (returnWith .none s) = .next t) : Checked k t :=
  run_keeps tick_checked ⟨List.suffix_rfl, fun _ hr => by cases hr⟩ h

theorem exec_raised {i : Instr} {s t : State} {c : Condition} (h : exec i s = .next t) (hr : t.host.ret = .raised c) :
    ((codesOf s.cfg i).isSome ∧ c = .noSerialConfigured) ∨
      (i = .startup ∧ ∃ r v, c = .chipIdentityMismatch r v ∧ t.ses.sess_phase = .halted) := by
  obtain ⟨k, hk, h⟩ | ⟨hi, -, hn⟩ | ⟨-, hn | ⟨b, hn⟩⟩ := exec_host h
  · obtain ⟨-, halted, r, e, v, mem, hc⟩ := (run_checked h).raised c hr
    exact .inr ⟨startup_of_check hk mem, r, v, hc, halted⟩
  · cases hn.symm.trans hr; exact .inl ⟨hi, rfl⟩
  · cases hn.symm.trans hr
  · cases hn.symm.trans hr

theorem exec_leaves_check {i : Instr} {s t : State} {r : Reg} {e : Byte} (h : exec i s = .next t)
    (hc : .check r e ∈ t.host.pend) : i = .startup := by
  obtain ⟨k, hk, h⟩ | ⟨-, hp, -⟩ | ⟨hp, -⟩ := exec_host h
  · exact startup_of_check hk ((run_checked h).left.subset hc)
  · rw [hp] at hc; exact absurd hc List.not_mem_nil
  · rw [hp] at hc; exact absurd hc List.not_mem_nil

/-- Where a call begins, its actions are before it. -/
theorem begun_answers {i : Instr} {s u : State} {k : List Act} (hk : callActs s i = some k) (hp : u.host.pend = k) :
    Answers u := by
  obtain ⟨hk, ends⟩ := callActs_returns hk
  exact ⟨(congrArg endsInReturn hp).trans ends, fun hn => absurd (hp.symm.trans hn) hk⟩

theorem exec_answers {i : Instr} {s t : State} (h : exec i s = .next t) : Answers t := by
  have at_once (hp : t.host.pend = []) (hr : t.host.ret ≠ .none) : Answers t :=
    ⟨congrArg endsInReturn hp, fun _ => hr⟩
  obtain ⟨k, hk, h⟩ | ⟨-, hp, hn⟩ | ⟨hp, hn | ⟨b, hn⟩⟩ := exec_host h
  · exact run_keeps (fun _ _ => tick_answers) (begun_answers hk rfl) h
  · exact at_once hp (by simp [hn])
  · exact at_once hp (by simp [hn])
  · exact at_once hp (by simp [hn])

/-! ## A call that begins -/

/-- Only the gate of SEND raises where a call begins. -/
theorem startCall_raised {i : Instr} {s t : State} {c : Condition} (h : startCall i s = .next t)
    (hr : t.host.ret = .raised c) : (codesOf s.cfg i).isSome ∧ c = .noSerialConfigured := by
  obtain ⟨-, ⟨k, hk, h⟩ | ⟨hn, h⟩⟩ := startCall_next h
  · obtain before | ⟨r, v, e, k', rfl, -⟩ := tick_raised h hr
    · cases before
    · exact absurd rfl (callActs_head hk r e)
  · obtain gate | ⟨rfl, -⟩ := exec_raised h hr
    · exact gate
    · cases hn

theorem startCall_leaves_check {i : Instr} {s t : State} {r : Reg} {e : Byte} (h : startCall i s = .next t)
    (hc : .check r e ∈ t.host.pend) : i = .startup := by
  obtain ⟨-, ⟨k, hk, h⟩ | ⟨-, h⟩⟩ := startCall_next h
  · exact startup_of_check hk ((tick_suffix h).subset hc)
  · exact exec_leaves_check h hc

theorem startCall_answers {i : Instr} {s t : State} (h : startCall i s = .next t) : Answers t := by
  obtain ⟨-, ⟨k, hk, h⟩ | ⟨-, h⟩⟩ := startCall_next h
  · exact tick_answers (begun_answers hk rfl) h
  · exact exec_answers h

/-! ## A step as the host sees it -/

theorem step_raised {s t : State} {c : Condition} (h : step s = .next t) (hr : t.host.ret = .raised c) :
    (s.host.ret = .raised c ∧ (s.host.pend ≠ [] ∨ t = s)) ∨
      (s.host.pend = [] ∧ ∃ i rest, decode s.host.calls = .ok (i, rest) ∧ (codesOf s.cfg i).isSome ∧
        c = .noSerialConfigured) ∨
      ∃ r v e k, s.host.pend = .check r e :: k ∧ v ≠ e ∧ c = .chipIdentityMismatch r v ∧
        t.ses.sess_phase = .halted := by
  obtain ⟨-, ⟨-, -, rfl⟩ | ⟨hp, h⟩ | ⟨hp, i, rest, hd, h⟩⟩ := step_next h
  · exact .inl ⟨hr, .inr rfl⟩
  · obtain before | check := tick_raised h hr
    · exact .inl ⟨before, .inl hp⟩
    · exact .inr (.inr check)
  · have gate := startCall_raised h hr
    exact .inr (.inl ⟨hp, i, rest, hd, gate⟩)

theorem step_leaves_check {s t : State} {r : Reg} {e : Byte} (h : step s = .next t) (hc : .check r e ∈ t.host.pend) :
    .check r e ∈ s.host.pend ∨ (s.host.pend = [] ∧ ∃ rest, decode s.host.calls = .ok (.startup, rest)) := by
  obtain ⟨-, ⟨-, -, rfl⟩ | ⟨-, h⟩ | ⟨hp, i, rest, hd, h⟩⟩ := step_next h
  · exact .inl hc
  · exact .inl ((tick_suffix h).subset hc)
  · obtain rfl := startCall_leaves_check h hc
    exact .inr ⟨hp, rest, hd⟩

theorem step_suffix {s t : State} (hp : s.host.pend ≠ []) (h : step s = .next t) : t.host.pend <:+ s.host.pend := by
  obtain ⟨hn, -⟩ := step_next h
  exact tick_suffix ((step_eq_tick hn hp).symm.trans h)

/-- A step answers, unless nothing happens. -/
theorem step_answers {s t : State} (hs : CallReturns s) (h : step s = .next t) :
    (s.host.pend = [] ∧ s.host.calls = [] ∧ t = s) ∨ Answers t := by
  obtain ⟨-, rest | ⟨hp, h⟩ | ⟨-, i, rest, -, h⟩⟩ := step_next h
  · exact .inl rest
  · exact .inr (tick_answers ⟨hs, fun hn => absurd hn hp⟩ h)
  · exact .inr (startCall_answers h)

/-- What a call returned is a status, zero exactly if it is no condition (R243, D28; log entry 22). -/
theorem statusOf_returned (c : Config) {r : Ret} (h : r ≠ .none) :
    ∃ n, statusOf c r = some n ∧ (n = 0 ↔ ∀ e, r ≠ .raised e) := by
  cases r with
  | none => exact absurd rfl h
  | success | byte v | verdict b => exact ⟨0, rfl, iff_of_true rfl nofun⟩
  | raised e => exact ⟨_, rfl, iff_of_false (Nat.succ_ne_zero _) fun hn => hn e rfl⟩

theorem Answers.status {t : State} (h : Answers t) (hp : t.host.pend = []) :
    ∃ n, statusOf t.cfg t.host.ret = some n ∧ (n = 0 ↔ ∀ c, t.host.ret ≠ .raised c) :=
  statusOf_returned t.cfg (h.returned hp)

/-- Settles O59 (R243, R260, R265; log entries 1, 22): by what the host sees of an action of the call in flight, and
of a call that begins. -/
theorem onlySendAndStartupRaise : Obligations.OnlySendAndStartupRaise := by
  refine ⟨fun _ _ _ _ => exec_raised, fun _ _ _ => step_raised, fun _ _ _ _ _ => exec_leaves_check,
    fun _ _ _ _ => step_leaves_check, fun _ _ => step_suffix, fun i s t h => ?_, fun s t hs h => ?_⟩
  · have answers := exec_answers h
    exact ⟨answers.returns, answers.status⟩
  · obtain ⟨hp, hc, rfl⟩ | answers := step_answers hs h
    · exact ⟨hs, fun busy => absurd busy (by simp [hp, hc])⟩
    · exact ⟨answers.returns, fun _ => answers.status⟩

end Sys2Proof.Machine
end

section

namespace Sys2Proof.Machine

/-! ## After reset -/

/-- A step at reset finds no call to take. -/
theorem step_reset : step State.reset = .next State.reset :=
  step_fetch nofun rfl

/-- Settles O1 (R36, R291, D12, D23; log entry 3): the values are those of `State.reset`, and the host has put nothing
forward. -/
theorem resetLeavesTheSpecsValues : Obligations.ResetLeavesTheSpecsValues :=
  ⟨rfl, rfl, rfl, rfl, rfl, rfl, rfl, rfl, rfl, step_reset⟩

/-! ## Calls before INIT -/

theorem busEntry_before_init {s : State} (hi : s.drv.drv_init = false) :
    busEntry s = some .driverNotInitialised := by
  simp only [busEntry, hi, Bool.not_false, if_true]

section

variable {s : State} (hi : s.drv.drv_init = false) (hp : s.drv.drv_phase = .idle) (c : Config) (k : List Act)
include hi hp

/-- A transaction is refused at its entry check, before select is asserted (R147, R300). -/
theorem run_bus_before_init (x : Txn) : run (.bus x :: k) s = .refused .driverNotInitialised :=
  run_refuse (actOn_refuse (by simp only [act, busAct, hp, busEntry_before_init hi]))

theorem run_strobe_before_init (st : Strobe) : ∃ r, run (strobeActs c st ++ k) s = .refused r := by
  unfold strobeActs
  split
  · exact ⟨_, run_bus_before_init hi hp k _⟩
  · exact ⟨_, run_refuse rfl⟩

/-- A mode strobe is a transaction first and its record after (R30). -/
theorem run_mode_before_init {st : Strobe} {b : Byte} (hb : strobeByte c st = some b) :
    run (modeActs c st ++ k) s = .refused .driverNotInitialised := by
  rw [modeActs, strobeActs_of_mem hb]
  exact run_bus_before_init hi hp _ _

theorem run_read_before_init (r : Reg) : ∃ e, run (readActs c r ++ k) s = .refused e := by
  unfold readActs
  split
  · exact ⟨_, run_bus_before_init hi hp k _⟩
  · exact ⟨_, run_refuse rfl⟩

theorem run_write_before_init (r : Reg) (bs : List Byte) : ∃ e, run (writeActs c r bs ++ k) s = .refused e := by
  unfold writeActs
  split
  · exact ⟨_, run_bus_before_init hi hp k _⟩
  · exact ⟨_, run_refuse rfl⟩

/-- The first of the three writes is refused. -/
theorem run_freq_before_init (w : FreqWord) : ∃ e, run (freqActs c w ++ k) s = .refused e := by
  simp only [freqActs, List.append_assoc]
  exact run_write_before_init hi hp c _ .freqHi _

theorem run_pfreq_before_init (m : Mhz) : ∃ e, run (pfreqActs c m ++ k) s = .refused e := by
  unfold pfreqActs
  split
  · exact run_freq_before_init hi hp c k _
  · exact ⟨_, run_refuse rfl⟩

end

section

variable {s : State} (hc : CanCall s) (hi : s.drv.drv_init = false)
include hc hi

theorem exec_bare_before_init {i : Instr} (hb : isBareByte i = true) : ∃ r, exec i s = .refused r := by
  obtain ⟨absent, he⟩ := exec_of_bare hb s
  have entry : busEntry (returnWith .none s) = some .driverNotInitialised := busEntry_before_init hi
  rw [he, sendBare, accept_of_canCall hc, entry]
  cases bareByteOf s.cfg i with
  | none => exact ⟨absent, rfl⟩
  | some b => exact ⟨.driverNotInitialised, rfl⟩

theorem exec_usesBus_before_init {i : Instr} (hb : usesBus i = true) : ∃ r, exec i s = .refused r := by
  have closed : (returnWith .none s).drv.drv_init = false := hi
  have idle : (returnWith .none s).drv.drv_phase = .idle := hc.2.2
  have refused {k : List Act} (h : callActs s i = some k) (hr : ∃ r, run k (returnWith .none s) = .refused r) :
      ∃ r, exec i s = .refused r := (exec_of_callActs hc h).symm ▸ hr
  cases i with
  | exec st => exact refused rfl (run_strobe_before_init closed idle _ _ st)
  | read r => exact refused rfl (run_read_before_init closed idle _ _ r)
  | write r b => exact refused rfl (run_write_before_init closed idle _ _ r [b])
  | wburst r bs => exact refused rfl (run_write_before_init closed idle _ _ r bs)
  | pfreq m => exact refused rfl (run_pfreq_before_init closed idle _ _ m)
  | fmtFreq w => exact refused rfl (run_freq_before_init closed idle _ _ w)
  | fmtS _ | fmtHRead _ | fmtHWrite _ | fmtD _ => exact exec_bare_before_init hc hi rfl
  | _ => cases hb

/-- SNIFF writes its phase first; its strobe is then refused (log entry 10). -/
theorem exec_sniff_before_init : exec .sniff s = .refused .driverNotInitialised :=
  (exec_of_callActs hc rfl).trans ((run_go rfl).trans
    (run_mode_before_init (s := begun .sniffing s) (st := .receiveMode) hi hc.2.2 s.cfg _ rfl))

/-- SEND past its gate writes its phase first; its strobe is then refused (log entry 10). -/
theorem exec_send_before_init {i : Instr} (hs : (codesOf s.cfg i).isSome) (hv : s.ses.serial ≠ none) :
    exec i s = .refused .driverNotInitialised := by
  obtain ⟨⟨c1, c2⟩, hs⟩ := Option.isSome_iff_exists.1 hs
  obtain ⟨v, hv⟩ := Option.ne_none_iff_exists'.1 hv
  rw [exec_send_begun hc hs hv]
  exact run_mode_before_init (s := begun .sending s) (st := .transmitMode) hi hc.2.2 s.cfg _ rfl

end

/-! ## INIT and STARTUP after INIT -/

section

variable {s : State} (hc : CanCall s) (hi : s.drv.drv_init = true)
include hi

theorem initEntry_after_init : initEntry s = some .alreadyInitialised := by
  simp only [initEntry, hi, if_true]

include hc

theorem exec_init_after_init : exec .init s = .refused .alreadyInitialised := by
  have he : initEntry (returnWith .none s) = some .alreadyInitialised := initEntry_after_init hi
  simp only [exec, execInit, accept_of_canCall hc, he]

/-- STARTUP is refused by the INIT it begins with (R240; log entry 10). -/
theorem exec_startup_after_init : exec .startup s = .refused .alreadyInitialised := by
  have he : initEntry (returnWith .none s) = some .alreadyInitialised := initEntry_after_init hi
  exact (exec_of_callActs hc rfl).trans (run_refuse (actOn_refuse (by simp only [act, he])))

end

/-- Settles O17 (R300, D12; log entry 10): before INIT each of these calls comes to BUSDRV's entry check before any
action on the bus, and after it to INIT's. -/
theorem busCallsBeforeInitAreRefused : Obligations.BusCallsBeforeInitAreRefused := by
  intro i s hc
  refine ⟨fun hi uses => ?_, fun hi => exec_send_before_init hc hi, fun hi again => ?_⟩
  · obtain hb | rfl := uses
    · exact exec_usesBus_before_init hc hi hb
    · exact ⟨_, exec_sniff_before_init hc hi⟩
  · obtain rfl | rfl := again
    · exact exec_init_after_init hc hi
    · exact exec_startup_after_init hc hi

end Sys2Proof.Machine
end
